-- ==== Sys2Proof/Word.lean ====
section
/-! DEFINITION. The value types of the machine: words, bytes, register indices and the raw fields of
an instruction word (spec 00_scope.md R7, R12; 30_encoding.md R301). -/

namespace Sys2Proof

/-- A 64-bit value: a general register, `hi`, `lo`, the PC, an address (R7 `XLEN`). -/
abbrev Word := BitVec 64

/-- One byte of the memory image (R200). -/
abbrev Byte := BitVec 8

/-- A 32-bit instruction word (R300). -/
abbrev InstrWord := BitVec 32

/-- A register index, `r0` to `r31` (R101). Every value of a register field is one (R342). -/
abbrev Reg := Fin 32

/-- The raw 16-bit immediate field, bits 31:16 (R301). -/
abbrev Imm16 := BitVec 16

/-- The raw 11-bit offset field, bits 31:21 (R301). -/
abbrev Off11 := BitVec 11

/-- The raw 24-bit target field, bits 31:8 (R301). -/
abbrev Target24 := BitVec 24

/-- A command line the host gives at a debug pause (60_exceptions.md R961). -/
abbrev CommandLine := List Char

end Sys2Proof
end

