-- ==== Sys2Proof/Config.lean ====
section
/-! DEFINITION. What is fixed for a run or for an implementation: the run's parameters (00_scope.md
R8, R9), the spec's default numbers (decisions D8, D9, D10, D18), and the free values, which are
opaque constants without a body (the host's answers, and the container's magic value). -/

namespace Sys2Proof

/-- `ALIGN_POLICY` (R9, 20_memory.md R213). -/
inductive AlignPolicy where
  | enforce
  | permit
  deriving DecidableEq, Repr

/-- `DIV_OVF_POLICY` (R9, 47_muldiv.md R704). -/
inductive DivOvfPolicy where
  | fault
  | wrap
  deriving DecidableEq, Repr

/-- `TGT_SCALE`, which is 1 or 4 (R9, 30_encoding.md R312, decision D7). -/
inductive TgtScale where
  | one
  | four
  deriving DecidableEq, Repr

/-- The parameters of one run (R8, and those of R9 for which the rules give two behaviours). They are
arguments of the initial state, and no step changes them (R202, R141). Log entry 1. -/
structure RunConfig where
  /-- `M`, the size of the memory image in bytes. -/
  memSize : Nat
  /-- `T`, the size of text in bytes. -/
  textSize : Nat
  /-- `D`, the size of data in bytes. -/
  dataSize : Nat
  /-- `R`, the size of read-only data in bytes. -/
  rodataSize : Nat
  /-- `DEBUG` (10_state.md R141). -/
  debug : Bool
  alignPolicy : AlignPolicy
  divOvfPolicy : DivOvfPolicy
  tgtScale : TgtScale
  deriving DecidableEq, Repr

/-- First address above text: data starts here (20_memory.md R201). -/
abbrev RunConfig.dataStart (c : RunConfig) : Nat := c.textSize

/-- First address above data: read-only data starts here (R201). -/
abbrev RunConfig.rodataStart (c : RunConfig) : Nat := c.textSize + c.dataSize

/-- First address above read-only data: the free and stack range starts here (R201). -/
abbrev RunConfig.freeStart (c : RunConfig) : Nat := c.textSize + c.dataSize + c.rodataSize

/-- The run's parameters with every policy at the spec's default (R9). Log entry 16. -/
def RunConfig.withDefaults (memSize textSize dataSize rodataSize : Nat) (debug : Bool) : RunConfig :=
  { memSize, textSize, dataSize, rodataSize, debug
    alignPolicy := .enforce, divOvfPolicy := .fault, tgtScale := .four }

namespace Config

/-! The register roles, `REG_ROLES` at the spec's default (10_state.md R104, decision D8). Entry 5. -/

/-- SEL: the syscall selector, r2. -/
def sel : Reg := 2
/-- ARG: the syscall argument and result, r5. -/
def arg : Reg := 5
/-- GP: the global pointer, r28. -/
def gp : Reg := 28
/-- SP: the stack pointer, r29. -/
def sp : Reg := 29
/-- FP: the frame pointer, r30. -/
def fp : Reg := 30
/-- RA: the return-address register, r31. -/
def ra : Reg := 31
/-- CALLEE_SAVED[0..7]: `s0` to `s7`, r16 to r23. -/
def calleeSaved : List Reg := [16, 17, 18, 19, 20, 21, 22, 23]

/-! The syscall selector codes, `SYS_CODES` at the spec's default (41_system.md R410, decision D9). Entry 8. -/

/-- EXIT = 0. -/
def sysExit : Nat := 0
/-- GETCHAR = 1. -/
def sysGetchar : Nat := 1
/-- PUTCHAR = 2. -/
def sysPutchar : Nat := 2

/-- `EOF_VALUE`, 2^64 - 1 by default (41_system.md R412, decision D10). Entry 8. -/
def eofValue : Word := BitVec.ofNat 64 (2 ^ 64 - 1)

/-- `SHIFT_COUNT_BITS`, 6 by default (45_logic_shift.md R610, decision D18). Entry 17. -/
def shiftCountBits : Nat := 6

/-- FREE VALUE: the host's n-th answer to a GETCHAR request for which the state lists no answer: a
byte, or `none` for end of input (R412, R1021: the host chooses). No body. Log entry 9. -/
opaque hostAnswer : Nat → Option Byte

/-- FREE VALUE: the host's n-th command line at a pause for which the state lists no line (R961,
R1021: the host chooses). No body. Log entry 10. -/
opaque hostLine : Nat → CommandLine

/-- FREE VALUE: `CONTAINER_MAGIC`, which the spec leaves OPEN (R9, 70_reset_and_hazards.md R1003,
decision D33). No body. Log entry 21. -/
opaque containerMagic : Word

end Config

end Sys2Proof
end

