-- ==== Sys2Proof/Syntax.lean ====
section
/-! DEFINITION. The instructions: one constructor per row of spec/opcode_table.json, carrying exactly
the fields its format uses (30_encoding.md R302, R303), in assembler operand order (R304). The bits a
format ignores have no place here (R341). -/

namespace Sys2Proof

/-- The 54 instructions of the dispatch list (30_encoding.md R321), in opcode order (R320). -/
inductive Instr where
  -- system, format N (41_system.md)
  | nop
  | int
  | brk
  -- loads and stores, format M (42_load_store.md): register, base, offset
  | lb (rd rs1 : Reg) (off : Off11)
  | lbu (rd rs1 : Reg) (off : Off11)
  | lh (rd rs1 : Reg) (off : Off11)
  | lhu (rd rs1 : Reg) (off : Off11)
  | lw (rd rs1 : Reg) (off : Off11)
  | lwu (rd rs1 : Reg) (off : Off11)
  | ld (rd rs1 : Reg) (off : Off11)
  | sb (rd rs1 : Reg) (off : Off11)
  | sh (rd rs1 : Reg) (off : Off11)
  | sw (rd rs1 : Reg) (off : Off11)
  | sd (rd rs1 : Reg) (off : Off11)
  -- moves (43_moves.md)
  | lui (rd : Reg) (imm : Imm16)
  | mov (rd rs1 : Reg)
  | mfhi (rd : Reg)
  | mflo (rd : Reg)
  -- comparisons (44_compare.md)
  | slt (rd rs1 rs2 : Reg)
  | sltu (rd rs1 rs2 : Reg)
  | seq (rd rs1 rs2 : Reg)
  | slti (rd rs1 : Reg) (imm : Imm16)
  | sltiu (rd rs1 : Reg) (imm : Imm16)
  | seqi (rd rs1 : Reg) (imm : Imm16)
  -- bitwise (45_logic_shift.md)
  | or (rd rs1 rs2 : Reg)
  | and (rd rs1 rs2 : Reg)
  | xor (rd rs1 rs2 : Reg)
  | nor (rd rs1 rs2 : Reg)
  | ori (rd rs1 : Reg) (imm : Imm16)
  | andi (rd rs1 : Reg) (imm : Imm16)
  | xori (rd rs1 : Reg) (imm : Imm16)
  | nori (rd rs1 : Reg) (imm : Imm16)
  -- shifts (45_logic_shift.md)
  | sll (rd rs1 rs2 : Reg)
  | srl (rd rs1 rs2 : Reg)
  | slli (rd rs1 : Reg) (imm : Imm16)
  | srli (rd rs1 : Reg) (imm : Imm16)
  -- add and subtract (46_arith.md)
  | add (rd rs1 rs2 : Reg)
  | sub (rd rs1 rs2 : Reg)
  | addi (rd rs1 : Reg) (imm : Imm16)
  | subi (rd rs1 : Reg) (imm : Imm16)
  -- multiply and divide (47_muldiv.md): the operands are `x[rd]` and `x[rs1]` (R700)
  | mul (rd rs1 : Reg)
  | mulu (rd rs1 : Reg)
  | div (rd rs1 : Reg)
  | divu (rd rs1 : Reg)
  -- stack, call and return (48_stack_call.md)
  | push (rd : Reg)
  | pushw (rd : Reg)
  | pop (rd : Reg)
  | popw (rd : Reg)
  | call (target : Target24)
  | ret
  -- jumps and branches (49_jump_branch.md)
  | j (target : Target24)
  | jr (rd : Reg)
  | beq (rd rs1 : Reg) (imm : Imm16)
  | bne (rd rs1 : Reg) (imm : Imm16)
  deriving DecidableEq, Repr

end Sys2Proof
end

