-- ==== Sys2Proof/WellFormed.lean ====
section
/-! DEFINITION. The checks that stand outside the types.

An `Instr` needs none: its operand types hold exactly the values of the word's fields, and every value
of a field is legal (30_encoding.md R341, R342). What the spec does check is the run's layout, at load
(70_reset_and_hazards.md R1004), and what it requires are distinct register roles (48_stack_call.md
R760) and distinct syscall codes (decision D9). -/

namespace Sys2Proof

/-- R1004 (c): text is a whole number of instruction words. -/
def RunConfig.textWhole (c : RunConfig) : Bool := c.textSize % 4 == 0

/-- R1004 (d): the image holds at least twice text and data. -/
def RunConfig.headroom (c : RunConfig) : Bool := 2 * (c.textSize + c.dataSize) ≤ c.memSize

/-- R1004 (e): the image holds the three zones. -/
def RunConfig.zonesFit (c : RunConfig) : Bool := c.freeStart ≤ c.memSize

/-- R1004 (f): the top of the image, which is the reset SP, is 8-aligned. -/
def RunConfig.topAligned (c : RunConfig) : Bool := c.memSize % 8 == 0

/-- R123: `M < 2^64`, so that the top of the image is a 64-bit address. Log entry 20. -/
def RunConfig.addressable (c : RunConfig) : Bool := c.memSize < 2 ^ 64

/-- The layouts the loader accepts: R1004 (c) to (f), and R123's bound on `M`. -/
def RunConfig.wf (c : RunConfig) : Bool :=
  c.textWhole && c.headroom && c.zonesFit && c.topAligned && c.addressable

/-- R760: SP, FP, RA and the callee-saved registers are eleven distinct registers, none of them r0. -/
def rolesWf (sp fp ra : Reg) (calleeSaved : List Reg) : Bool :=
  calleeSaved.length == 8 && (sp :: fp :: ra :: calleeSaved).Nodup
    && !(sp :: fp :: ra :: calleeSaved).contains 0

/-- Decision D9: the three syscall codes are distinct 64-bit values. -/
def sysCodesWf (exit getchar putchar : Nat) : Bool :=
  [exit, getchar, putchar].Nodup && [exit, getchar, putchar].all (· < 2 ^ 64)

end Sys2Proof
end

