-- ==== Sys2Proof/Decode.lean ====
section
/-! DEFINITION. Decoding an instruction word (30_encoding.md R300 to R341), and after it the encoder,
both written from the field table R301, the format table R302 and R303 and the opcode map R320. -/

namespace Sys2Proof

/-! ## Decoding -/

/-- A register field read as an index (R301). -/
def regOf (b : BitVec 5) : Reg := ⟨b.toNat, b.isLt⟩

/-- The record of R330: all fields of a word, whichever of them the instruction uses. The offset is
kept raw here; its sign extension is `memOffset`. -/
structure Fields where
  op : BitVec 6
  rd : Reg
  rs1 : Reg
  rs2 : Reg
  imm16 : Imm16
  off11 : Off11
  target24 : Target24
  deriving DecidableEq, Repr

/-- R330 `Decode(w)`: bit-field extraction only, total on every word. -/
def fieldsOf (w : InstrWord) : Fields :=
  { op := w.extractLsb' 0 6
    rd := regOf (w.extractLsb' 6 5)
    rs1 := regOf (w.extractLsb' 11 5)
    rs2 := regOf (w.extractLsb' 16 5)
    imm16 := w.extractLsb' 16 16
    off11 := w.extractLsb' 21 11
    target24 := w.extractLsb' 8 24 }

/-- Why bytes are no instruction. -/
inductive DecodeError where
  /-- R340: the opcode is not assigned in `OPCODES`. The step turns it into `IllegalInstruction`. Safe. -/
  | unassignedOpcode (op : BitVec 6)
  /-- Fewer than the four bytes an instruction has (R300). The step never meets it: it fetches four. Safe. -/
  | truncated
  deriving DecidableEq, Repr

/-- R320, R303: the instruction the fields select. Only `op` takes part in the selection.
Log entry 6. -/
def instrOfFields (f : Fields) : Except DecodeError Instr :=
  match f.op.toNat with
  | 0x00 => .ok .nop
  | 0x01 => .ok .int
  | 0x02 => .ok .brk
  | 0x03 => .ok (.lb f.rd f.rs1 f.off11)
  | 0x04 => .ok (.lbu f.rd f.rs1 f.off11)
  | 0x05 => .ok (.lh f.rd f.rs1 f.off11)
  | 0x06 => .ok (.lhu f.rd f.rs1 f.off11)
  | 0x07 => .ok (.lw f.rd f.rs1 f.off11)
  | 0x08 => .ok (.lwu f.rd f.rs1 f.off11)
  | 0x09 => .ok (.ld f.rd f.rs1 f.off11)
  | 0x0A => .ok (.sb f.rd f.rs1 f.off11)
  | 0x0B => .ok (.sh f.rd f.rs1 f.off11)
  | 0x0C => .ok (.sw f.rd f.rs1 f.off11)
  | 0x0D => .ok (.sd f.rd f.rs1 f.off11)
  | 0x0E => .ok (.lui f.rd f.imm16)
  | 0x0F => .ok (.mov f.rd f.rs1)
  | 0x10 => .ok (.mfhi f.rd)
  | 0x11 => .ok (.mflo f.rd)
  | 0x12 => .ok (.slt f.rd f.rs1 f.rs2)
  | 0x13 => .ok (.sltu f.rd f.rs1 f.rs2)
  | 0x14 => .ok (.seq f.rd f.rs1 f.rs2)
  | 0x15 => .ok (.slti f.rd f.rs1 f.imm16)
  | 0x16 => .ok (.sltiu f.rd f.rs1 f.imm16)
  | 0x17 => .ok (.seqi f.rd f.rs1 f.imm16)
  | 0x18 => .ok (.or f.rd f.rs1 f.rs2)
  | 0x19 => .ok (.and f.rd f.rs1 f.rs2)
  | 0x1A => .ok (.xor f.rd f.rs1 f.rs2)
  | 0x1B => .ok (.nor f.rd f.rs1 f.rs2)
  | 0x1C => .ok (.ori f.rd f.rs1 f.imm16)
  | 0x1D => .ok (.andi f.rd f.rs1 f.imm16)
  | 0x1E => .ok (.xori f.rd f.rs1 f.imm16)
  | 0x1F => .ok (.nori f.rd f.rs1 f.imm16)
  | 0x20 => .ok (.sll f.rd f.rs1 f.rs2)
  | 0x21 => .ok (.srl f.rd f.rs1 f.rs2)
  | 0x22 => .ok (.slli f.rd f.rs1 f.imm16)
  | 0x23 => .ok (.srli f.rd f.rs1 f.imm16)
  | 0x24 => .ok (.add f.rd f.rs1 f.rs2)
  | 0x25 => .ok (.sub f.rd f.rs1 f.rs2)
  | 0x26 => .ok (.addi f.rd f.rs1 f.imm16)
  | 0x27 => .ok (.subi f.rd f.rs1 f.imm16)
  | 0x28 => .ok (.mul f.rd f.rs1)
  | 0x29 => .ok (.mulu f.rd f.rs1)
  | 0x2A => .ok (.div f.rd f.rs1)
  | 0x2B => .ok (.divu f.rd f.rs1)
  | 0x2C => .ok (.push f.rd)
  | 0x2D => .ok (.pushw f.rd)
  | 0x2E => .ok (.pop f.rd)
  | 0x2F => .ok (.popw f.rd)
  | 0x30 => .ok (.call f.target24)
  | 0x31 => .ok .ret
  | 0x32 => .ok (.j f.target24)
  | 0x33 => .ok (.jr f.rd)
  | 0x34 => .ok (.beq f.rd f.rs1 f.imm16)
  | 0x35 => .ok (.bne f.rd f.rs1 f.imm16)
  | _ => .error (.unassignedOpcode f.op)

/-- R330 with R340: the instruction of a word. It depends on the word alone (R331). -/
def decodeWord (w : InstrWord) : Except DecodeError Instr := instrOfFields (fieldsOf w)

/-- R225: four bytes, lowest address first, as a little-endian word. -/
def wordOfBytes (b0 b1 b2 b3 : Byte) : InstrWord := b3 ++ b2 ++ b1 ++ b0

/-- The instruction at the head of a list of bytes, lowest address first, and the bytes after it. A
decoder always consumes four bytes (R300). -/
def decodeBytes : List Byte → Except DecodeError (Instr × List Byte)
  | b0 :: b1 :: b2 :: b3 :: rest =>
    match decodeWord (wordOfBytes b0 b1 b2 b3) with
    | .ok i => .ok (i, rest)
    | .error e => .error e
  | _ => .error .truncated

/-! ## Encoding -/

/-- A register index as its field (R301). -/
def regBits (r : Reg) : BitVec 5 := BitVec.ofNat 5 r.val

/-- The opcode map of R320 (decision D3): the instruction's number in the dispatch list. -/
def opcodeOf : Instr → BitVec 6
  | .nop => 0x00
  | .int => 0x01
  | .brk => 0x02
  | .lb _ _ _ => 0x03
  | .lbu _ _ _ => 0x04
  | .lh _ _ _ => 0x05
  | .lhu _ _ _ => 0x06
  | .lw _ _ _ => 0x07
  | .lwu _ _ _ => 0x08
  | .ld _ _ _ => 0x09
  | .sb _ _ _ => 0x0A
  | .sh _ _ _ => 0x0B
  | .sw _ _ _ => 0x0C
  | .sd _ _ _ => 0x0D
  | .lui _ _ => 0x0E
  | .mov _ _ => 0x0F
  | .mfhi _ => 0x10
  | .mflo _ => 0x11
  | .slt _ _ _ => 0x12
  | .sltu _ _ _ => 0x13
  | .seq _ _ _ => 0x14
  | .slti _ _ _ => 0x15
  | .sltiu _ _ _ => 0x16
  | .seqi _ _ _ => 0x17
  | .or _ _ _ => 0x18
  | .and _ _ _ => 0x19
  | .xor _ _ _ => 0x1A
  | .nor _ _ _ => 0x1B
  | .ori _ _ _ => 0x1C
  | .andi _ _ _ => 0x1D
  | .xori _ _ _ => 0x1E
  | .nori _ _ _ => 0x1F
  | .sll _ _ _ => 0x20
  | .srl _ _ _ => 0x21
  | .slli _ _ _ => 0x22
  | .srli _ _ _ => 0x23
  | .add _ _ _ => 0x24
  | .sub _ _ _ => 0x25
  | .addi _ _ _ => 0x26
  | .subi _ _ _ => 0x27
  | .mul _ _ => 0x28
  | .mulu _ _ => 0x29
  | .div _ _ => 0x2A
  | .divu _ _ => 0x2B
  | .push _ => 0x2C
  | .pushw _ => 0x2D
  | .pop _ => 0x2E
  | .popw _ => 0x2F
  | .call _ => 0x30
  | .ret => 0x31
  | .j _ => 0x32
  | .jr _ => 0x33
  | .beq _ _ _ => 0x34
  | .bne _ _ _ => 0x35

/-- Format N (R302): only the opcode; the ignored bits are written 0. -/
def encodeN (op : BitVec 6) : InstrWord := 0#26 ++ op

/-- Format R (R302): bits 31:21 are ignored and written 0. An unused register field is written 0. -/
def encodeR (op : BitVec 6) (rd rs1 rs2 : Reg) : InstrWord :=
  0#11 ++ regBits rs2 ++ regBits rs1 ++ regBits rd ++ op

/-- Format I (R302). -/
def encodeI (op : BitVec 6) (rd rs1 : Reg) (imm : Imm16) : InstrWord :=
  imm ++ regBits rs1 ++ regBits rd ++ op

/-- Format M (R302): bits 20:16 are ignored and written 0. -/
def encodeM (op : BitVec 6) (rd rs1 : Reg) (off : Off11) : InstrWord :=
  off ++ 0#5 ++ regBits rs1 ++ regBits rd ++ op

/-- Format J (R302): bits 7:6 are ignored and written 0. -/
def encodeJ (op : BitVec 6) (target : Target24) : InstrWord := target ++ 0#2 ++ op

/-- The word of an instruction: its format of R303 with its opcode of R320. -/
def encode : Instr → InstrWord
  | .nop => encodeN (opcodeOf (.nop))
  | .int => encodeN (opcodeOf (.int))
  | .brk => encodeN (opcodeOf (.brk))
  | .lb rd rs1 off => encodeM (opcodeOf (.lb rd rs1 off)) rd rs1 off
  | .lbu rd rs1 off => encodeM (opcodeOf (.lbu rd rs1 off)) rd rs1 off
  | .lh rd rs1 off => encodeM (opcodeOf (.lh rd rs1 off)) rd rs1 off
  | .lhu rd rs1 off => encodeM (opcodeOf (.lhu rd rs1 off)) rd rs1 off
  | .lw rd rs1 off => encodeM (opcodeOf (.lw rd rs1 off)) rd rs1 off
  | .lwu rd rs1 off => encodeM (opcodeOf (.lwu rd rs1 off)) rd rs1 off
  | .ld rd rs1 off => encodeM (opcodeOf (.ld rd rs1 off)) rd rs1 off
  | .sb rd rs1 off => encodeM (opcodeOf (.sb rd rs1 off)) rd rs1 off
  | .sh rd rs1 off => encodeM (opcodeOf (.sh rd rs1 off)) rd rs1 off
  | .sw rd rs1 off => encodeM (opcodeOf (.sw rd rs1 off)) rd rs1 off
  | .sd rd rs1 off => encodeM (opcodeOf (.sd rd rs1 off)) rd rs1 off
  | .lui rd imm => encodeI (opcodeOf (.lui rd imm)) rd 0 imm
  | .mov rd rs1 => encodeR (opcodeOf (.mov rd rs1)) rd rs1 0
  | .mfhi rd => encodeR (opcodeOf (.mfhi rd)) rd 0 0
  | .mflo rd => encodeR (opcodeOf (.mflo rd)) rd 0 0
  | .slt rd rs1 rs2 => encodeR (opcodeOf (.slt rd rs1 rs2)) rd rs1 rs2
  | .sltu rd rs1 rs2 => encodeR (opcodeOf (.sltu rd rs1 rs2)) rd rs1 rs2
  | .seq rd rs1 rs2 => encodeR (opcodeOf (.seq rd rs1 rs2)) rd rs1 rs2
  | .slti rd rs1 imm => encodeI (opcodeOf (.slti rd rs1 imm)) rd rs1 imm
  | .sltiu rd rs1 imm => encodeI (opcodeOf (.sltiu rd rs1 imm)) rd rs1 imm
  | .seqi rd rs1 imm => encodeI (opcodeOf (.seqi rd rs1 imm)) rd rs1 imm
  | .or rd rs1 rs2 => encodeR (opcodeOf (.or rd rs1 rs2)) rd rs1 rs2
  | .and rd rs1 rs2 => encodeR (opcodeOf (.and rd rs1 rs2)) rd rs1 rs2
  | .xor rd rs1 rs2 => encodeR (opcodeOf (.xor rd rs1 rs2)) rd rs1 rs2
  | .nor rd rs1 rs2 => encodeR (opcodeOf (.nor rd rs1 rs2)) rd rs1 rs2
  | .ori rd rs1 imm => encodeI (opcodeOf (.ori rd rs1 imm)) rd rs1 imm
  | .andi rd rs1 imm => encodeI (opcodeOf (.andi rd rs1 imm)) rd rs1 imm
  | .xori rd rs1 imm => encodeI (opcodeOf (.xori rd rs1 imm)) rd rs1 imm
  | .nori rd rs1 imm => encodeI (opcodeOf (.nori rd rs1 imm)) rd rs1 imm
  | .sll rd rs1 rs2 => encodeR (opcodeOf (.sll rd rs1 rs2)) rd rs1 rs2
  | .srl rd rs1 rs2 => encodeR (opcodeOf (.srl rd rs1 rs2)) rd rs1 rs2
  | .slli rd rs1 imm => encodeI (opcodeOf (.slli rd rs1 imm)) rd rs1 imm
  | .srli rd rs1 imm => encodeI (opcodeOf (.srli rd rs1 imm)) rd rs1 imm
  | .add rd rs1 rs2 => encodeR (opcodeOf (.add rd rs1 rs2)) rd rs1 rs2
  | .sub rd rs1 rs2 => encodeR (opcodeOf (.sub rd rs1 rs2)) rd rs1 rs2
  | .addi rd rs1 imm => encodeI (opcodeOf (.addi rd rs1 imm)) rd rs1 imm
  | .subi rd rs1 imm => encodeI (opcodeOf (.subi rd rs1 imm)) rd rs1 imm
  | .mul rd rs1 => encodeR (opcodeOf (.mul rd rs1)) rd rs1 0
  | .mulu rd rs1 => encodeR (opcodeOf (.mulu rd rs1)) rd rs1 0
  | .div rd rs1 => encodeR (opcodeOf (.div rd rs1)) rd rs1 0
  | .divu rd rs1 => encodeR (opcodeOf (.divu rd rs1)) rd rs1 0
  | .push rd => encodeR (opcodeOf (.push rd)) rd 0 0
  | .pushw rd => encodeR (opcodeOf (.pushw rd)) rd 0 0
  | .pop rd => encodeR (opcodeOf (.pop rd)) rd 0 0
  | .popw rd => encodeR (opcodeOf (.popw rd)) rd 0 0
  | .call target => encodeJ (opcodeOf (.call target)) target
  | .ret => encodeN (opcodeOf (.ret))
  | .j target => encodeJ (opcodeOf (.j target)) target
  | .jr rd => encodeR (opcodeOf (.jr rd)) rd 0 0
  | .beq rd rs1 imm => encodeI (opcodeOf (.beq rd rs1 imm)) rd rs1 imm
  | .bne rd rs1 imm => encodeI (opcodeOf (.bne rd rs1 imm)) rd rs1 imm

/-- The bytes of a word as memory holds them, lowest address first (R225). -/
def bytesOfWord (w : InstrWord) : List Byte :=
  [w.extractLsb' 0 8, w.extractLsb' 8 8, w.extractLsb' 16 8, w.extractLsb' 24 8]

/-- The bytes of an instruction as memory holds them, lowest address first. -/
def encodeBytes (i : Instr) : List Byte := bytesOfWord (encode i)

/-- The instruction read from a table row's word: its `nbits` bits with zeros above, laid out as memory
holds them, given to the decoder. -/
def decodeTableWord (nbits w : Nat) : Option Instr :=
  match decodeBytes (bytesOfWord (BitVec.ofNat 32 (w % 2 ^ nbits))) with
  | .ok (i, _) => some i
  | .error _ => none

end Sys2Proof
end

