-- ==== Sys2Proof/Machine/State.lean ====
section
/-! DEFINITION. The state of the machine as plain data: what 10_state.md R100 lists, the run's fixed
parameters (00_scope.md R8), and the model's own fields for the host interface
(70_reset_and_hazards.md R1021). The ways a step can stop, and the machine right after reset. -/

namespace Sys2Proof.Machine

/-- The memory image: the bytes that are not 0, as (address, byte) pairs with strictly rising
addresses. What an unlisted address reads as, and the operations, are in Machine/Ops.lean. -/
abbrev Memory := List Host.Cell

/-- The engine state (10_state.md R140). -/
inductive EngineState where
  /-- Between two instructions: the next step fetches. -/
  | fetching
  /-- Inside a step, from decoding to the end of `Execute` (R150). -/
  | dispatching
  /-- Inside a step, in the retire phase (R150). -/
  | retiring
  /-- Terminal, after the exit syscall. It carries the value of the reported outcome `Exit(v)` (R411).
  Log entry 12. -/
  | halted (status : Word)
  /-- Paused: the next step takes one command line from the host (60_exceptions.md R961). -/
  | debugPaused
  deriving DecidableEq, Repr

/-- What a pause command shows the host (60_exceptions.md R962, R963). The text is outside the core;
these are the data it is made of. Log entry 19. -/
inductive Display where
  /-- `op`: the opcode at the current `pc`; `none` where `pc` is not the address of an instruction. -/
  | opcode (op : Option (BitVec 6))
  /-- `rd`: `x[0..31]`, `hi`, `lo`, `pc` and `cycle`. -/
  | registers (x : Vector Word 32) (hi lo pc cycle : Word)
  /-- `si`: the stack doublewords with their addresses; `none` where one is not inside the image. -/
  | stack (words : List (Nat × Option Word))
  /-- Any other line: an error is reported. -/
  | error (line : CommandLine)
  deriving DecidableEq, Repr

/-- The runtime exceptions (60_exceptions.md R901). -/
inductive Exception where
  /-- At the fetch, the PC is not below `T` or not 4-aligned (R121). -/
  | pcOutOfBounds
  /-- A data read fails the read check (R210). -/
  | badRead
  /-- A data write fails the write check (R211). -/
  | badWrite
  /-- A checked access of 2, 4 or 8 bytes at an address not a multiple of its width (R213). -/
  | misaligned
  /-- Divisor 0 (R703). -/
  | divideByZero
  /-- Signed division of -2^63 by -1 under `DIV_OVF_POLICY = fault` (R704). -/
  | divideOverflow
  /-- The opcode is not assigned (R340). -/
  | illegalInstruction
  deriving DecidableEq, Repr

/-- The ways the machine stops. -/
inductive Fault where
  /-- A runtime exception, raised by an instruction or by the fetch: the run ends with the outcome
  `Fault(code, addr, pc)` (R905). The spec gives the stop, so it is exact (safe). -/
  | exception (e : Exception) (addr pc : Word)
  /-- Raised by the step of a paused machine on the command `q`: the run ends with the outcome `Quit`
  (R964). The spec gives the stop (safe). Log entry 13. -/
  | quit
  /-- Raised by a step from `halted`: the run has already ended with `Exit(v)`, and no step follows
  (R411, R1020). Safe. Log entry 12. -/
  | exited (status : Word)
  /-- Raised by a step from `dispatching` or `retiring`: a step begins only in `fetching` (R150) or at a
  pause (R961), and no step ends in these two states. Safe. Log entry 11. -/
  | noStepFrom (e : EngineState)
  deriving DecidableEq, Repr

/-- The refusals. -/
inductive Refusal where
  /-- The instruction has no meaning in the model yet. Raised by no arm: every row of the opcode table
  has its meaning. Safe. -/
  | notModelled (mnemonic : String)
  deriving DecidableEq, Repr

/-- The machine's state. The fields from `x` to `mem` are the spec's (R100); `cfg` holds the run's
fixed parameters (R8); the rest is the model's record of the host's side (R1021). -/
structure State where
  /-- The general registers (R101). Read and written through `getReg` and `setReg` only. -/
  x : Vector Word 32
  /-- Upper half of a product, or a remainder (R110). -/
  hi : Word
  /-- Lower half of a product, or a quotient (R110). -/
  lo : Word
  /-- The address of the instruction being executed (R120). -/
  pc : Word
  /-- Retired instructions, modulo 2^64 (R135). -/
  cycle : Word
  engine : EngineState
  /-- Single-step is armed (R142). -/
  stepArmed : Bool
  mem : Memory
  /-- The run's fixed parameters (R8). Log entry 1. -/
  cfg : RunConfig
  /-- The host's GETCHAR answers to come, `none` for end of input (R1021). Log entry 9. -/
  input : List (Option Byte)
  /-- The host has answered EOF, and must keep answering it (R1021). -/
  inputEnded : Bool
  /-- The output stream, in program order (R413). -/
  output : List Byte
  /-- The host's command lines to come (R961). Log entry 10. -/
  commands : List CommandLine
  /-- How many free host answers have been drawn. Log entries 9 and 10. -/
  draws : Nat
  /-- What the pause commands have shown, oldest first (R962). -/
  displays : List Display
  /-- The program counters of the instructions the trace has reported, oldest first (R960). Log
  entry 18. -/
  trace : List Word
  deriving DecidableEq, Repr

/-- The register file at reset: GP, FP and SP hold the top of the image, every other register 0 (R106,
R160 under `RESET_FILL = zero`). Log entry 3. -/
def resetRegs (top : Word) : Vector Word 32 :=
  (((Vector.replicate 32 0#64).set Config.gp.val top Config.gp.isLt).set Config.sp.val top
    Config.sp.isLt).set Config.fp.val top Config.fp.isLt

/-- The reset values of R160, over a loaded image (R1000). The host's side is empty. -/
def State.initial (cfg : RunConfig) (mem : Memory) : State :=
  { x := resetRegs (BitVec.ofNat 64 cfg.memSize)
    hi := 0, lo := 0, pc := 0, cycle := 0, engine := .fetching, stepArmed := false
    mem := mem, cfg := cfg
    input := [], inputEnded := false, output := [], commands := [], draws := 0
    displays := [], trace := [] }

/-- The run's parameters that `State.reset` names: an image of 256 bytes with no program loaded, and
`DEBUG` off. DESIGN CHOICE: the spec fixes them at load. Log entry 1. -/
def resetConfig : RunConfig := RunConfig.withDefaults 256 0 0 0 false

/-- The machine right after reset, with no program loaded (R160, R1000). A program is placed by the
loader (`loadContainer`). Log entry 2. -/
def State.reset : State := State.initial resetConfig []

end Sys2Proof.Machine
end

