-- ==== Sys2Proof/Machine/Ops.lean ====
section
/-! DEFINITION. The named operations every meaning is written over: registers, memory and its checks,
raising an exception, the fetch, the retire phase, the stack primitives and the host's console. -/

namespace Sys2Proof.Machine

/-! ## Registers -/

/-- `x[i]` as a value: register 0 always reads as zero (10_state.md R102, 00_scope.md R13). -/
def State.getReg (s : State) (r : Reg) : Word :=
  if r = 0 then 0 else s.x[r.val]

/-- `x[i] <- v`. A write to `x[0]` happens, and the retire phase undoes it (R102, R151).
Log entry 26. -/
def State.setReg (s : State) (r : Reg) (v : Word) : State :=
  { s with x := s.x.set r.val v }

/-- `x[0] <- 0`, the retire phase's forcing (R151). -/
def State.clearX0 (s : State) : State := { s with x := s.x.set 0 0 }

/-- `hi <- h; lo <- l` (R110). -/
def State.setHiLo (s : State) (h l : Word) : State := { s with hi := h, lo := l }

/-- `pc <- v`; only the retire phase uses it (R152). -/
def State.setPc (s : State) (v : Word) : State := { s with pc := v }

/-- `cycle <- cycle + 1`, modulo 2^64 (R135, R153). -/
def State.countRetired (s : State) : State := { s with cycle := s.cycle + 1 }

/-- `engine state <- e` (R140). -/
def State.setEngine (s : State) (e : EngineState) : State := { s with engine := e }

/-- `step_armed <- b` (R142, R962). -/
def State.setStepArmed (s : State) (b : Bool) : State := { s with stepArmed := b }

/-- Replaces the memory image. -/
def State.setMem (s : State) (m : Memory) : State := { s with mem := m }

/-! ## Memory: bytes -/

/-- What an unlisted address reads as: 0, which is what the free range and the unloaded image hold at
reset under `RESET_FILL = zero` (70_reset_and_hazards.md R1001). Log entries 3 and 4. -/
def unlistedByte : Byte := 0

/-- `mem[a]`. -/
def Memory.byte : Memory → Nat → Byte
  | [], _ => unlistedByte
  | (k, b) :: m, a => if a = k then b else Memory.byte m a

/-- Puts an entry before the first entry of a higher address. -/
def Memory.insertCell : Memory → Nat → Byte → Memory
  | [], a, b => [(a, b)]
  | (k, c) :: m, a, b => if a < k then (a, b) :: (k, c) :: m else (k, c) :: Memory.insertCell m a b

/-- `mem[a] <- b`, keeping the canonical form: the value an unlisted address reads as is not listed. -/
def Memory.setByte (m : Memory) (a : Nat) (b : Byte) : Memory :=
  let others := m.filter fun c => c.1 != a
  if b = unlistedByte then others else Memory.insertCell others a b

/-- The canonical form: strictly rising addresses, and no entry equal to what an unlisted address
reads as. -/
def Memory.wf (m : Memory) : Bool :=
  decide (m.Pairwise fun c d => c.1 < d.1) && m.all fun c => c.2 != unlistedByte

/-- `mem[a+n-1] ++ ... ++ mem[a+1] ++ mem[a]`: little-endian (20_memory.md R220, R222). Log
entry 7. -/
def Memory.read (m : Memory) : (a n : Nat) → BitVec (8 * n)
  | _, 0 => 0#0
  | a, n + 1 => Memory.read m (a + 1) n ++ m.byte a

/-- `for i in 0 .. n-1: mem[a+i] <- v[8i+7 : 8i]` (R221, R222). -/
def Memory.write (m : Memory) (a : Nat) (v : Word) : Nat → Memory
  | 0 => m
  | n + 1 => (Memory.write m a v n).setByte (a + n) (v.extractLsb' (8 * n) 8)

/-- A list of bytes at rising addresses from `a`, in canonical form. -/
def Memory.ofBytes : Nat → List Byte → Memory
  | _, [] => []
  | a, b :: bs => if b = unlistedByte then Memory.ofBytes (a + 1) bs else (a, b) :: Memory.ofBytes (a + 1) bs

/-! ## Exceptions

The core has no handler, no vector and no saved registers (60_exceptions.md R900, R905), and no return
from an exception (R906). Taking one is ending the run with the outcome `Fault(code, addr, pc)`. -/

/-- `raise E(addr)` (R905): the report holds the exception, the address and the PC of the faulting
instruction. No register is written, and what the instruction wrote before is not observed (R155). Log
entries 14 and 15. -/
def raise (e : Exception) (addr : Word) (s : State) : Fault := .exception e addr s.pc

/-- `EXC_CODES` at the spec's default (R901, decision D14). -/
def Exception.code : Exception → Nat
  | .pcOutOfBounds => 1
  | .badRead => 2
  | .badWrite => 3
  | .misaligned => 4
  | .divideByZero => 5
  | .divideOverflow => 6
  | .illegalInstruction => 7

/-! ## Memory: checked accesses -/

/-- The read check of R210: `a ≥ T` and `a + n ≤ M`, with an exact sum. -/
def readOk (c : RunConfig) (a n : Nat) : Bool := c.dataStart ≤ a && a + n ≤ c.memSize

/-- A byte that may be written: in data, or above read-only data (R211). -/
def writableByte (c : RunConfig) (b : Nat) : Bool :=
  (c.dataStart ≤ b && b < c.rodataStart) || c.freeStart ≤ b

/-- The write check of R211: `a + n ≤ M`, and every byte of the range may be written. -/
def writeOk (c : RunConfig) (a n : Nat) : Bool :=
  a + n ≤ c.memSize && (List.range n).all fun i => writableByte c (a + i)

/-- The alignment check of R213. -/
def alignOk (c : RunConfig) (a n : Nat) : Bool :=
  match c.alignPolicy with
  | .enforce => a % n == 0
  | .permit => true

/-- R220 `MemRead(addr, n)`: the permission check, then the alignment check (R214), then the bytes. -/
def memRead (s : State) (addr : Word) (n : Nat) : Except Fault (BitVec (8 * n)) :=
  if readOk s.cfg addr.toNat n then
    if alignOk s.cfg addr.toNat n then .ok (s.mem.read addr.toNat n)
    else .error (raise .misaligned addr s)
  else .error (raise .badRead addr s)

/-- R221 `MemWrite(addr, n, v)`: the permission check, then the alignment check (R214), then the low
`8n` bits of `v`. -/
def memWrite (s : State) (addr : Word) (n : Nat) (v : Word) : Except Fault State :=
  if writeOk s.cfg addr.toNat n then
    if alignOk s.cfg addr.toNat n then .ok (s.setMem (s.mem.write addr.toNat v n))
    else .error (raise .misaligned addr s)
  else .error (raise .badWrite addr s)

/-! ## Fetch -/

/-- The PC check of R121: `u(pc) < T` and `u(pc) mod 4 = 0`. -/
def pcOk (c : RunConfig) (pc : Word) : Bool := pc.toNat < c.textSize && pc.toNat % 4 == 0

/-- R225 `Fetch(pc)`: the little-endian word at `pc`. Its only check is the PC check, made before. -/
def fetchWord (s : State) : InstrWord :=
  wordOfBytes (s.mem.byte s.pc.toNat) (s.mem.byte (s.pc.toNat + 1)) (s.mem.byte (s.pc.toNat + 2))
    (s.mem.byte (s.pc.toNat + 3))

/-- The fetch and decode phases of R150: the PC check (R121), the fetch, the decoder, and
`IllegalInstruction` where the opcode is not assigned (R340). -/
def fetchInstr (s : State) : Except Fault Instr :=
  if pcOk s.cfg s.pc then
    match decodeWord (fetchWord s) with
    | .ok i => .ok i
    | .error _ => .error (raise .illegalInstruction s.pc s)
  else .error (raise .pcOutOfBounds s.pc s)

/-! ## The retire phase -/

/-- With `DEBUG = 1` the trace reports one line for the retired instruction (60_exceptions.md R960). Of
the line the model keeps the instruction's PC. Log entry 18. -/
def State.traceRetired (s : State) : State :=
  { s with trace := if s.cfg.debug then s.trace ++ [s.pc] else s.trace }

/-- The retire phase of R150, up to the choice of the next engine state: `x[0] <- 0` (R151),
`cycle <- cycle + 1` (R153), `pc <- next_pc` (R152). -/
def State.retirePhase (s : State) (nextPc : Word) : State :=
  (((s.traceRetired.setEngine .retiring).clearX0).countRetired).setPc nextPc

/-- An instruction other than `brk` and the exiting `int` retires: with `DEBUG = 1` and `step_armed` the
core pauses, otherwise it goes on fetching (R150, R154). -/
def State.retireTo (s : State) (nextPc : Word) : State :=
  (s.retirePhase nextPc).setEngine (if s.cfg.debug && s.stepArmed then .debugPaused else .fetching)

/-- The default successor `pc + 4`, modulo 2^64 (R122, R123). -/
def State.nextPc (s : State) : Word := s.pc + 4

/-- An instruction that does not redirect retires (R122). -/
def State.retireNext (s : State) : State := s.retireTo s.nextPc

/-- The common shape of the instructions that only compute a register: `x[rd] <- v`, then retire. A write
to register 0 is lost (10_state.md R102). -/
def writeReg (s : State) (rd : Reg) (v : Word) : Host.Outcome State Fault Refusal :=
  .next (s.setReg rd v).retireNext

/-- `brk` retires: with `DEBUG = 1` the core pauses, once, whether or not `step_armed` is set (R154). -/
def State.retireBrk (s : State) : State :=
  (s.retirePhase s.nextPc).setEngine (if s.cfg.debug then .debugPaused else .fetching)

/-- The exiting `int` retires, the engine enters `halted`, and `Exit(v)` is reported (41_system.md R411).
It never pauses (R154). -/
def State.retireHalt (s : State) (v : Word) : State :=
  (s.retirePhase s.nextPc).setEngine (.halted v)

/-! ## The stack primitives (48_stack_call.md R750) -/

/-- The address `Push(n, v)` writes at, which is also the SP it leaves: `x[SP] − n`, modulo 2^64. -/
def pushAddr (s : State) (n : Nat) : Word := s.getReg Config.sp - BitVec.ofNat 64 n

/-- `Push(n, v)`: write below SP, then move SP down. -/
def push (s : State) (n : Nat) (v : Word) : Except Fault State :=
  match memWrite s (pushAddr s n) n v with
  | .ok t => .ok (t.setReg Config.sp (pushAddr s n))
  | .error f => .error f

/-- `Pop(n)`: read at SP, then move SP up. -/
def pop (s : State) (n : Nat) : Except Fault (BitVec (8 * n) × State) :=
  match memRead s (s.getReg Config.sp) n with
  | .ok v => .ok (v, s.setReg Config.sp (s.getReg Config.sp + BitVec.ofNat 64 n))
  | .error f => .error f

/-- `Push(8, x[r])` for each register of a list, first to last (R765). -/
def pushRegs : State → List Reg → Except Fault State
  | s, [] => .ok s
  | s, r :: rs =>
    match push s 8 (s.getReg r) with
    | .ok t => pushRegs t rs
    | .error f => .error f

/-- `x[r] <- Pop(8)` for each register of a list, first to last (R766). -/
def popRegs : State → List Reg → Except Fault State
  | s, [] => .ok s
  | s, r :: rs =>
    match pop s 8 with
    | .ok (v, t) => popRegs (t.setReg r v) rs
    | .error f => .error f

/-! ## The host's console (70_reset_and_hazards.md R1021) -/

/-- `HostIn()`: the host's next answer, a byte or `none` for EOF. Once it has answered EOF it keeps
answering EOF. Where the state lists no answer the answer is a free value. Log entry 9. -/
def hostIn (s : State) : Option Byte × State :=
  if s.inputEnded then (none, s)
  else
    match s.input with
    | a :: rest => (a, { s with input := rest, inputEnded := a.isNone })
    | [] =>
      let a := Config.hostAnswer s.draws
      (a, { s with draws := s.draws + 1, inputEnded := a.isNone })

/-- The register value of an answer: `zext_64(b)`, or `EOF_VALUE` (41_system.md R412). -/
def answerWord : Option Byte → Word
  | some b => b.setWidth 64
  | none => Config.eofValue

/-- `HostOut(b)`: append a byte to the output stream (R413). -/
def State.hostOut (s : State) (b : Byte) : State := { s with output := s.output ++ [b] }

/-- The host's next command line at a pause. Where the state lists no line it is a free value. Log
entry 10. -/
def hostLine (s : State) : CommandLine × State :=
  match s.commands with
  | l :: rest => (l, { s with commands := rest })
  | [] => (Config.hostLine s.draws, { s with draws := s.draws + 1 })

/-- The host is shown something at a pause (60_exceptions.md R962). -/
def State.display (s : State) (d : Display) : State := { s with displays := s.displays ++ [d] }

/-! ## Placing an instruction at the fetch -/

/-- The state in which the next step fetches `w`: the word stored at `pc`, text and image large enough to
hold it, the engine fetching. It stands for a load (R1000), not for a store: no protection check is
made. Log entry 2. -/
def placeFetchWord (s : State) (w : InstrWord) : State :=
  let a := s.pc.toNat
  { s with
    mem := s.mem.write a (w.setWidth 64) 4
    cfg := { s.cfg with
      textSize := max s.cfg.textSize (a + 4)
      memSize := max s.cfg.memSize (a + 4) }
    engine := .fetching }

end Sys2Proof.Machine
end

