-- ==== Sys2Proof/Machine/Operands.lean ====
section
/-! DEFINITION. The operand forms: how each instruction widens its immediate, forms its address, its
target and its shift count (30_encoding.md R310 to R312). -/

namespace Sys2Proof.Machine

/-- `sext_64(imm16)`: `addi`, `subi` (R310, R651). -/
def simm (imm : Imm16) : Word := imm.signExtend 64

/-- `zext_64(imm16)`: comparisons, bitwise (R310, R550, R590). -/
def uimm (imm : Imm16) : Word := imm.setWidth 64

/-- `zext_64(imm16) << 16`: `lui` (R310, R500). -/
def luiImm (imm : Imm16) : Word := imm.setWidth 64 <<< 16

/-- `sext_64(w[31:21])`: the byte offset of a load or store (R311). -/
def memOffset (off : Off11) : Word := off.signExtend 64

/-- The effective address `x[rs1] + sext_64(off11)`, modulo 2^64 (42_load_store.md R450). -/
def effAddr (s : State) (rs1 : Reg) (off : Off11) : Word := s.getReg rs1 + memOffset off

/-- The number `TGT_SCALE` (R312). -/
def scaleFactor : TgtScale → Nat
  | .one => 1
  | .four => 4

/-- `zext_64(target24) × TGT_SCALE`: `j`, `call` (R312). -/
def jumpTarget (s : State) (target : Target24) : Word :=
  target.setWidth 64 * BitVec.ofNat 64 (scaleFactor s.cfg.tgtScale)

/-- `zext_64(imm16) × TGT_SCALE`: `beq`, `bne` (R312). -/
def branchTarget (s : State) (imm : Imm16) : Word :=
  imm.setWidth 64 * BitVec.ofNat 64 (scaleFactor s.cfg.tgtScale)

/-- The low `SHIFT_COUNT_BITS` bits of a count operand (45_logic_shift.md R610). -/
def shiftCount {n : Nat} (count : BitVec n) : Nat := count.toNat % 2 ^ Config.shiftCountBits

end Sys2Proof.Machine
end

