-- ==== Sys2Proof/Machine/Flags.lean ====
section
/-! DEFINITION. The core has no flags (10_state.md R130): a comparison writes its 1-bit result into a
general register, and a branch compares two registers. This file holds those relations. -/

namespace Sys2Proof.Machine

/-- `s(a) < s(b)`: `slt`, `slti` (44_compare.md R560, R563). -/
def lessSigned (a b : Word) : Bool := a.toInt < b.toInt

/-- `u(a) < u(b)`: `sltu`, `sltiu` (R561, R564). -/
def lessUnsigned (a b : Word) : Bool := a.toNat < b.toNat

/-- `a == b`, all 64 bits: `seq`, `seqi`, `beq`, `bne` (R562, R565; 49_jump_branch.md R820, R821). -/
def equalWords (a b : Word) : Bool := a == b

/-- `zext_64(c)`, the value a comparison writes (R550). -/
def relationWord (c : Bool) : Word := (BitVec.ofBool c).setWidth 64

end Sys2Proof.Machine
end

