-- ==== Sys2Proof/Machine/Debug.lean ====
section
/-! DEFINITION. The debug pause (60_exceptions.md R960 to R964): one command line a step. -/

namespace Sys2Proof.Machine

/-- The pause commands (R962). -/
inductive DebugCommand where
  | continue
  | singleStep
  | showOpcode
  | showRegisters
  | showStack
  | quit
  | unknown
  deriving DecidableEq, Repr

/-- R962: the command line is compared exactly. -/
def parseCommand (l : CommandLine) : DebugCommand :=
  if l = [] ∨ l = ['c'] then .continue
  else if l = ['s'] then .singleStep
  else if l = ['o', 'p'] then .showOpcode
  else if l = ['r', 'd'] then .showRegisters
  else if l = ['s', 'i'] then .showStack
  else if l = ['q'] then .quit
  else .unknown

/-- `op`: the opcode at the current `pc`, where there is an instruction. Log entry 19. -/
def opcodeDisplay (s : State) : Display :=
  .opcode (if pcOk s.cfg s.pc then some ((fetchWord s).extractLsb' 0 6) else none)

/-- `rd`: the registers as R963 lists them. -/
def registersDisplay (s : State) : Display :=
  .registers (Vector.ofFn fun r : Fin 32 => s.getReg r) s.hi s.lo s.pc s.cycle

/-- `k` doublewords from an address up, read directly, with no protection check (R963); `none` for one
that is not inside the image. -/
def stackWords (s : State) : (a k : Nat) → List (Nat × Option Word)
  | _, 0 => []
  | a, k + 1 =>
    (a, if a + 8 ≤ s.cfg.memSize then some (s.mem.read a 8) else none) :: stackWords s (a + 8) k

/-- `si`: the doublewords that start at or above `x[SP]` and below `x[GP]`; nothing where SP > GP (R962,
R963). Log entry 19. -/
def stackDisplay (s : State) : Display :=
  let sp := (s.getReg Config.sp).toNat
  let gp := (s.getReg Config.gp).toNat
  .stack (stackWords s sp ((gp - sp + 7) / 8))

/-- The run resumes: the engine goes back to fetching at the `pc` the retired instruction set (R961). -/
def resume (s : State) (stepArmed : Bool) : State := (s.setStepArmed stepArmed).setEngine .fetching

/-- One command line of a paused machine acted on (R962). A display leaves the machine paused. -/
def actOnCommand (l : CommandLine) (s : State) : Host.Outcome State Fault Refusal :=
  match parseCommand l with
  | .continue => .next (resume s false)
  | .singleStep => .next (resume s true)
  | .showOpcode => .next (s.display (opcodeDisplay s))
  | .showRegisters => .next (s.display (registersDisplay s))
  | .showStack => .next (s.display (stackDisplay s))
  | .quit => .fault .quit
  | .unknown => .next (s.display (.error l))

/-- The step of a paused machine: read one command line from the host and act on it (R961). Log
entry 10. -/
def pauseStep (s : State) : Host.Outcome State Fault Refusal :=
  let line := hostLine s
  actOnCommand line.1 line.2

end Sys2Proof.Machine
end

