-- ==== Sys2Proof/Machine/Arith.lean ====
section
/-! DEFINITION. Add and subtract (46_arith.md), modulo 2^64, with no flag and no trap (R650). -/

namespace Sys2Proof.Machine

/-- R660. -/
def execAdd (rd rs1 rs2 : Reg) (s : State) : Host.Outcome State Fault Refusal :=
  writeReg s rd (s.getReg rs1 + s.getReg rs2)

/-- R661. -/
def execSub (rd rs1 rs2 : Reg) (s : State) : Host.Outcome State Fault Refusal :=
  writeReg s rd (s.getReg rs1 - s.getReg rs2)

/-- R662. -/
def execAddi (rd rs1 : Reg) (imm : Imm16) (s : State) : Host.Outcome State Fault Refusal :=
  writeReg s rd (s.getReg rs1 + simm imm)

/-- R663. -/
def execSubi (rd rs1 : Reg) (imm : Imm16) (s : State) : Host.Outcome State Fault Refusal :=
  writeReg s rd (s.getReg rs1 - simm imm)

end Sys2Proof.Machine
end

