-- ==== Sys2Proof/Machine/Compare.lean ====
section
/-! DEFINITION. Comparisons (44_compare.md): 1 where the relation holds, else 0 (R550). -/

namespace Sys2Proof.Machine

/-- R560. -/
def execSlt (rd rs1 rs2 : Reg) (s : State) : Host.Outcome State Fault Refusal :=
  writeReg s rd (relationWord (lessSigned (s.getReg rs1) (s.getReg rs2)))

/-- R561. -/
def execSltu (rd rs1 rs2 : Reg) (s : State) : Host.Outcome State Fault Refusal :=
  writeReg s rd (relationWord (lessUnsigned (s.getReg rs1) (s.getReg rs2)))

/-- R562. -/
def execSeq (rd rs1 rs2 : Reg) (s : State) : Host.Outcome State Fault Refusal :=
  writeReg s rd (relationWord (equalWords (s.getReg rs1) (s.getReg rs2)))

/-- R563. -/
def execSlti (rd rs1 : Reg) (imm : Imm16) (s : State) : Host.Outcome State Fault Refusal :=
  writeReg s rd (relationWord (lessSigned (s.getReg rs1) (uimm imm)))

/-- R564. -/
def execSltiu (rd rs1 : Reg) (imm : Imm16) (s : State) : Host.Outcome State Fault Refusal :=
  writeReg s rd (relationWord (lessUnsigned (s.getReg rs1) (uimm imm)))

/-- R565. -/
def execSeqi (rd rs1 : Reg) (imm : Imm16) (s : State) : Host.Outcome State Fault Refusal :=
  writeReg s rd (relationWord (equalWords (s.getReg rs1) (uimm imm)))

end Sys2Proof.Machine
end

