-- ==== Sys2Proof/Machine/Jump.lean ====
section
/-! DEFINITION. Jumps and branches (49_jump_branch.md). A target is not checked here: a bad one faults at the next
fetch (R800). -/

namespace Sys2Proof.Machine

/-- R810. -/
def execJ (target : Target24) (s : State) : Host.Outcome State Fault Refusal :=
  .next (s.retireTo (jumpTarget s target))

/-- R811. -/
def execJr (rd : Reg) (s : State) : Host.Outcome State Fault Refusal :=
  .next (s.retireTo (s.getReg rd))

/-- R820. -/
def execBeq (rd rs1 : Reg) (imm : Imm16) (s : State) : Host.Outcome State Fault Refusal :=
  .next (s.retireTo (if equalWords (s.getReg rd) (s.getReg rs1) then branchTarget s imm else s.nextPc))

/-- R821. -/
def execBne (rd rs1 : Reg) (imm : Imm16) (s : State) : Host.Outcome State Fault Refusal :=
  .next (s.retireTo (if equalWords (s.getReg rd) (s.getReg rs1) then s.nextPc else branchTarget s imm))

end Sys2Proof.Machine
end

