-- ==== Sys2Proof/Machine/LoadStore.lean ====
section
/-! DEFINITION. Loads and stores (42_load_store.md), over one load and one store operation. -/

namespace Sys2Proof.Machine

/-- R451: a load of `n` bytes, widened as `widen` says. The register is written only if the read
succeeds. -/
def loadWith (n : Nat) (widen : BitVec (8 * n) → Word) (rd rs1 : Reg) (off : Off11) (s : State) :
    Host.Outcome State Fault Refusal :=
  match memRead s (effAddr s rs1 off) n with
  | .ok v => .next (s.setReg rd (widen v)).retireNext
  | .error f => .fault f

/-- R452: a store of the low `n` bytes of `x[rd]`. No register changes. -/
def storeWidth (n : Nat) (rd rs1 : Reg) (off : Off11) (s : State) : Host.Outcome State Fault Refusal :=
  match memWrite s (effAddr s rs1 off) n (s.getReg rd) with
  | .ok t => .next t.retireNext
  | .error f => .fault f

/-- R460. -/
def execLb (rd rs1 : Reg) (off : Off11) (s : State) : Host.Outcome State Fault Refusal :=
  loadWith 1 (BitVec.signExtend 64) rd rs1 off s

/-- R461. -/
def execLbu (rd rs1 : Reg) (off : Off11) (s : State) : Host.Outcome State Fault Refusal :=
  loadWith 1 (BitVec.setWidth 64) rd rs1 off s

/-- R462. -/
def execLh (rd rs1 : Reg) (off : Off11) (s : State) : Host.Outcome State Fault Refusal :=
  loadWith 2 (BitVec.signExtend 64) rd rs1 off s

/-- R463. -/
def execLhu (rd rs1 : Reg) (off : Off11) (s : State) : Host.Outcome State Fault Refusal :=
  loadWith 2 (BitVec.setWidth 64) rd rs1 off s

/-- R464. -/
def execLw (rd rs1 : Reg) (off : Off11) (s : State) : Host.Outcome State Fault Refusal :=
  loadWith 4 (BitVec.signExtend 64) rd rs1 off s

/-- R465. -/
def execLwu (rd rs1 : Reg) (off : Off11) (s : State) : Host.Outcome State Fault Refusal :=
  loadWith 4 (BitVec.setWidth 64) rd rs1 off s

/-- R466. -/
def execLd (rd rs1 : Reg) (off : Off11) (s : State) : Host.Outcome State Fault Refusal :=
  loadWith 8 (BitVec.setWidth 64) rd rs1 off s

/-- R470. -/
def execSb (rd rs1 : Reg) (off : Off11) (s : State) : Host.Outcome State Fault Refusal :=
  storeWidth 1 rd rs1 off s

/-- R471. -/
def execSh (rd rs1 : Reg) (off : Off11) (s : State) : Host.Outcome State Fault Refusal :=
  storeWidth 2 rd rs1 off s

/-- R472. -/
def execSw (rd rs1 : Reg) (off : Off11) (s : State) : Host.Outcome State Fault Refusal :=
  storeWidth 4 rd rs1 off s

/-- R473. -/
def execSd (rd rs1 : Reg) (off : Off11) (s : State) : Host.Outcome State Fault Refusal :=
  storeWidth 8 rd rs1 off s

end Sys2Proof.Machine
end

