-- ==== Sys2Proof/Machine/Logic.lean ====
section
/-! DEFINITION. Bitwise operations and shifts (45_logic_shift.md). -/

namespace Sys2Proof.Machine

/-- R600. -/
def execOr (rd rs1 rs2 : Reg) (s : State) : Host.Outcome State Fault Refusal :=
  writeReg s rd (s.getReg rs1 ||| s.getReg rs2)

/-- R601. -/
def execAnd (rd rs1 rs2 : Reg) (s : State) : Host.Outcome State Fault Refusal :=
  writeReg s rd (s.getReg rs1 &&& s.getReg rs2)

/-- R602. -/
def execXor (rd rs1 rs2 : Reg) (s : State) : Host.Outcome State Fault Refusal :=
  writeReg s rd (s.getReg rs1 ^^^ s.getReg rs2)

/-- R603. -/
def execNor (rd rs1 rs2 : Reg) (s : State) : Host.Outcome State Fault Refusal :=
  writeReg s rd (~~~(s.getReg rs1 ||| s.getReg rs2))

/-- R604. -/
def execOri (rd rs1 : Reg) (imm : Imm16) (s : State) : Host.Outcome State Fault Refusal :=
  writeReg s rd (s.getReg rs1 ||| uimm imm)

/-- R605. -/
def execAndi (rd rs1 : Reg) (imm : Imm16) (s : State) : Host.Outcome State Fault Refusal :=
  writeReg s rd (s.getReg rs1 &&& uimm imm)

/-- R606. -/
def execXori (rd rs1 : Reg) (imm : Imm16) (s : State) : Host.Outcome State Fault Refusal :=
  writeReg s rd (s.getReg rs1 ^^^ uimm imm)

/-- R607. -/
def execNori (rd rs1 : Reg) (imm : Imm16) (s : State) : Host.Outcome State Fault Refusal :=
  writeReg s rd (~~~(s.getReg rs1 ||| uimm imm))

/-- R620. -/
def execSll (rd rs1 rs2 : Reg) (s : State) : Host.Outcome State Fault Refusal :=
  writeReg s rd (s.getReg rs1 <<< shiftCount (s.getReg rs2))

/-- R621. -/
def execSrl (rd rs1 rs2 : Reg) (s : State) : Host.Outcome State Fault Refusal :=
  writeReg s rd (s.getReg rs1 >>> shiftCount (s.getReg rs2))

/-- R622. -/
def execSlli (rd rs1 : Reg) (imm : Imm16) (s : State) : Host.Outcome State Fault Refusal :=
  writeReg s rd (s.getReg rs1 <<< shiftCount imm)

/-- R623. -/
def execSrli (rd rs1 : Reg) (imm : Imm16) (s : State) : Host.Outcome State Fault Refusal :=
  writeReg s rd (s.getReg rs1 >>> shiftCount imm)

end Sys2Proof.Machine
end

