-- ==== Sys2Proof/Machine/Moves.lean ====
section
/-! DEFINITION. Moves (43_moves.md): `lui`, `mov`, `mfhi`, `mflo`. -/

namespace Sys2Proof.Machine

/-- R500. -/
def execLui (rd : Reg) (imm : Imm16) (s : State) : Host.Outcome State Fault Refusal :=
  writeReg s rd (luiImm imm)

/-- R501. -/
def execMov (rd rs1 : Reg) (s : State) : Host.Outcome State Fault Refusal :=
  writeReg s rd (s.getReg rs1)

/-- R502. -/
def execMfhi (rd : Reg) (s : State) : Host.Outcome State Fault Refusal :=
  writeReg s rd s.hi

/-- R503. -/
def execMflo (rd : Reg) (s : State) : Host.Outcome State Fault Refusal :=
  writeReg s rd s.lo

end Sys2Proof.Machine
end

