-- ==== Sys2Proof/Machine/MulDiv.lean ====
section
/-! DEFINITION. Widening multiply and divide (47_muldiv.md). The operands are `a = x[rd]` and `b = x[rs1]`; only
`hi` and `lo` are written (R700). -/

namespace Sys2Proof.Machine

/-- Bits 127:64 of a product into `hi`, bits 63:0 into `lo` (R701). The division rounds down, which is the
arithmetic shift of R711. -/
def writeProduct (s : State) (p : Int) : State :=
  s.setHiLo (BitVec.ofInt 64 (p / 2 ^ 64)) (BitVec.ofInt 64 p)

/-- The quotient of R721, rounded toward zero: `sign(a) · sign(b) · (|a| div |b|)`. -/
def signedQuotient (a b : Int) : Int := a.sign * b.sign * ((a.natAbs / b.natAbs : Nat) : Int)

/-- The remainder of R721: `a − q · b`. -/
def signedRemainder (a b : Int) : Int := a - signedQuotient a b * b

/-- The one signed division whose quotient does not fit: -2^63 by -1 (R704). -/
def divOverflows (a b : Word) : Bool := a.toInt == -2 ^ 63 && b.toInt == -1

/-- R710. -/
def execMulu (rd rs1 : Reg) (s : State) : Host.Outcome State Fault Refusal :=
  .next (writeProduct s ((s.getReg rd).toNat * (s.getReg rs1).toNat : Nat)).retireNext

/-- R711. -/
def execMul (rd rs1 : Reg) (s : State) : Host.Outcome State Fault Refusal :=
  .next (writeProduct s ((s.getReg rd).toInt * (s.getReg rs1).toInt)).retireNext

/-- R720, with the zero check of R703. -/
def execDivu (rd rs1 : Reg) (s : State) : Host.Outcome State Fault Refusal :=
  let a := s.getReg rd
  let b := s.getReg rs1
  if b = 0 then .fault (raise .divideByZero s.pc s)
  else .next (s.setHiLo (BitVec.ofNat 64 (a.toNat % b.toNat)) (BitVec.ofNat 64 (a.toNat / b.toNat))).retireNext

/-- R721: the zero check, then the overflow check of R704, then the truncating division. -/
def execDiv (rd rs1 : Reg) (s : State) : Host.Outcome State Fault Refusal :=
  let a := s.getReg rd
  let b := s.getReg rs1
  if b = 0 then .fault (raise .divideByZero s.pc s)
  else if divOverflows a b then
    match s.cfg.divOvfPolicy with
    | .fault => .fault (raise .divideOverflow s.pc s)
    | .wrap => .next (s.setHiLo 0 (BitVec.ofNat 64 (2 ^ 63))).retireNext
  else
    .next (s.setHiLo (BitVec.ofInt 64 (signedRemainder a.toInt b.toInt))
      (BitVec.ofInt 64 (signedQuotient a.toInt b.toInt))).retireNext

end Sys2Proof.Machine
end

