-- ==== Sys2Proof/Machine/Stack.lean ====
section
/-! DEFINITION. Stack, call and return (48_stack_call.md), over the primitives of R750. -/

namespace Sys2Proof.Machine

/-- Push the low `n` bytes of a register (R751, R752). The value is read before SP moves. -/
def pushWidth (n : Nat) (rd : Reg) (s : State) : Host.Outcome State Fault Refusal :=
  match push s n (s.getReg rd) with
  | .ok t => .next t.retireNext
  | .error f => .fault f

/-- Pop `n` bytes into a register (R753, R754). The register is written after SP moves. -/
def popWidth (n : Nat) (rd : Reg) (s : State) : Host.Outcome State Fault Refusal :=
  match pop s n with
  | .ok (v, t) => .next (t.setReg rd (v.signExtend 64)).retireNext
  | .error f => .fault f

/-- The part of `call` before the callee-saved registers: RA and FP are pushed, RA gets the address of
the call, FP the new stack top (R765). -/
def callLink (s : State) : Except Fault State :=
  match push s 8 (s.getReg Config.ra) with
  | .error f => .error f
  | .ok s1 =>
    match push s1 8 (s1.getReg Config.fp) with
    | .error f => .error f
    | .ok s2 =>
      let s3 := s2.setReg Config.ra s2.pc
      .ok (s3.setReg Config.fp (s3.getReg Config.sp))

/-- The part of `ret` after the callee-saved registers: FP and RA are popped (R766). -/
def retUnlink (s : State) : Except Fault State :=
  match pop s 8 with
  | .error f => .error f
  | .ok (v, s1) =>
    match pop (s1.setReg Config.fp v) 8 with
    | .error f => .error f
    | .ok (w, s2) => .ok (s2.setReg Config.ra w)

/-- R751. -/
def execPush (rd : Reg) (s : State) : Host.Outcome State Fault Refusal :=
  pushWidth 8 rd s

/-- R752. -/
def execPushw (rd : Reg) (s : State) : Host.Outcome State Fault Refusal :=
  pushWidth 4 rd s

/-- R753. Eight bytes fill the register, so the extension is the identity. -/
def execPop (rd : Reg) (s : State) : Host.Outcome State Fault Refusal :=
  popWidth 8 rd s

/-- R754. -/
def execPopw (rd : Reg) (s : State) : Host.Outcome State Fault Refusal :=
  popWidth 4 rd s

/-- R765. The ten accesses are made in order, and the first that fails is reported (60_exceptions.md R903). -/
def execCall (target : Target24) (s : State) : Host.Outcome State Fault Refusal :=
  match callLink s with
  | .error f => .fault f
  | .ok t =>
    match pushRegs t Config.calleeSaved with
    | .error f => .fault f
    | .ok u => .next (u.retireTo (jumpTarget s target))

/-- R766. The target is read from RA as the callee left it, before RA is restored. -/
def execRet (s : State) : Host.Outcome State Fault Refusal :=
  match popRegs s Config.calleeSaved.reverse with
  | .error f => .fault f
  | .ok t =>
    match retUnlink t with
    | .error f => .fault f
    | .ok u => .next (u.retireTo (t.getReg Config.ra + 4))

end Sys2Proof.Machine
end

