-- ==== Sys2Proof/Machine/System.lean ====
section
/-! DEFINITION. System instructions (41_system.md): `nop`, `int`, `brk`. -/

namespace Sys2Proof.Machine

/-- R400. -/
def execNop (s : State) : Host.Outcome State Fault Refusal := .next s.retireNext

/-- `int` with SEL = EXIT: the engine halts with `x[ARG]` (R411). -/
def syscallExit (s : State) : State := s.retireHalt (s.getReg Config.arg)

/-- `int` with SEL = GETCHAR: the host's answer goes to `x[ARG]` (R412). -/
def syscallGetchar (s : State) : State :=
  let answer := hostIn s
  (answer.2.setReg Config.arg (answerWord answer.1)).retireNext

/-- `int` with SEL = PUTCHAR: `x[ARG][7:0]` goes to the output stream (R413). -/
def syscallPutchar (s : State) : State :=
  (s.hostOut ((s.getReg Config.arg).extractLsb' 0 8)).retireNext

/-- R410: the selector is compared as a full 64-bit value, and any other value is a no-op (R414). -/
def execInt (s : State) : Host.Outcome State Fault Refusal :=
  let selector := (s.getReg Config.sel).toNat
  if selector = Config.sysExit then .next (syscallExit s)
  else if selector = Config.sysGetchar then .next (syscallGetchar s)
  else if selector = Config.sysPutchar then .next (syscallPutchar s)
  else .next s.retireNext

/-- R420: no effect of its own; the retire phase pauses the core when `DEBUG = 1` (R154). -/
def execBrk (s : State) : Host.Outcome State Fault Refusal := .next s.retireBrk

end Sys2Proof.Machine
end

