-- ==== Sys2Proof/Machine/Dispatch.lean ====
section
/-! DEFINITION. exec: one arm per instruction, each a direct call of its meaning. -/

namespace Sys2Proof.Machine

def exec (i : Instr) (s : State) : Host.Outcome State Fault Refusal :=
  match i with
  | .nop => Sys2Proof.Machine.execNop s
  | .int => Sys2Proof.Machine.execInt s
  | .brk => Sys2Proof.Machine.execBrk s
  | .lb rd rs1 off => Sys2Proof.Machine.execLb rd rs1 off s
  | .lbu rd rs1 off => Sys2Proof.Machine.execLbu rd rs1 off s
  | .lh rd rs1 off => Sys2Proof.Machine.execLh rd rs1 off s
  | .lhu rd rs1 off => Sys2Proof.Machine.execLhu rd rs1 off s
  | .lw rd rs1 off => Sys2Proof.Machine.execLw rd rs1 off s
  | .lwu rd rs1 off => Sys2Proof.Machine.execLwu rd rs1 off s
  | .ld rd rs1 off => Sys2Proof.Machine.execLd rd rs1 off s
  | .sb rd rs1 off => Sys2Proof.Machine.execSb rd rs1 off s
  | .sh rd rs1 off => Sys2Proof.Machine.execSh rd rs1 off s
  | .sw rd rs1 off => Sys2Proof.Machine.execSw rd rs1 off s
  | .sd rd rs1 off => Sys2Proof.Machine.execSd rd rs1 off s
  | .lui rd imm => Sys2Proof.Machine.execLui rd imm s
  | .mov rd rs1 => Sys2Proof.Machine.execMov rd rs1 s
  | .mfhi rd => Sys2Proof.Machine.execMfhi rd s
  | .mflo rd => Sys2Proof.Machine.execMflo rd s
  | .slt rd rs1 rs2 => Sys2Proof.Machine.execSlt rd rs1 rs2 s
  | .sltu rd rs1 rs2 => Sys2Proof.Machine.execSltu rd rs1 rs2 s
  | .seq rd rs1 rs2 => Sys2Proof.Machine.execSeq rd rs1 rs2 s
  | .slti rd rs1 imm => Sys2Proof.Machine.execSlti rd rs1 imm s
  | .sltiu rd rs1 imm => Sys2Proof.Machine.execSltiu rd rs1 imm s
  | .seqi rd rs1 imm => Sys2Proof.Machine.execSeqi rd rs1 imm s
  | .or rd rs1 rs2 => Sys2Proof.Machine.execOr rd rs1 rs2 s
  | .and rd rs1 rs2 => Sys2Proof.Machine.execAnd rd rs1 rs2 s
  | .xor rd rs1 rs2 => Sys2Proof.Machine.execXor rd rs1 rs2 s
  | .nor rd rs1 rs2 => Sys2Proof.Machine.execNor rd rs1 rs2 s
  | .ori rd rs1 imm => Sys2Proof.Machine.execOri rd rs1 imm s
  | .andi rd rs1 imm => Sys2Proof.Machine.execAndi rd rs1 imm s
  | .xori rd rs1 imm => Sys2Proof.Machine.execXori rd rs1 imm s
  | .nori rd rs1 imm => Sys2Proof.Machine.execNori rd rs1 imm s
  | .sll rd rs1 rs2 => Sys2Proof.Machine.execSll rd rs1 rs2 s
  | .srl rd rs1 rs2 => Sys2Proof.Machine.execSrl rd rs1 rs2 s
  | .slli rd rs1 imm => Sys2Proof.Machine.execSlli rd rs1 imm s
  | .srli rd rs1 imm => Sys2Proof.Machine.execSrli rd rs1 imm s
  | .add rd rs1 rs2 => Sys2Proof.Machine.execAdd rd rs1 rs2 s
  | .sub rd rs1 rs2 => Sys2Proof.Machine.execSub rd rs1 rs2 s
  | .addi rd rs1 imm => Sys2Proof.Machine.execAddi rd rs1 imm s
  | .subi rd rs1 imm => Sys2Proof.Machine.execSubi rd rs1 imm s
  | .mul rd rs1 => Sys2Proof.Machine.execMul rd rs1 s
  | .mulu rd rs1 => Sys2Proof.Machine.execMulu rd rs1 s
  | .div rd rs1 => Sys2Proof.Machine.execDiv rd rs1 s
  | .divu rd rs1 => Sys2Proof.Machine.execDivu rd rs1 s
  | .push rd => Sys2Proof.Machine.execPush rd s
  | .pushw rd => Sys2Proof.Machine.execPushw rd s
  | .pop rd => Sys2Proof.Machine.execPop rd s
  | .popw rd => Sys2Proof.Machine.execPopw rd s
  | .call target => Sys2Proof.Machine.execCall target s
  | .ret => Sys2Proof.Machine.execRet s
  | .j target => Sys2Proof.Machine.execJ target s
  | .jr rd => Sys2Proof.Machine.execJr rd s
  | .beq rd rs1 imm => Sys2Proof.Machine.execBeq rd rs1 imm s
  | .bne rd rs1 imm => Sys2Proof.Machine.execBne rd rs1 imm s

end Sys2Proof.Machine
end

