-- ==== Sys2Proof/Machine/Step.lean ====
section
/-! DEFINITION. One step of the machine (10_state.md R150), and the placing of an instruction where the
step fetches. -/

namespace Sys2Proof.Machine

/-- R150: a fetching machine fetches, decodes and executes one instruction; a paused machine takes one
command line (60_exceptions.md R961); a halted machine has no step (R140). The states inside a step are
not the start of one (log entry 11). The phases inside a step are not visible (log entry 24). -/
def step (s : State) : Host.Outcome State Fault Refusal :=
  match s.engine with
  | .fetching =>
    match fetchInstr s with
    | .ok i => exec i (s.setEngine .dispatching)
    | .error f => .fault f
  | .debugPaused => pauseStep s
  | .halted v => .fault (.exited v)
  | .dispatching => .fault (.noStepFrom .dispatching)
  | .retiring => .fault (.noStepFrom .retiring)

/-- `s` with the `nbits` bits of `w` (zeros above) stored as the instruction word at `pc`, where the next
step fetches. Log entry 2. -/
def State.withFetchWord (s : State) (nbits w : Nat) : State :=
  placeFetchWord s (BitVec.ofNat 32 (w % 2 ^ nbits))

end Sys2Proof.Machine
end

