-- ==== Sys2Proof/Machine/Loader.lean ====
section
/-! DEFINITION. The loader's contract: the container layout, its checks, and the reset image it makes
(70_reset_and_hazards.md R1000 to R1005). The loader runs before the first step; no step calls it. -/

namespace Sys2Proof.Machine

/-- Why a container is refused. Any of them is the one outcome `LoadError` (R1005); the names say which
check of R1004 failed. Log entry 21. -/
inductive LoadError where
  /-- R1004 (a). -/
  | badMagic
  /-- R1004 (b): a field or byte string the header announces is not there. -/
  | truncated
  /-- R1004 (c). -/
  | textNotWhole
  /-- R1004 (d). -/
  | noHeadroom
  /-- R1004 (e). -/
  | zonesDoNotFit
  /-- R1004 (f). -/
  | topNotAligned
  /-- The memory budget is 2^64 or more, which R123 excludes. Log entry 20. -/
  | notAddressable
  deriving DecidableEq, Repr

/-- A function record of the symbol table (R1003). It feeds only the trace (60_exceptions.md R960). -/
structure FunctionRecord where
  address : Word
  name : List Byte
  deriving DecidableEq, Repr

/-- What a container holds after its magic value (R1003). -/
structure Container where
  records : List FunctionRecord
  text : List Byte
  data : List Byte
  rodata : List Byte
  deriving DecidableEq, Repr

/-- An unsigned little-endian integer (R1003). -/
def natOfBytes : List Byte → Nat
  | [] => 0
  | b :: bs => b.toNat + 256 * natOfBytes bs

/-- The first `n` bytes and the rest, or `truncated`. -/
def takeBytes (n : Nat) (bs : List Byte) : Except LoadError (List Byte × List Byte) :=
  if n ≤ bs.length then .ok (bs.take n, bs.drop n) else .error .truncated

/-- A 64-bit field and the rest (R1003). -/
def takeField (bs : List Byte) : Except LoadError (Nat × List Byte) :=
  match takeBytes 8 bs with
  | .ok (f, rest) => .ok (natOfBytes f, rest)
  | .error e => .error e

/-- One function record: address, name length, name (R1003). -/
def takeRecord (bs : List Byte) : Except LoadError (FunctionRecord × List Byte) := do
  let (address, bs) ← takeField bs
  let (length, bs) ← takeField bs
  let (name, bs) ← takeBytes length bs
  .ok ({ address := BitVec.ofNat 64 address, name }, bs)

/-- A number of function records (R1003). -/
def takeRecords : Nat → List Byte → Except LoadError (List FunctionRecord × List Byte)
  | 0, bs => .ok ([], bs)
  | k + 1, bs => do
    let (r, bs) ← takeRecord bs
    let (rs, bs) ← takeRecords k bs
    .ok (r :: rs, bs)

/-- The container layout of R1003, with the magic check R1004 (a) and the truncation check R1004 (b).
Bytes after the last announced one are not looked at. -/
def parseContainer (bs : List Byte) : Except LoadError Container := do
  let (magic, bs) ← takeField bs
  if magic = Config.containerMagic.toNat then
    let (functionCount, bs) ← takeField bs
    let (textSize, bs) ← takeField bs
    let (dataSize, bs) ← takeField bs
    let (rodataSize, bs) ← takeField bs
    let (records, bs) ← takeRecords functionCount bs
    let (text, bs) ← takeBytes textSize bs
    let (data, bs) ← takeBytes dataSize bs
    let (rodata, _) ← takeBytes rodataSize bs
    .ok { records, text, data, rodata }
  else .error .badMagic

/-- The bytes of an unsigned little-endian 64-bit field (R1003). -/
def fieldBytes (n : Nat) : List Byte := (List.range 8).map fun i => BitVec.ofNat 8 (n / 256 ^ i)

/-- A function record as bytes (R1003). -/
def recordBytes (r : FunctionRecord) : List Byte :=
  fieldBytes r.address.toNat ++ fieldBytes r.name.length ++ r.name

/-- A container as bytes, in the layout of R1003. -/
def containerBytes (c : Container) : List Byte :=
  fieldBytes Config.containerMagic.toNat ++ fieldBytes c.records.length ++ fieldBytes c.text.length
    ++ fieldBytes c.data.length ++ fieldBytes c.rodata.length ++ c.records.flatMap recordBytes
    ++ c.text ++ c.data ++ c.rodata

/-- Every length fits its 64-bit field (R1003). -/
def Container.fits (c : Container) : Bool :=
  c.records.length < 2 ^ 64 && c.records.all (fun r => r.name.length < 2 ^ 64)
    && c.text.length < 2 ^ 64 && c.data.length < 2 ^ 64 && c.rodata.length < 2 ^ 64

/-- The run's parameters for a container: the budget, the debug flag and the policies as configured, the
zone sizes from the container (R8, R1002). -/
def configFor (params : RunConfig) (c : Container) : RunConfig :=
  { params with textSize := c.text.length, dataSize := c.data.length, rodataSize := c.rodata.length }

/-- The size checks R1004 (c) to (f), and R123's bound on `M`. -/
def checkLayout (c : RunConfig) : Except LoadError Unit :=
  if !c.textWhole then .error .textNotWhole
  else if !c.headroom then .error .noHeadroom
  else if !c.zonesFit then .error .zonesDoNotFit
  else if !c.topAligned then .error .topNotAligned
  else if !c.addressable then .error .notAddressable
  else .ok ()

/-- The memory image of R1001: text, data and rodata from address 0, and 0 above them. -/
def imageOf (c : Container) : Memory := Memory.ofBytes 0 (c.text ++ c.data ++ c.rodata)

/-- R1000: the container is checked and the image built, and the core's state takes its reset values; or
the run ends with `LoadError` and no instruction executes (R1005). -/
def loadContainer (params : RunConfig) (bytes : List Byte) : Except LoadError State := do
  let c ← parseContainer bytes
  checkLayout (configFor params c)
  .ok (State.initial (configFor params c) (imageOf c))

end Sys2Proof.Machine
end

