-- ==== Sys2Proof/Safety.lean ====
section
/-! DEFINITION. What claims are stated in: the outcomes of a run (70_reset_and_hazards.md R1020), the
states a run reaches, the invariant of the machine, and what a safe run is. -/

namespace Sys2Proof.Machine

/-- The outcomes a run can end in (R1020). -/
inductive RunOutcome where
  | loadError
  /-- `Exit(v)`: the 64-bit value of ARG (R411, R1022). -/
  | exit (v : Word)
  /-- `Fault(code, addr, pc)` (R905). -/
  | fault (code : Nat) (addr pc : Word)
  | quit
  deriving DecidableEq, Repr

/-- The outcome with which a step ends the run, if it does (R1020). The exiting `int` ends the run in the
state it leaves. -/
def runOutcome : Host.Outcome State Fault Refusal → Option RunOutcome
  | .next t =>
    match t.engine with
    | .halted v => some (.exit v)
    | _ => none
  | .fault (.exception e addr pc) => some (.fault e.code addr pc)
  | .fault .quit => some .quit
  | .fault (.exited v) => some (.exit v)
  | .fault (.noStepFrom _) => none
  | .refused _ => none

/-- A run of at most `k` steps: its outcome and the last state, or no outcome yet. -/
def runFrom : Nat → State → Option RunOutcome × State
  | 0, s => (none, s)
  | k + 1, s =>
    match step s with
    | .next t =>
      match runOutcome (.next t) with
      | some o => (some o, t)
      | none => runFrom k t
    | stop => (runOutcome stop, s)

/-- A run from a container: `LoadError`, or the run from the loaded state (R1000, R1005). -/
def runContainer (k : Nat) (params : RunConfig) (bytes : List Byte) : Option RunOutcome :=
  match loadContainer params bytes with
  | .error _ => some .loadError
  | .ok s => (runFrom k s).1

/-- The states reached from a state by steps. -/
inductive Reaches : State → State → Prop where
  | refl (s : State) : Reaches s s
  | step {s t u : State} : Reaches s t → step t = .next u → Reaches s u

/-- The invariant of the machine between two steps: register 0 is 0 (R103), the engine is in a state a
step ends in (R150), a pause needs `DEBUG` (R154), an armed single-step needs `DEBUG` (R142, R962), the
memory has its canonical form and lies inside the image (R200), and the layout is one the loader
accepts (R1004). -/
structure Invariant (s : State) : Prop where
  zero_register : s.x[0] = 0
  engine_between : s.engine ≠ .dispatching ∧ s.engine ≠ .retiring
  pause_debug : s.engine = .debugPaused → s.cfg.debug = true
  armed_debug : s.stepArmed = true → s.cfg.debug = true
  memory_canonical : s.mem.wf = true
  memory_inside : ∀ a, s.cfg.memSize ≤ a → s.mem.byte a = 0
  layout : s.cfg.wf = true

/-- A safe step: it raises no runtime exception. -/
def SafeStep (s : State) : Prop := ∀ e addr pc, step s ≠ .fault (.exception e addr pc)

/-- A safe run: no state it reaches raises a runtime exception. -/
def SafeRun (s : State) : Prop := ∀ t, Reaches s t → SafeStep t

end Sys2Proof.Machine
end

