-- ==== Sys2Proof/Certificates/Slice0/Obligations.lean ====
section
/-! DEFINITION. The statements for the provers. Each follows a numbered rule of spec/, or says in its
docstring that it states a choice of the model and names the log entry.

The statements about instructions are written over the vocabulary of the first section, in the spec's own
terms: exact integers, single bytes of memory, registers read through `getReg`. -/

namespace Sys2Proof.Claims

open Sys2Proof.Machine

/-! ## Vocabulary -/

/-- R320 with R303: every word whose opcode field is `op` decodes to this instruction of its fields,
whatever its other bits are. -/
def Selects (op : Nat) (i : Fields → Instr) : Prop :=
  ∀ w : InstrWord, (fieldsOf w).op.toNat = op → decodeWord w = .ok (i (fieldsOf w))

/-- What retiring with successor `next` does (R150 to R154), and what no instruction changes. -/
structure Retired (s t : State) (next : Word) : Prop where
  pc : t.pc = next
  cycle : t.cycle = s.cycle + 1
  zero_register : t.x[0] = 0
  engine : t.engine = if s.cfg.debug = true ∧ s.stepArmed = true then .debugPaused else .fetching
  stepArmed : t.stepArmed = s.stepArmed
  cfg : t.cfg = s.cfg

/-- The host's side is as before. -/
structure SameHost (s t : State) : Prop where
  input : t.input = s.input
  inputEnded : t.inputEnded = s.inputEnded
  output : t.output = s.output
  commands : t.commands = s.commands
  draws : t.draws = s.draws
  displays : t.displays = s.displays

/-- Every register reads as before. -/
def SameRegisters (s t : State) : Prop := ∀ q : Reg, t.getReg q = s.getReg q

/-- Register `rd` holds `v` (register 0 stays 0), and every other register reads as before. -/
def OnlyRegister (s t : State) (rd : Reg) (v : Word) : Prop :=
  ∀ q : Reg, t.getReg q = if q = rd ∧ q ≠ 0 then v else s.getReg q

/-- `hi` and `lo` are as before. -/
def SameHiLo (s t : State) : Prop := t.hi = s.hi ∧ t.lo = s.lo

/-- Every byte of memory reads as before. -/
def SameMemory (s t : State) : Prop := ∀ a : Nat, t.mem.byte a = s.mem.byte a

/-- The `n` bytes from `a` up hold the low bytes of `v`, lowest first (R221, R222), and every other byte
reads as before. -/
def OnlyBytes (s t : State) (a n : Nat) (v : Word) : Prop :=
  ∀ b : Nat, t.mem.byte b =
    if a ≤ b ∧ b < a + n then v.extractLsb' (8 * (b - a)) 8 else s.mem.byte b

/-- The instruction completes: it goes on at `pc + 4`, and it writes this value to `rd` and nothing else. -/
def WritesRegister (i : Instr) (s : State) (rd : Reg) (v : Word) : Prop :=
  ∃ t, exec i s = .next t ∧ Retired s t (s.pc + 4) ∧ OnlyRegister s t rd v ∧ SameHiLo s t ∧
    SameMemory s t ∧ SameHost s t

/-- The instruction completes and goes on at `next`, and changes nothing else. -/
def OnlyJumps (i : Instr) (s : State) (next : Word) : Prop :=
  ∃ t, exec i s = .next t ∧ Retired s t next ∧ SameRegisters s t ∧ SameHiLo s t ∧ SameMemory s t ∧
    SameHost s t

/-- The read check passes (R210), with an exact sum. -/
def Readable (s : State) (a n : Nat) : Prop := s.cfg.textSize ≤ a ∧ a + n ≤ s.cfg.memSize

/-- The write check passes (R211): below the top, and every byte in data or above rodata. -/
def Writable (s : State) (a n : Nat) : Prop :=
  a + n ≤ s.cfg.memSize ∧ ∀ b, a ≤ b → b < a + n →
    (s.cfg.textSize ≤ b ∧ b < s.cfg.textSize + s.cfg.dataSize) ∨
      s.cfg.textSize + s.cfg.dataSize + s.cfg.rodataSize ≤ b

/-- The alignment check passes (R213). -/
def Aligned (s : State) (a n : Nat) : Prop := s.cfg.alignPolicy = .enforce → a % n = 0

/-- The PC check passes (R121). -/
def PcInText (s : State) : Prop := s.pc.toNat < s.cfg.textSize ∧ s.pc.toNat % 4 = 0

/-- The instruction raises this exception with this address, and the report holds its own PC (R905). -/
def Raises (i : Instr) (s : State) (e : Exception) (addr : Word) : Prop :=
  exec i s = .fault (.exception e addr s.pc)

/-- Two, four and eight bytes as one little-endian value (R222). -/
def half (m : Memory) (a : Nat) : BitVec 16 := m.byte (a + 1) ++ m.byte a

def quad (m : Memory) (a : Nat) : BitVec 32 :=
  m.byte (a + 3) ++ m.byte (a + 2) ++ m.byte (a + 1) ++ m.byte a

def dword (m : Memory) (a : Nat) : BitVec 64 :=
  m.byte (a + 7) ++ m.byte (a + 6) ++ m.byte (a + 5) ++ m.byte (a + 4) ++
    m.byte (a + 3) ++ m.byte (a + 2) ++ m.byte (a + 1) ++ m.byte a

/-- The four bytes at the PC, lowest address first. -/
def bytesAtPc (s : State) : List Byte :=
  [s.mem.byte s.pc.toNat, s.mem.byte (s.pc.toNat + 1), s.mem.byte (s.pc.toNat + 2),
    s.mem.byte (s.pc.toNat + 3)]

/-- The whole rule of a load of `n` bytes: its encoding, its result, and its two faults in order. A byte is
never misaligned, so for `n = 1` the last clause has no case. -/
def LoadLaw (op n : Nat) (i : Reg → Reg → Off11 → Instr) (value : Memory → Nat → Word) : Prop :=
  Selects op (fun f => i f.rd f.rs1 f.off11) ∧
  ∀ (s : State) (rd rs1 : Reg) (off : Off11),
    (Readable s (effAddr s rs1 off).toNat n → Aligned s (effAddr s rs1 off).toNat n →
      WritesRegister (i rd rs1 off) s rd (value s.mem (effAddr s rs1 off).toNat)) ∧
    (¬ Readable s (effAddr s rs1 off).toNat n → Raises (i rd rs1 off) s .badRead (effAddr s rs1 off)) ∧
    (Readable s (effAddr s rs1 off).toNat n → ¬ Aligned s (effAddr s rs1 off).toNat n →
      Raises (i rd rs1 off) s .misaligned (effAddr s rs1 off))

/-- The whole rule of a store of `n` bytes: its encoding, the bytes it writes, and its two faults in
order. No register changes. A byte is never misaligned, so for `n = 1` the last clause has no case. -/
def StoreLaw (op n : Nat) (i : Reg → Reg → Off11 → Instr) : Prop :=
  Selects op (fun f => i f.rd f.rs1 f.off11) ∧
  ∀ (s : State) (rd rs1 : Reg) (off : Off11),
    (Writable s (effAddr s rs1 off).toNat n → Aligned s (effAddr s rs1 off).toNat n →
      ∃ t, exec (i rd rs1 off) s = .next t ∧ Retired s t (s.pc + 4) ∧ SameRegisters s t ∧
        SameHiLo s t ∧ OnlyBytes s t (effAddr s rs1 off).toNat n (s.getReg rd) ∧ SameHost s t) ∧
    (¬ Writable s (effAddr s rs1 off).toNat n → Raises (i rd rs1 off) s .badWrite (effAddr s rs1 off)) ∧
    (Writable s (effAddr s rs1 off).toNat n → ¬ Aligned s (effAddr s rs1 off).toNat n →
      Raises (i rd rs1 off) s .misaligned (effAddr s rs1 off))

/-- The whole rule of a three-register instruction that computes `value x[rs1] x[rs2]`. -/
def RegisterLaw (op : Nat) (i : Reg → Reg → Reg → Instr) (value : Word → Word → Word) : Prop :=
  Selects op (fun f => i f.rd f.rs1 f.rs2) ∧
  ∀ (s : State) (rd rs1 rs2 : Reg),
    WritesRegister (i rd rs1 rs2) s rd (value (s.getReg rs1) (s.getReg rs2))

/-- The whole rule of an immediate instruction that computes `value x[rs1] imm16`. -/
def ImmediateLaw (op : Nat) (i : Reg → Reg → Imm16 → Instr) (value : Word → Imm16 → Word) : Prop :=
  Selects op (fun f => i f.rd f.rs1 f.imm16) ∧
  ∀ (s : State) (rd rs1 : Reg) (imm : Imm16),
    WritesRegister (i rd rs1 imm) s rd (value (s.getReg rs1) imm)

/-- The whole rule of a push of `n` bytes. The value pushed is read before SP moves. -/
def PushLaw (op n : Nat) (i : Reg → Instr) : Prop :=
  Selects op (fun f => i f.rd) ∧
  ∀ (s : State) (rd : Reg),
    (Writable s (pushAddr s n).toNat n → Aligned s (pushAddr s n).toNat n →
      ∃ t, exec (i rd) s = .next t ∧ Retired s t (s.pc + 4) ∧
        OnlyRegister s t Config.sp (s.getReg Config.sp - BitVec.ofNat 64 n) ∧ SameHiLo s t ∧
        OnlyBytes s t (pushAddr s n).toNat n (s.getReg rd) ∧ SameHost s t) ∧
    (¬ Writable s (pushAddr s n).toNat n →
      Raises (i rd) s .badWrite (s.getReg Config.sp - BitVec.ofNat 64 n)) ∧
    (Writable s (pushAddr s n).toNat n → ¬ Aligned s (pushAddr s n).toNat n →
      Raises (i rd) s .misaligned (s.getReg Config.sp - BitVec.ofNat 64 n))

/-- The whole rule of a pop of `n` bytes. The destination is written after SP, so a pop into SP leaves
the loaded value there. -/
def PopLaw (op n : Nat) (i : Reg → Instr) (value : Memory → Nat → Word) : Prop :=
  Selects op (fun f => i f.rd) ∧
  ∀ (s : State) (rd : Reg),
    (Readable s (s.getReg Config.sp).toNat n → Aligned s (s.getReg Config.sp).toNat n →
      ∃ t, exec (i rd) s = .next t ∧ Retired s t (s.pc + 4) ∧
        (∀ q : Reg, t.getReg q =
          if q = rd ∧ q ≠ 0 then value s.mem (s.getReg Config.sp).toNat
          else if q = Config.sp then s.getReg Config.sp + BitVec.ofNat 64 n
          else s.getReg q) ∧
        SameHiLo s t ∧ SameMemory s t ∧ SameHost s t) ∧
    (¬ Readable s (s.getReg Config.sp).toNat n → Raises (i rd) s .badRead (s.getReg Config.sp)) ∧
    (Readable s (s.getReg Config.sp).toNat n → ¬ Aligned s (s.getReg Config.sp).toNat n →
      Raises (i rd) s .misaligned (s.getReg Config.sp))

/-- Slot `k` of the frame that `call` builds, counted down from SP (R761). -/
def callSlot (s : State) (k : Nat) : Word := s.getReg Config.sp - BitVec.ofNat 64 (8 * (k + 1))

/-- What `call` writes into slot `k`: RA, FP, then `s0` to `s7` (R761). -/
def callSlotValue (s : State) (k : Nat) : Word :=
  s.getReg ((Config.ra :: Config.fp :: Config.calleeSaved).getD k 0)

/-- Slot `k` that `ret` reads, counted up from SP (R766). -/
def retSlot (s : State) (k : Nat) : Word := s.getReg Config.sp + BitVec.ofNat 64 (8 * k)

/-- The registers `ret` loads, in the order of its pops: `s7` to `s0`, FP, RA (R766). -/
def retOrder : List Reg := Config.calleeSaved.reverse ++ [Config.fp, Config.ra]

/-- The instructions that write `hi` and `lo` (R110). -/
def isMulDiv : Instr → Bool
  | .mul .. | .mulu .. | .div .. | .divu .. => true
  | _ => false

/-- The instructions that read `hi` or `lo` (R110). -/
def readsHiLo : Instr → Bool
  | .mfhi .. | .mflo .. => true
  | _ => false

/-- The instructions that write memory (R901, code 3). -/
def writesMemory : Instr → Bool
  | .sb .. | .sh .. | .sw .. | .sd .. | .push .. | .pushw .. | .call .. => true
  | _ => false

/-- The instructions that read memory as data (R901, code 2). -/
def readsMemory : Instr → Bool
  | .lb .. | .lbu .. | .lh .. | .lhu .. | .lw .. | .lwu .. | .ld .. | .pop .. | .popw .. | .ret => true
  | _ => false

/-- The table of R901: which exceptions an instruction can raise. -/
def mayRaise (i : Instr) : Exception → Bool
  | .pcOutOfBounds => false
  | .badRead => readsMemory i
  | .badWrite => writesMemory i
  | .misaligned => readsMemory i || writesMemory i
  | .divideByZero => match i with
    | .div .. | .divu .. => true
    | _ => false
  | .divideOverflow => match i with
    | .div .. => true
    | _ => false
  | .illegalInstruction => false

/-- The registers an instruction can change: its destination, SP for the stack instructions, ARG for
`int`, and the registers of the frame for `call` and `ret`. -/
def changes : Instr → List Reg
  | .nop | .brk | .sb .. | .sh .. | .sw .. | .sd .. | .mul .. | .mulu .. | .div .. | .divu .. => []
  | .j .. | .jr .. | .beq .. | .bne .. => []
  | .int => [Config.arg]
  | .lb rd .. | .lbu rd .. | .lh rd .. | .lhu rd .. | .lw rd .. | .lwu rd .. | .ld rd .. => [rd]
  | .lui rd _ | .mov rd _ | .mfhi rd | .mflo rd => [rd]
  | .slt rd .. | .sltu rd .. | .seq rd .. | .slti rd .. | .sltiu rd .. | .seqi rd .. => [rd]
  | .or rd .. | .and rd .. | .xor rd .. | .nor rd .. => [rd]
  | .ori rd .. | .andi rd .. | .xori rd .. | .nori rd .. => [rd]
  | .sll rd .. | .srl rd .. | .slli rd .. | .srli rd .. => [rd]
  | .add rd .. | .sub rd .. | .addi rd .. | .subi rd .. => [rd]
  | .push _ | .pushw _ => [Config.sp]
  | .pop rd | .popw rd => [rd, Config.sp]
  | .call _ => [Config.sp, Config.fp, Config.ra]
  | .ret => Config.sp :: Config.fp :: Config.ra :: Config.calleeSaved

/-- The bits of a word an instruction uses (R302, R303). -/
def usedMask : Instr → InstrWord
  | .nop | .int | .brk | .ret => 0x0000003F
  | .lb .. | .lbu .. | .lh .. | .lhu .. | .lw .. | .lwu .. | .ld .. => 0xFFE0FFFF
  | .sb .. | .sh .. | .sw .. | .sd .. => 0xFFE0FFFF
  | .lui .. => 0xFFFF07FF
  | .mov .. | .mul .. | .mulu .. | .div .. | .divu .. => 0x0000FFFF
  | .mfhi .. | .mflo .. | .push .. | .pushw .. | .pop .. | .popw .. | .jr .. => 0x000007FF
  | .slt .. | .sltu .. | .seq .. | .or .. | .and .. | .xor .. | .nor .. => 0x001FFFFF
  | .sll .. | .srl .. | .add .. | .sub .. => 0x001FFFFF
  | .slti .. | .sltiu .. | .seqi .. | .ori .. | .andi .. | .xori .. | .nori .. => 0xFFFFFFFF
  | .slli .. | .srli .. | .addi .. | .subi .. | .beq .. | .bne .. => 0xFFFFFFFF
  | .call .. | .j .. => 0xFFFFFF3F

/-- The architectural state of two states agrees, but for the engine state and `step_armed`. -/
structure SameArchitecture (s t : State) : Prop where
  registers : SameRegisters s t
  x : t.x = s.x
  hiLo : SameHiLo s t
  pc : t.pc = s.pc
  cycle : t.cycle = s.cycle
  memory : t.mem = s.mem
  cfg : t.cfg = s.cfg

/-- The value `TGT_SCALE` of a state's run (R312). -/
def scaleOf (s : State) : Nat :=
  match s.cfg.tgtScale with
  | .one => 1
  | .four => 4

end Sys2Proof.Claims

open Sys2Proof Sys2Proof.Machine Sys2Proof.Claims

/-! ## Encoding and decoding -/

/-- Decoding the word the encoder writes gives the instruction back, for every instruction and every
operand (R301 to R303, R320). -/
def Obligations.DecodeOfEncodeIsIdentity : Prop :=
  ∀ i : Instr, decodeWord (encode i) = .ok i

/-- R341: two words that agree on the bits an instruction uses decode alike, and the encoder writes those
bits and zeros elsewhere. No value of the other bits is refused. -/
def Obligations.IgnoredBitsDoNotMatter : Prop :=
  ∀ (w : InstrWord) (i : Instr), decodeWord w = .ok i →
    encode i = w &&& usedMask i ∧
    ∀ w' : InstrWord, w' &&& usedMask i = w &&& usedMask i → decodeWord w' = .ok i

/-- R340: exactly the opcodes 0x36 to 0x3F are unassigned, and the step that fetches such a word raises
`IllegalInstruction(pc)`. -/
def Obligations.UnassignedOpcodesAreIllegal : Prop :=
  (∀ w : InstrWord, (∃ e, decodeWord w = .error e) ↔ 0x36 ≤ (fieldsOf w).op.toNat) ∧
  ∀ s : State, s.engine = .fetching → PcInText s → 0x36 ≤ (fieldsOf (fetchWord s)).op.toNat →
    step s = .fault (.exception .illegalInstruction s.pc s.pc)

/-- The decoder reads a few words of R352 as the instructions the spec gives them. -/
def Obligations.SpecWordsDecodeAsListed : Prop :=
  decodeWord 0x00050166 = .ok (.addi 5 0 5) ∧ decodeWord 0xFFFF0866 = .ok (.addi 1 1 0xFFFF) ∧
  decodeWord 0x000208E4 = .ok (.add 3 1 2) ∧ decodeWord 0xFF00E909 = .ok (.ld 4 29 0x7F8) ∧
  decodeWord 0xFF00E90D = .ok (.sd 4 29 0x7F8) ∧ decodeWord 0x123401CE = .ok (.lui 7 0x1234) ∧
  decodeWord 0x00000332 = .ok (.j 3) ∧ decodeWord 0x00001030 = .ok (.call 16) ∧
  decodeWord 0x00071074 = .ok (.beq 1 2 7) ∧ decodeWord 0x000007F3 = .ok (.jr 31) ∧
  decodeWord 0x00001069 = .ok (.mulu 1 2) ∧ decodeWord 0x0000042C = .ok (.push 16) ∧
  decodeWord 0x00000001 = .ok .int ∧ decodeWord 0x00000002 = .ok .brk ∧
  decodeWord 0x00000031 = .ok .ret ∧ decodeWord 0x00000000 = .ok .nop

/-! ## The step -/

/-- R121: a fetching machine whose PC is not below `T` or not 4-aligned raises `PcOutOfBounds(pc)`; and
an aligned PC below a whole number of words leaves its whole word in text. -/
def Obligations.BadPcIsFatalAtFetch : Prop :=
  (∀ s : State, s.engine = .fetching → ¬ PcInText s →
    step s = .fault (.exception .pcOutOfBounds s.pc s.pc)) ∧
  ∀ s : State, PcInText s → s.cfg.textSize % 4 = 0 → s.pc.toNat + 4 ≤ s.cfg.textSize

/-- A step of a fetching machine is the meaning of the instruction that the bytes at the PC decode to, at
the same state with the engine dispatching. -/
def Obligations.StepRunsTheDecodedInstruction : Prop :=
  ∀ (s : State) (i : Instr) (rest : List Byte), s.engine = .fetching → PcInText s →
    decodeBytes (bytesAtPc s) = .ok (i, rest) → step s = exec i (s.setEngine .dispatching)

/-- An instruction's meaning does not depend on the engine state it starts in: with the statement above,
a step at a state is the decoded instruction's meaning at that very state. That `exec` is written so is the
model's choice (log entry 24). -/
def Obligations.MeaningIgnoresTheEngineState : Prop :=
  ∀ (i : Instr) (s : State) (e : EngineState), exec i (s.setEngine e) = exec i s

/-- No step leaves `halted`, and none starts inside a step. The names of these stops are the model's (log
entries 11 and 12). -/
def Obligations.NoStepAfterTheEnd : Prop :=
  ∀ s : State,
    (∀ v, s.engine = .halted v → step s = .fault (.exited v)) ∧
    (s.engine = .dispatching → step s = .fault (.noStepFrom .dispatching)) ∧
    (s.engine = .retiring → step s = .fault (.noStepFrom .retiring))

/-- R103, R153: after every instruction that retires, register 0 holds 0 and the cycle counter has gone up
by one. -/
def Obligations.RetiringZeroesRegisterZeroAndCounts : Prop :=
  ∀ (i : Instr) (s t : State), exec i s = .next t → t.x[0] = 0 ∧ t.getReg 0 = 0 ∧ t.cycle = s.cycle + 1

/-- R154: the engine state after every instruction that retires. An exiting `int` halts and never pauses;
otherwise the core pauses exactly when `DEBUG = 1` and the instruction is `brk` or `step_armed` is 1. -/
def Obligations.PauseExactlyAsRetiringSays : Prop :=
  ∀ (i : Instr) (s t : State), exec i s = .next t →
    t.engine =
      if i = .int ∧ s.getReg Config.sel = 0 then .halted (s.getReg Config.arg)
      else if s.cfg.debug = true ∧ (i = .brk ∨ s.stepArmed = true) then .debugPaused
      else .fetching

/-- R901, R905: every instruction in every state either completes or raises one of the exceptions the table
gives it, with its own PC in the report; none is refused. The codes are 1 to 7. -/
def Obligations.InstructionsRaiseOnlyWhatTheTableGives : Prop :=
  (∀ (i : Instr) (s : State), (∃ t, exec i s = .next t) ∨
    ∃ e addr, exec i s = .fault (.exception e addr s.pc) ∧ mayRaise i e = true) ∧
  Exception.pcOutOfBounds.code = 1 ∧ Exception.badRead.code = 2 ∧ Exception.badWrite.code = 3 ∧
  Exception.misaligned.code = 4 ∧ Exception.divideByZero.code = 5 ∧
  Exception.divideOverflow.code = 6 ∧ Exception.illegalInstruction.code = 7

/-! ## Whole-machine invariants -/

/-- Every step keeps the invariant of the machine: register 0 is 0, the engine is between two steps, a
pause and an armed single-step need `DEBUG`, the memory is canonical and inside the image, the layout is
one the loader accepts. -/
def Obligations.EveryStepKeepsTheInvariant : Prop :=
  ∀ s t : State, Invariant s → step s = .next t → Invariant t

/-- The invariant holds right after reset. The run's parameters at `State.reset` are the model's choice
(log entry 1). -/
def Obligations.ResetMeetsTheInvariant : Prop := Invariant State.reset

/-- The invariant holds of every state the loader makes. -/
def Obligations.LoadedStatesMeetTheInvariant : Prop :=
  ∀ (params : RunConfig) (bytes : List Byte) (s : State),
    loadContainer params bytes = .ok s → Invariant s

/-- R202, R141: no step changes the run's parameters. -/
def Obligations.RunParametersAreFixed : Prop :=
  ∀ s t : State, step s = .next t → t.cfg = s.cfg

/-- R233, R211: along every run, from every state, no byte of text and no byte of read-only data ever
changes. -/
def Obligations.TextAndRodataNeverChange : Prop :=
  ∀ s t : State, Reaches s t → ∀ a : Nat,
    (a < s.cfg.textSize ∨ (s.cfg.textSize + s.cfg.dataSize ≤ a ∧
      a < s.cfg.textSize + s.cfg.dataSize + s.cfg.rodataSize)) →
    t.mem.byte a = s.mem.byte a

/-- R110: only the four multiplies and divides write `hi` and `lo`. -/
def Obligations.OnlyMultiplyAndDivideWriteHiLo : Prop :=
  ∀ (i : Instr) (s t : State), exec i s = .next t → isMulDiv i = false → SameHiLo s t

/-- R110: only `mfhi` and `mflo` read `hi` and `lo`. Any other instruction does the same whatever they
hold, and leaves them as they are unless it overwrites them. -/
def Obligations.OnlyMoveFromReadsHiLo : Prop :=
  ∀ (i : Instr) (s : State) (h l : Word), readsHiLo i = false →
    (∀ f, exec i s = .fault f → exec i (s.setHiLo h l) = .fault f) ∧
    (∀ t, exec i s = .next t →
      exec i (s.setHiLo h l) = .next (if isMulDiv i = true then t else t.setHiLo h l))

/-- An instruction that is no store, push or call leaves all of memory as it was. -/
def Obligations.OnlyStoresWriteMemory : Prop :=
  ∀ (i : Instr) (s t : State), exec i s = .next t → writesMemory i = false → t.mem = s.mem

/-- Every instruction leaves every register as it was but the ones listed for it. -/
def Obligations.RegistersOutsideTheDestinationsStay : Prop :=
  ∀ (i : Instr) (s t : State) (q : Reg), exec i s = .next t → q ∉ changes i → t.getReg q = s.getReg q

/-- R141, R960: `DEBUG` changes nothing an instruction does, beside the pause and the trace. -/
def Obligations.DebugFlagDoesNotAffectExecution : Prop :=
  ∀ (i : Instr) (s t : State) (b : Bool), exec i s = .next t →
    ∃ u, exec i { s with cfg := { s.cfg with debug := b } } = .next u ∧
      u.x = t.x ∧ u.hi = t.hi ∧ u.lo = t.lo ∧ u.pc = t.pc ∧ u.cycle = t.cycle ∧ u.mem = t.mem ∧
      u.stepArmed = t.stepArmed ∧ SameHost t u

/-- With `DEBUG = 1` the trace reports every retired instruction once, in order, and with `DEBUG = 0`
nothing. That a line is kept as the instruction's PC is the model's choice (log entry 18). -/
def Obligations.TraceReportsEachRetiredInstruction : Prop :=
  ∀ (i : Instr) (s t : State), exec i s = .next t →
    t.trace = if s.cfg.debug = true then s.trace ++ [s.pc] else s.trace

/-- A word placed where the step fetches is the instruction the next step runs, whatever the rest of the
state. How a program comes to run is log entry 2. -/
def Obligations.PlacedWordIsTheNextInstruction : Prop :=
  ∀ (s : State) (nbits w : Nat) (i : Instr), s.pc.toNat % 4 = 0 → decodeTableWord nbits w = some i →
    step (s.withFetchWord nbits w) = exec i ((s.withFetchWord nbits w).setEngine .dispatching)

/-! ## System instructions -/

/-- R400. -/
def Obligations.NopOnlyAdvances : Prop :=
  Selects 0x00 (fun _ => .nop) ∧ ∀ s : State, OnlyJumps .nop s (s.pc + 4)

/-- R411: with SEL = 0, `int` retires, halts with the value of ARG, and no step follows; and the machine
becomes halted in no other way. That `halted` carries the value, and that a step from there stops with
`exited`, is the model's choice (log entry 12). -/
def Obligations.IntExitHaltsAndNothingElseDoes : Prop :=
  (∀ s : State, s.getReg Config.sel = 0 →
    ∃ t, exec .int s = .next t ∧ t.engine = .halted (s.getReg Config.arg) ∧ t.pc = s.pc + 4 ∧
      t.cycle = s.cycle + 1 ∧ t.x[0] = 0 ∧ SameRegisters s t ∧ SameHiLo s t ∧ SameMemory s t ∧
      SameHost s t ∧ t.cfg = s.cfg ∧ t.stepArmed = s.stepArmed ∧
      runOutcome (exec .int s) = some (.exit (s.getReg Config.arg)) ∧
      step t = .fault (.exited (s.getReg Config.arg))) ∧
  ∀ (s t : State) (v : Word), step s = .next t → t.engine = .halted v →
    s.engine = .fetching ∧ decodeWord (fetchWord s) = .ok .int ∧ s.getReg Config.sel = 0 ∧
      v = s.getReg Config.arg

/-- R412: with SEL = 1, `int` writes to ARG the host's next answer: a zero-extended byte, or 2^64 - 1 at
the end of input. It completes for every answer, and changes nothing else but the record of the host's
answers (`hostIn`, log entry 9). -/
def Obligations.IntGetcharReceivesTheHostsAnswer : Prop :=
  ∀ s : State, s.getReg Config.sel = 1 →
    ∃ t, exec .int s = .next t ∧ Retired s t (s.pc + 4) ∧
      OnlyRegister s t Config.arg
        (match (hostIn s).1 with
          | some b => BitVec.ofNat 64 b.toNat
          | none => BitVec.ofNat 64 (2 ^ 64 - 1)) ∧
      SameHiLo s t ∧ SameMemory s t ∧ t.output = s.output ∧ t.commands = s.commands ∧
      t.displays = s.displays ∧ t.input = (hostIn s).2.input ∧
      t.inputEnded = (hostIn s).2.inputEnded ∧ t.draws = (hostIn s).2.draws

/-- R1021's duty of the host, and the model's record of it (log entries 9 and 10): answers and
command lines are taken from their lists in order, after an EOF the answer is EOF for ever, and where a
list is empty the answer or the command line is the free value for the next draw, whatever that is. -/
def Obligations.HostAnswersAndLinesAreTakenInOrder : Prop :=
  ∀ s : State,
    (∀ line rest, s.engine = .debugPaused → s.commands = line :: rest →
      step s = actOnCommand line { s with commands := rest }) ∧
    (s.engine = .debugPaused → s.commands = [] →
      step s = actOnCommand (Config.hostLine s.draws) { s with draws := s.draws + 1 }) ∧
    (∀ b rest, s.inputEnded = false → s.input = some b :: rest →
      (hostIn s).1 = some b ∧ (hostIn s).2.input = rest ∧ (hostIn s).2.inputEnded = false) ∧
    (∀ rest, s.inputEnded = false → s.input = none :: rest →
      (hostIn s).1 = none ∧ (hostIn s).2.inputEnded = true) ∧
    (s.inputEnded = true → hostIn s = (none, s)) ∧
    (s.inputEnded = false → s.input = [] →
      (hostIn s).1 = Config.hostAnswer s.draws ∧ (hostIn s).2.draws = s.draws + 1 ∧
        (hostIn s).2.inputEnded = (Config.hostAnswer s.draws).isNone)

/-- R413: with SEL = 2, `int` appends the low byte of ARG to the output stream and changes no register. -/
def Obligations.IntPutcharAppendsTheLowByte : Prop :=
  ∀ s : State, s.getReg Config.sel = 2 →
    ∃ t, exec .int s = .next t ∧ Retired s t (s.pc + 4) ∧ SameRegisters s t ∧ SameHiLo s t ∧
      SameMemory s t ∧ t.output = s.output ++ [BitVec.ofNat 8 (s.getReg Config.arg).toNat] ∧
      t.input = s.input ∧ t.inputEnded = s.inputEnded ∧ t.commands = s.commands ∧
      t.draws = s.draws ∧ t.displays = s.displays

/-- R414: with any other selector, compared as a full 64-bit value, `int` only advances. -/
def Obligations.IntWithAnotherSelectorOnlyAdvances : Prop :=
  Selects 0x01 (fun _ => .int) ∧
  ∀ s : State, 2 < (s.getReg Config.sel).toNat → OnlyJumps .int s (s.pc + 4)

/-- R420: `brk` has no effect of its own; with `DEBUG = 1` the core pauses after it, with `DEBUG = 0` it
is `nop`; and a pause changes no architectural state but `step_armed`. -/
def Obligations.BreakpointPausesUnderDebug : Prop :=
  Selects 0x02 (fun _ => .brk) ∧
  (∀ s : State, ∃ t, exec .brk s = .next t ∧ t.pc = s.pc + 4 ∧ t.cycle = s.cycle + 1 ∧ t.x[0] = 0 ∧
    t.engine = (if s.cfg.debug = true then .debugPaused else .fetching) ∧
    t.stepArmed = s.stepArmed ∧ t.cfg = s.cfg ∧ SameRegisters s t ∧ SameHiLo s t ∧ SameMemory s t ∧
    SameHost s t) ∧
  (∀ s : State, s.cfg.debug = false → exec .brk s = exec .nop s) ∧
  ∀ s t : State, s.engine = .debugPaused → step s = .next t → SameArchitecture s t

/-! ## The debug pause -/

/-- R962, R964: the effect of each command line at a pause, the line compared exactly. That the lines come
from a list, and that a display is kept as data, is the model's record (log entries 10 and 19). -/
def Obligations.PauseCommandsActAsListed : Prop :=
  ∀ (s : State) (line : CommandLine) (rest : List CommandLine), s.engine = .debugPaused →
    s.commands = line :: rest →
    ((line = [] ∨ line = ['c']) →
      step s = .next { s with commands := rest, stepArmed := false, engine := .fetching }) ∧
    (line = ['s'] → step s = .next { s with commands := rest, stepArmed := true, engine := .fetching }) ∧
    (line = ['q'] → step s = .fault .quit) ∧
    (line = ['r', 'd'] → ∃ x : Vector Word 32, (∀ q : Reg, x[q.val] = s.getReg q) ∧
      step s = .next { s with commands := rest
                              displays := s.displays ++ [.registers x s.hi s.lo s.pc s.cycle] }) ∧
    (line = ['o', 'p'] → PcInText s →
      step s = .next { s with commands := rest
                              displays := s.displays ++ [.opcode (some (fieldsOf (fetchWord s)).op)] }) ∧
    (line = ['s', 'i'] → (s.getReg Config.gp).toNat < (s.getReg Config.sp).toNat →
      step s = .next { s with commands := rest, displays := s.displays ++ [.stack []] }) ∧
    (line ∉ [[], ['c'], ['s'], ['q'], ['r', 'd'], ['o', 'p'], ['s', 'i']] →
      step s = .next { s with commands := rest, displays := s.displays ++ [.error line] })

/-- R963: what `si` shows, whatever lines follow it: the doublewords read directly from memory, at SP,
SP + 8 and so on, each inside the image. That the range ends below GP is the model's choice (log entry
19). -/
def Obligations.StackDisplayShowsTheDoublewords : Prop :=
  ∀ (s : State) (rest : List CommandLine), s.engine = .debugPaused → s.commands = ['s', 'i'] :: rest →
    (s.getReg Config.gp).toNat ≤ s.cfg.memSize →
    ∃ words, step s = .next { s with commands := rest, displays := s.displays ++ [.stack words] } ∧
      words.length = ((s.getReg Config.gp).toNat - (s.getReg Config.sp).toNat + 7) / 8 ∧
      ∀ k : Nat, (s.getReg Config.sp).toNat + 8 * k + 8 ≤ (s.getReg Config.gp).toNat →
        words[k]? = some ((s.getReg Config.sp).toNat + 8 * k,
          some (dword s.mem ((s.getReg Config.sp).toNat + 8 * k)))

/-! ## Loads and stores -/

/-- R311, R450: the effective address is the base plus the signed offset, modulo 2^64. -/
def Obligations.EffectiveAddressIsBasePlusOffset : Prop :=
  ∀ (s : State) (rs1 : Reg) (off : Off11),
    effAddr s rs1 off = BitVec.ofInt 64 ((s.getReg rs1).toNat + off.toInt) ∧
      -1024 ≤ off.toInt ∧ off.toInt ≤ 1023

/-- R460 to R466: each of the seven loads, with its encoding, its little-endian value, its extension, and
its faults. -/
def Obligations.LoadsReadAndExtend : Prop :=
  LoadLaw 0x03 1 .lb (fun m a => (m.byte a).signExtend 64) ∧
  LoadLaw 0x04 1 .lbu (fun m a => (m.byte a).setWidth 64) ∧
  LoadLaw 0x05 2 .lh (fun m a => (half m a).signExtend 64) ∧
  LoadLaw 0x06 2 .lhu (fun m a => (half m a).setWidth 64) ∧
  LoadLaw 0x07 4 .lw (fun m a => (quad m a).signExtend 64) ∧
  LoadLaw 0x08 4 .lwu (fun m a => (quad m a).setWidth 64) ∧
  LoadLaw 0x09 8 .ld (fun m a => dword m a)

/-- R470 to R473: each of the four stores, with its encoding, the bytes it writes, and its faults. -/
def Obligations.StoresWriteTheLowBytes : Prop :=
  StoreLaw 0x0A 1 .sb ∧ StoreLaw 0x0B 2 .sh ∧ StoreLaw 0x0C 4 .sw ∧ StoreLaw 0x0D 8 .sd

/-- R222, R230: after a doubleword store, a byte load of any of its eight bytes gives that byte of the
value, lowest first, and a doubleword load gives the whole value. -/
def Obligations.LoadAfterStoreReadsTheStoredBytes : Prop :=
  ∀ (s t : State) (rd rs1 : Reg) (off : Off11), exec (.sd rd rs1 off) s = .next t →
    ∀ (rd' rs1' : Reg) (off' : Off11),
      (∀ k : Nat, k < 8 → (effAddr t rs1' off').toNat = (effAddr s rs1 off).toNat + k →
        WritesRegister (.lbu rd' rs1' off') t rd'
          (BitVec.ofNat 64 ((s.getReg rd).toNat / 256 ^ k % 256))) ∧
      (effAddr t rs1' off' = effAddr s rs1 off →
        WritesRegister (.ld rd' rs1' off') t rd' (s.getReg rd))

/-! ## Register instructions -/

/-- R500 to R503: the four moves, with their encodings. -/
def Obligations.MovesWriteTheirSource : Prop :=
  (Selects 0x0E (fun f => .lui f.rd f.imm16) ∧ ∀ (s : State) (rd : Reg) (imm : Imm16),
    WritesRegister (.lui rd imm) s rd (BitVec.ofNat 64 (imm.toNat * 2 ^ 16))) ∧
  (Selects 0x0F (fun f => .mov f.rd f.rs1) ∧ ∀ (s : State) (rd rs1 : Reg),
    WritesRegister (.mov rd rs1) s rd (s.getReg rs1)) ∧
  (Selects 0x10 (fun f => .mfhi f.rd) ∧ ∀ (s : State) (rd : Reg),
    WritesRegister (.mfhi rd) s rd s.hi) ∧
  (Selects 0x11 (fun f => .mflo f.rd) ∧ ∀ (s : State) (rd : Reg),
    WritesRegister (.mflo rd) s rd s.lo)

/-- R550, R560 to R565: the six comparisons write 1 where the relation holds and 0 otherwise; the
immediate is a value in 0 to 65535, also for the signed comparison. -/
def Obligations.ComparisonsWriteOneOrZero : Prop :=
  RegisterLaw 0x12 .slt (fun a b => if a.toInt < b.toInt then 1 else 0) ∧
  RegisterLaw 0x13 .sltu (fun a b => if a.toNat < b.toNat then 1 else 0) ∧
  RegisterLaw 0x14 .seq (fun a b => if a = b then 1 else 0) ∧
  ImmediateLaw 0x15 .slti (fun a imm => if a.toInt < (imm.toNat : Int) then 1 else 0) ∧
  ImmediateLaw 0x16 .sltiu (fun a imm => if a.toNat < imm.toNat then 1 else 0) ∧
  ImmediateLaw 0x17 .seqi (fun a imm => if a.toNat = imm.toNat then 1 else 0)

/-- R590, R600 to R607: the eight bitwise instructions; the immediate is zero-extended. -/
def Obligations.BitwiseInstructionsCombineAllBits : Prop :=
  RegisterLaw 0x18 .or (fun a b => a ||| b) ∧
  RegisterLaw 0x19 .and (fun a b => a &&& b) ∧
  RegisterLaw 0x1A .xor (fun a b => a ^^^ b) ∧
  RegisterLaw 0x1B .nor (fun a b => ~~~a &&& ~~~b) ∧
  ImmediateLaw 0x1C .ori (fun a imm => a ||| BitVec.ofNat 64 imm.toNat) ∧
  ImmediateLaw 0x1D .andi (fun a imm => BitVec.ofNat 64 ((a.toNat % 2 ^ 16) &&& imm.toNat)) ∧
  ImmediateLaw 0x1E .xori (fun a imm => a ^^^ BitVec.ofNat 64 imm.toNat) ∧
  ImmediateLaw 0x1F .nori (fun a imm => ~~~a &&& ~~~BitVec.ofNat 64 imm.toNat)

/-- R610, R620 to R623: the four shifts are a multiplication and a division by a power of two, with the
count taken modulo 64. -/
def Obligations.ShiftsAreLogicalModuloSixtyFour : Prop :=
  RegisterLaw 0x20 .sll (fun a c => BitVec.ofNat 64 (a.toNat * 2 ^ (c.toNat % 64))) ∧
  RegisterLaw 0x21 .srl (fun a c => BitVec.ofNat 64 (a.toNat / 2 ^ (c.toNat % 64))) ∧
  ImmediateLaw 0x22 .slli (fun a c => BitVec.ofNat 64 (a.toNat * 2 ^ (c.toNat % 64))) ∧
  ImmediateLaw 0x23 .srli (fun a c => BitVec.ofNat 64 (a.toNat / 2 ^ (c.toNat % 64)))

/-- R650, R651, R660 to R663: the four sums and differences, exact and then taken modulo 2^64; the
immediate is signed. -/
def Obligations.AddAndSubtractWrap : Prop :=
  RegisterLaw 0x24 .add (fun a b => BitVec.ofNat 64 (a.toNat + b.toNat)) ∧
  RegisterLaw 0x25 .sub (fun a b => BitVec.ofInt 64 ((a.toNat : Int) - b.toNat)) ∧
  ImmediateLaw 0x26 .addi (fun a imm => BitVec.ofInt 64 (a.toInt + imm.toInt)) ∧
  ImmediateLaw 0x27 .subi (fun a imm => BitVec.ofInt 64 (a.toInt - imm.toInt))

/-! ## Multiply and divide -/

/-- R700, R710, R711: `mulu` and `mul` leave the exact 128-bit product of `x[rd]` and `x[rs1]` in `hi` and
`lo`, and change nothing else. -/
def Obligations.MultipliesGiveTheExactProduct : Prop :=
  (Selects 0x29 (fun f => .mulu f.rd f.rs1) ∧ ∀ (s : State) (rd rs1 : Reg),
    ∃ t, exec (.mulu rd rs1) s = .next t ∧ Retired s t (s.pc + 4) ∧ SameRegisters s t ∧
      SameMemory s t ∧ SameHost s t ∧
      t.hi.toNat * 2 ^ 64 + t.lo.toNat = (s.getReg rd).toNat * (s.getReg rs1).toNat) ∧
  (Selects 0x28 (fun f => .mul f.rd f.rs1) ∧ ∀ (s : State) (rd rs1 : Reg),
    ∃ t, exec (.mul rd rs1) s = .next t ∧ Retired s t (s.pc + 4) ∧ SameRegisters s t ∧
      SameMemory s t ∧ SameHost s t ∧
      t.hi.toInt * 2 ^ 64 + t.lo.toNat = (s.getReg rd).toInt * (s.getReg rs1).toInt)

/-- R701: the signed product is the unsigned one with the two's-complement correction: the other operand
is subtracted from `hi` once for each negative operand. -/
def Obligations.SignedProductIsTheCorrectedUnsigned : Prop :=
  ∀ (s t u : State) (rd rs1 : Reg), exec (.mul rd rs1) s = .next t → exec (.mulu rd rs1) s = .next u →
    t.lo = u.lo ∧
    t.hi = u.hi - (if (s.getReg rd).toInt < 0 then s.getReg rs1 else 0)
      - (if (s.getReg rs1).toInt < 0 then s.getReg rd else 0)

/-- R720, R703: `divu` leaves quotient and remainder in `lo` and `hi`, and faults on divisor 0. -/
def Obligations.UnsignedDivideGivesQuotientAndRemainder : Prop :=
  Selects 0x2B (fun f => .divu f.rd f.rs1) ∧
  ∀ (s : State) (rd rs1 : Reg),
    (s.getReg rs1 ≠ 0 →
      ∃ t, exec (.divu rd rs1) s = .next t ∧ Retired s t (s.pc + 4) ∧ SameRegisters s t ∧
        SameMemory s t ∧ SameHost s t ∧
        (s.getReg rd).toNat = t.lo.toNat * (s.getReg rs1).toNat + t.hi.toNat ∧
        t.hi.toNat < (s.getReg rs1).toNat) ∧
    (s.getReg rs1 = 0 → Raises (.divu rd rs1) s .divideByZero s.pc)

/-- R702 to R704, R721: `div` rounds toward zero: the remainder has the sign of the dividend and is
smaller in magnitude than the divisor. It faults on divisor 0. For -2^63 by -1 it faults, or gives -2^63
and 0, as `DIV_OVF_POLICY` says. -/
def Obligations.SignedDivideRoundsTowardZero : Prop :=
  Selects 0x2A (fun f => .div f.rd f.rs1) ∧
  ∀ (s : State) (rd rs1 : Reg),
    (s.getReg rs1 ≠ 0 → ¬ ((s.getReg rd).toInt = -2 ^ 63 ∧ (s.getReg rs1).toInt = -1) →
      ∃ t, exec (.div rd rs1) s = .next t ∧ Retired s t (s.pc + 4) ∧ SameRegisters s t ∧
        SameMemory s t ∧ SameHost s t ∧
        (s.getReg rd).toInt = t.lo.toInt * (s.getReg rs1).toInt + t.hi.toInt ∧
        t.hi.toInt.natAbs < (s.getReg rs1).toInt.natAbs ∧
        (t.hi = 0 ∨ (t.hi.toInt < 0 ↔ (s.getReg rd).toInt < 0))) ∧
    (s.getReg rs1 = 0 → Raises (.div rd rs1) s .divideByZero s.pc) ∧
    ((s.getReg rd).toInt = -2 ^ 63 → (s.getReg rs1).toInt = -1 →
      (s.cfg.divOvfPolicy = .fault → Raises (.div rd rs1) s .divideOverflow s.pc) ∧
      (s.cfg.divOvfPolicy = .wrap →
        ∃ t, exec (.div rd rs1) s = .next t ∧ Retired s t (s.pc + 4) ∧ SameRegisters s t ∧
          SameMemory s t ∧ SameHost s t ∧ t.lo = 0x8000000000000000 ∧ t.hi = 0))

/-! ## Stack, call and return -/

/-- R751, R752: `push` and `pushw`, with their encodings, the bytes they write, SP, and their faults. -/
def Obligations.PushesWriteBelowSpAndMoveIt : Prop :=
  PushLaw 0x2C 8 .push ∧ PushLaw 0x2D 4 .pushw

/-- R753, R754: `pop` and `popw`, with their encodings, the value, SP, and their faults. -/
def Obligations.PopsReadAtSpAndMoveIt : Prop :=
  PopLaw 0x2E 8 .pop (fun m a => dword m a) ∧
  PopLaw 0x2F 4 .popw (fun m a => (quad m a).signExtend 64)

/-- R761, R765: where its ten slots pass their checks, `call` writes the frame and nothing else in memory,
leaves the call's own address in RA, the new stack top in FP and the frame's end in SP, and goes on at its
target. -/
def Obligations.CallBuildsTheFrame : Prop :=
  Selects 0x30 (fun f => .call f.target24) ∧
  ∀ (s : State) (target : Target24),
    (∀ k, k < 10 → Writable s (callSlot s k).toNat 8 ∧ Aligned s (callSlot s k).toNat 8) →
    ∃ t, exec (.call target) s = .next t ∧
      Retired s t (BitVec.ofNat 64 (target.toNat * scaleOf s)) ∧
      (∀ q : Reg, t.getReg q =
        if q = Config.sp then s.getReg Config.sp - 80
        else if q = Config.fp then s.getReg Config.sp - 16
        else if q = Config.ra then s.pc
        else s.getReg q) ∧
      SameHiLo s t ∧ SameHost s t ∧
      (∀ k j, k < 10 → j < 8 → t.mem.byte ((callSlot s k).toNat + j) =
        (callSlotValue s k).extractLsb' (8 * j) 8) ∧
      ∀ a, (∀ k, k < 10 → a < (callSlot s k).toNat ∨ (callSlot s k).toNat + 8 ≤ a) →
        t.mem.byte a = s.mem.byte a

/-- R765, R903: the first of `call`'s ten writes that fails its check is the one reported. -/
def Obligations.CallReportsTheFirstFailingSlot : Prop :=
  ∀ (s : State) (target : Target24) (k : Nat), k < 10 →
    (∀ j, j < k → Writable s (callSlot s j).toNat 8 ∧ Aligned s (callSlot s j).toNat 8) →
    (¬ Writable s (callSlot s k).toNat 8 → Raises (.call target) s .badWrite (callSlot s k)) ∧
    (Writable s (callSlot s k).toNat 8 → ¬ Aligned s (callSlot s k).toNat 8 →
      Raises (.call target) s .misaligned (callSlot s k))

/-- R766: where its ten slots pass their checks, `ret` loads `s7` to `s0`, FP and RA from them, moves SP
past them, and goes on at RA plus 4, with RA as it was before the step. -/
def Obligations.RetUnwindsTheFrame : Prop :=
  Selects 0x31 (fun _ => .ret) ∧
  ∀ s : State,
    (∀ k, k < 10 → Readable s (retSlot s k).toNat 8 ∧ Aligned s (retSlot s k).toNat 8) →
    ∃ t, exec .ret s = .next t ∧ Retired s t (s.getReg Config.ra + 4) ∧
      (∀ k, k < 10 → t.getReg (retOrder.getD k 0) = dword s.mem (retSlot s k).toNat) ∧
      t.getReg Config.sp = s.getReg Config.sp + 80 ∧
      (∀ q : Reg, q ≠ Config.sp → q ∉ retOrder → t.getReg q = s.getReg q) ∧
      SameHiLo s t ∧ SameMemory s t ∧ SameHost s t

/-- R766, R903: the first of `ret`'s ten reads that fails its check is the one reported. -/
def Obligations.RetReportsTheFirstFailingSlot : Prop :=
  ∀ (s : State) (k : Nat), k < 10 →
    (∀ j, j < k → Readable s (retSlot s j).toNat 8 ∧ Aligned s (retSlot s j).toNat 8) →
    (¬ Readable s (retSlot s k).toNat 8 → Raises .ret s .badRead (retSlot s k)) ∧
    (Readable s (retSlot s k).toNat 8 → ¬ Aligned s (retSlot s k).toNat 8 →
      Raises .ret s .misaligned (retSlot s k))

/-- R767: after a `call`, a callee that comes to `ret` with SP and RA as `call` left them and the ten
frame slots unharmed returns to the instruction after the call, with SP, FP, RA and the callee-saved
registers as they were before it, and with every other register and memory as the callee left them. -/
def Obligations.CallThenRetRestoresTheCaller : Prop :=
  ∀ (s t u : State) (target : Target24), exec (.call target) s = .next t →
    u.cfg = t.cfg → u.getReg Config.sp = t.getReg Config.sp → u.getReg Config.ra = t.getReg Config.ra →
    (∀ k j, k < 10 → j < 8 →
      u.mem.byte ((callSlot s k).toNat + j) = t.mem.byte ((callSlot s k).toNat + j)) →
    ∃ v, exec .ret u = .next v ∧ v.pc = s.pc + 4 ∧
      (∀ q, q ∈ Config.sp :: Config.fp :: Config.ra :: Config.calleeSaved → v.getReg q = s.getReg q) ∧
      (∀ q, q ∉ Config.sp :: Config.fp :: Config.ra :: Config.calleeSaved → v.getReg q = u.getReg q) ∧
      v.mem = u.mem ∧
      ∀ k j, k < 10 → j < 8 → v.mem.byte ((callSlot s k).toNat + j) =
        (callSlotValue s k).extractLsb' (8 * j) 8

/-! ## Jumps and branches -/

/-- R312, R810, R820, R821: the absolute jump and the two branches, with their encodings. Targets are
counted from address 0 and scaled; a branch that is not taken goes on at `pc + 4`. -/
def Obligations.JumpsAndBranchesSetTheNextPc : Prop :=
  (Selects 0x32 (fun f => .j f.target24) ∧ ∀ (s : State) (target : Target24),
    OnlyJumps (.j target) s (BitVec.ofNat 64 (target.toNat * scaleOf s))) ∧
  (Selects 0x34 (fun f => .beq f.rd f.rs1 f.imm16) ∧ ∀ (s : State) (rd rs1 : Reg) (imm : Imm16),
    OnlyJumps (.beq rd rs1 imm) s
      (if s.getReg rd = s.getReg rs1 then BitVec.ofNat 64 (imm.toNat * scaleOf s) else s.pc + 4)) ∧
  (Selects 0x35 (fun f => .bne f.rd f.rs1 f.imm16) ∧ ∀ (s : State) (rd rs1 : Reg) (imm : Imm16),
    OnlyJumps (.bne rd rs1 imm) s
      (if s.getReg rd ≠ s.getReg rs1 then BitVec.ofNat 64 (imm.toNat * scaleOf s) else s.pc + 4))

/-- R811: `jr` goes on at the register's value, which is checked only by the next fetch. -/
def Obligations.JumpRegisterIsCheckedAtTheNextFetch : Prop :=
  Selects 0x33 (fun f => .jr f.rd) ∧
  ∀ (s : State) (rd : Reg), OnlyJumps (.jr rd) s (s.getReg rd) ∧
    ∀ t, exec (.jr rd) s = .next t → t.engine = .fetching →
      (s.cfg.textSize ≤ (s.getReg rd).toNat ∨ (s.getReg rd).toNat % 4 ≠ 0) →
      step t = .fault (.exception .pcOutOfBounds (s.getReg rd) (s.getReg rd))

/-! ## Reset and load -/

/-- R106, R160, R1001, under `RESET_FILL = zero`: the reset values over a loaded container. -/
def Obligations.ResetValuesOverALoadedImage : Prop :=
  ∀ (params : RunConfig) (c : Container),
    let s := State.initial (configFor params c) (imageOf c)
    s.pc = 0 ∧ s.hi = 0 ∧ s.lo = 0 ∧ s.cycle = 0 ∧ s.engine = .fetching ∧ s.stepArmed = false ∧
    (∀ q : Reg, s.getReg q =
      if q = Config.gp ∨ q = Config.sp ∨ q = Config.fp then BitVec.ofNat 64 params.memSize else 0) ∧
    s.cfg.memSize = params.memSize ∧ s.cfg.textSize = c.text.length ∧
    s.cfg.dataSize = c.data.length ∧ s.cfg.rodataSize = c.rodata.length ∧
    (∀ a : Nat, a < c.text.length → some (s.mem.byte a) = c.text[a]?) ∧
    (∀ a : Nat, a < c.data.length → some (s.mem.byte (c.text.length + a)) = c.data[a]?) ∧
    (∀ a : Nat, a < c.rodata.length →
      some (s.mem.byte (c.text.length + c.data.length + a)) = c.rodata[a]?) ∧
    ∀ a : Nat, c.text.length + c.data.length + c.rodata.length ≤ a → s.mem.byte a = 0

/-- `State.reset` is the reset state with no program: the first step raises `PcOutOfBounds(0)`. The run's
parameters there are the model's choice (log entries 1 and 2). -/
def Obligations.ResetHoldsNoProgram : Prop :=
  State.reset = State.initial (configFor State.reset.cfg ⟨[], [], [], []⟩) (imageOf ⟨[], [], [], []⟩) ∧
  step State.reset = .fault (.exception .pcOutOfBounds 0 0)

/-- R1003: reading a container's bytes gives the container back, with every symbol record. That `extra`,
the bytes after the last announced one, is ignored is the model's choice (log entry 21). -/
def Obligations.ContainerBytesParseBack : Prop :=
  ∀ (c : Container) (extra : List Byte), c.fits = true → parseContainer (containerBytes c ++ extra) = .ok c

/-- R1004 (b): a container cut short anywhere is refused as truncated. -/
def Obligations.TruncatedContainersAreRefused : Prop :=
  ∀ (c : Container) (k : Nat), c.fits = true → k < (containerBytes c).length →
    parseContainer ((containerBytes c).take k) = .error .truncated

/-- R1000, R1004, R1005: the loader accepts a container exactly when the file parses with the right magic
and the sizes pass the checks (c) to (f) and R123's bound on `M`, and then makes the reset state. That the
bound, which R1004 does not list, is a check of the loader is the model's choice (log entry 20), and so is
that a wrong magic is reported before anything is found missing after it (log entry 21). -/
def Obligations.LoaderAcceptsExactlyTheCheckedContainers : Prop :=
  (∀ (params : RunConfig) (bytes : List Byte) (s : State),
    loadContainer params bytes = .ok s ↔
      ∃ c, parseContainer bytes = .ok c ∧ c.text.length % 4 = 0 ∧
        2 * (c.text.length + c.data.length) ≤ params.memSize ∧
        c.text.length + c.data.length + c.rodata.length ≤ params.memSize ∧
        params.memSize % 8 = 0 ∧ params.memSize < 2 ^ 64 ∧
        s = State.initial (configFor params c) (imageOf c)) ∧
  ∀ bytes : List Byte, 8 ≤ bytes.length → natOfBytes (bytes.take 8) ≠ Config.containerMagic.toNat →
    parseContainer bytes = .error .badMagic
end

