-- ==== Sys2Proof/Laws/Decode.lean ====
section
/-! SUPPORT. The words the encoder writes, bit by bit, and the fields `fieldsOf` reads back from them
(30_encoding.md R301, R302). -/

namespace Sys2Proof

@[simp] theorem regOf_regBits (r : Reg) : regOf (regBits r) = r := by
  apply Fin.ext
  simp [regOf, regBits]

@[simp] theorem regBits_regOf (b : BitVec 5) : regBits (regOf b) = b := by
  simp [regOf, regBits]

/-- A field read from a word is the value whose bits the word holds at that place. -/
theorem extractLsb'_eq_of_bits (w : InstrWord) (lo n : Nat) (v : BitVec n)
    (h : ∀ i, i < n → w.getLsbD (lo + i) = v.getLsbD i) : w.extractLsb' lo n = v :=
  BitVec.eq_of_getLsbD_eq fun i hi => by simpa [hi] using h i hi

/-! ## The bits of an encoded word (R302) -/

theorem getLsbD_encodeN (op : BitVec 6) (i : Nat) :
    (encodeN op).getLsbD i = if i < 6 then op.getLsbD i else false := by
  unfold encodeN
  erw [BitVec.getLsbD_append]
  simp

theorem getLsbD_encodeR (op : BitVec 6) (rd rs1 rs2 : Reg) (i : Nat) :
    (encodeR op rd rs1 rs2).getLsbD i =
      if i < 6 then op.getLsbD i
      else if i - 6 < 5 then (regBits rd).getLsbD (i - 6)
      else if i - 6 - 5 < 5 then (regBits rs1).getLsbD (i - 6 - 5)
      else if i - 6 - 5 - 5 < 5 then (regBits rs2).getLsbD (i - 6 - 5 - 5)
      else false := by
  unfold encodeR
  erw [BitVec.getLsbD_append, BitVec.getLsbD_append, BitVec.getLsbD_append, BitVec.getLsbD_append]
  simp only [BitVec.getLsbD_zero]

theorem getLsbD_encodeI (op : BitVec 6) (rd rs1 : Reg) (imm : Imm16) (i : Nat) :
    (encodeI op rd rs1 imm).getLsbD i =
      if i < 6 then op.getLsbD i
      else if i - 6 < 5 then (regBits rd).getLsbD (i - 6)
      else if i - 6 - 5 < 5 then (regBits rs1).getLsbD (i - 6 - 5)
      else imm.getLsbD (i - 6 - 5 - 5) := by
  unfold encodeI
  erw [BitVec.getLsbD_append, BitVec.getLsbD_append, BitVec.getLsbD_append]

theorem getLsbD_encodeM (op : BitVec 6) (rd rs1 : Reg) (off : Off11) (i : Nat) :
    (encodeM op rd rs1 off).getLsbD i =
      if i < 6 then op.getLsbD i
      else if i - 6 < 5 then (regBits rd).getLsbD (i - 6)
      else if i - 6 - 5 < 5 then (regBits rs1).getLsbD (i - 6 - 5)
      else if i - 6 - 5 - 5 < 5 then false
      else off.getLsbD (i - 6 - 5 - 5 - 5) := by
  unfold encodeM
  erw [BitVec.getLsbD_append, BitVec.getLsbD_append, BitVec.getLsbD_append, BitVec.getLsbD_append]
  simp only [BitVec.getLsbD_zero]

theorem getLsbD_encodeJ (op : BitVec 6) (target : Target24) (i : Nat) :
    (encodeJ op target).getLsbD i =
      if i < 6 then op.getLsbD i
      else if i - 6 < 2 then false
      else target.getLsbD (i - 6 - 2) := by
  unfold encodeJ
  erw [BitVec.getLsbD_append, BitVec.getLsbD_append]
  simp only [BitVec.getLsbD_zero]

/-! ## The opcode field (R301) -/

theorem op_encodeN (op : BitVec 6) : (fieldsOf (encodeN op)).op = op :=
  extractLsb'_eq_of_bits _ _ _ _ fun i hi => by
    rw [getLsbD_encodeN, if_pos (by omega), Nat.zero_add]

theorem op_encodeR (op : BitVec 6) (rd rs1 rs2 : Reg) : (fieldsOf (encodeR op rd rs1 rs2)).op = op :=
  extractLsb'_eq_of_bits _ _ _ _ fun i hi => by
    rw [getLsbD_encodeR, if_pos (by omega), Nat.zero_add]

theorem op_encodeI (op : BitVec 6) (rd rs1 : Reg) (imm : Imm16) :
    (fieldsOf (encodeI op rd rs1 imm)).op = op :=
  extractLsb'_eq_of_bits _ _ _ _ fun i hi => by
    rw [getLsbD_encodeI, if_pos (by omega), Nat.zero_add]

theorem op_encodeM (op : BitVec 6) (rd rs1 : Reg) (off : Off11) :
    (fieldsOf (encodeM op rd rs1 off)).op = op :=
  extractLsb'_eq_of_bits _ _ _ _ fun i hi => by
    rw [getLsbD_encodeM, if_pos (by omega), Nat.zero_add]

theorem op_encodeJ (op : BitVec 6) (target : Target24) : (fieldsOf (encodeJ op target)).op = op :=
  extractLsb'_eq_of_bits _ _ _ _ fun i hi => by
    rw [getLsbD_encodeJ, if_pos (by omega), Nat.zero_add]

end Sys2Proof
end

