-- ==== Sys2Proof/Laws/State.lean ====
section
/-! SUPPORT. One lemma per field per update of the state, each true by unfolding, and reading a register
after each update. Later proofs use these and never unfold an update. -/

namespace Sys2Proof.Machine

variable (s : State)

/-! ## setReg -/

@[simp] theorem State.setReg_x (r : Reg) (v : Word) : (s.setReg r v).x = s.x.set r.val v := rfl
@[simp] theorem State.setReg_hi (r : Reg) (v : Word) : (s.setReg r v).hi = s.hi := rfl
@[simp] theorem State.setReg_lo (r : Reg) (v : Word) : (s.setReg r v).lo = s.lo := rfl
@[simp] theorem State.setReg_pc (r : Reg) (v : Word) : (s.setReg r v).pc = s.pc := rfl
@[simp] theorem State.setReg_cycle (r : Reg) (v : Word) : (s.setReg r v).cycle = s.cycle := rfl
@[simp] theorem State.setReg_engine (r : Reg) (v : Word) : (s.setReg r v).engine = s.engine := rfl
@[simp] theorem State.setReg_stepArmed (r : Reg) (v : Word) : (s.setReg r v).stepArmed = s.stepArmed := rfl
@[simp] theorem State.setReg_mem (r : Reg) (v : Word) : (s.setReg r v).mem = s.mem := rfl
@[simp] theorem State.setReg_cfg (r : Reg) (v : Word) : (s.setReg r v).cfg = s.cfg := rfl
@[simp] theorem State.setReg_input (r : Reg) (v : Word) : (s.setReg r v).input = s.input := rfl
@[simp] theorem State.setReg_inputEnded (r : Reg) (v : Word) : (s.setReg r v).inputEnded = s.inputEnded := rfl
@[simp] theorem State.setReg_output (r : Reg) (v : Word) : (s.setReg r v).output = s.output := rfl
@[simp] theorem State.setReg_commands (r : Reg) (v : Word) : (s.setReg r v).commands = s.commands := rfl
@[simp] theorem State.setReg_draws (r : Reg) (v : Word) : (s.setReg r v).draws = s.draws := rfl
@[simp] theorem State.setReg_displays (r : Reg) (v : Word) : (s.setReg r v).displays = s.displays := rfl
@[simp] theorem State.setReg_trace (r : Reg) (v : Word) : (s.setReg r v).trace = s.trace := rfl

/-- Reading after a write: the written register, but for register 0 (10_state.md R102). -/
theorem State.getReg_setReg (r q : Reg) (v : Word) :
    (s.setReg r v).getReg q = if q = r ∧ q ≠ 0 then v else s.getReg q := by
  by_cases hq : q = 0
  · simp [State.getReg, hq]
  · have h : (s.x.set r.val v r.isLt)[q.val] = if r.val = q.val then v else s.x[q.val] :=
      Vector.getElem_set r.isLt q.isLt
    simp [State.getReg, hq, h, Fin.ext_iff, eq_comm]

@[simp] theorem State.getReg_setReg_same (r : Reg) (v : Word) (h : r ≠ 0) :
    (s.setReg r v).getReg r = v := by simp [State.getReg_setReg, h]

@[simp] theorem State.getReg_setReg_other (r q : Reg) (v : Word) (h : q ≠ r) :
    (s.setReg r v).getReg q = s.getReg q := by simp [State.getReg_setReg, h]

/-! ## clearX0 -/

@[simp] theorem State.clearX0_x : (s.clearX0).x = s.x.set 0 0 := rfl
@[simp] theorem State.clearX0_hi : (s.clearX0).hi = s.hi := rfl
@[simp] theorem State.clearX0_lo : (s.clearX0).lo = s.lo := rfl
@[simp] theorem State.clearX0_pc : (s.clearX0).pc = s.pc := rfl
@[simp] theorem State.clearX0_cycle : (s.clearX0).cycle = s.cycle := rfl
@[simp] theorem State.clearX0_engine : (s.clearX0).engine = s.engine := rfl
@[simp] theorem State.clearX0_stepArmed : (s.clearX0).stepArmed = s.stepArmed := rfl
@[simp] theorem State.clearX0_mem : (s.clearX0).mem = s.mem := rfl
@[simp] theorem State.clearX0_cfg : (s.clearX0).cfg = s.cfg := rfl
@[simp] theorem State.clearX0_input : (s.clearX0).input = s.input := rfl
@[simp] theorem State.clearX0_inputEnded : (s.clearX0).inputEnded = s.inputEnded := rfl
@[simp] theorem State.clearX0_output : (s.clearX0).output = s.output := rfl
@[simp] theorem State.clearX0_commands : (s.clearX0).commands = s.commands := rfl
@[simp] theorem State.clearX0_draws : (s.clearX0).draws = s.draws := rfl
@[simp] theorem State.clearX0_displays : (s.clearX0).displays = s.displays := rfl
@[simp] theorem State.clearX0_trace : (s.clearX0).trace = s.trace := rfl

@[simp] theorem State.getReg_clearX0 (q : Reg) : s.clearX0.getReg q = s.getReg q := by
  by_cases hq : q = 0
  · simp [State.getReg, hq]
  · have hv : ¬ 0 = q.val := fun e => hq (Fin.ext e.symm)
    simp [State.getReg, hq, hv]

/-- R151. -/
@[simp] theorem State.clearX0_zero : s.clearX0.x[0] = 0 := by simp

/-! ## setHiLo -/

@[simp] theorem State.setHiLo_x (h l : Word) : (s.setHiLo h l).x = s.x := rfl
@[simp] theorem State.setHiLo_hi (h l : Word) : (s.setHiLo h l).hi = h := rfl
@[simp] theorem State.setHiLo_lo (h l : Word) : (s.setHiLo h l).lo = l := rfl
@[simp] theorem State.setHiLo_pc (h l : Word) : (s.setHiLo h l).pc = s.pc := rfl
@[simp] theorem State.setHiLo_cycle (h l : Word) : (s.setHiLo h l).cycle = s.cycle := rfl
@[simp] theorem State.setHiLo_engine (h l : Word) : (s.setHiLo h l).engine = s.engine := rfl
@[simp] theorem State.setHiLo_stepArmed (h l : Word) : (s.setHiLo h l).stepArmed = s.stepArmed := rfl
@[simp] theorem State.setHiLo_mem (h l : Word) : (s.setHiLo h l).mem = s.mem := rfl
@[simp] theorem State.setHiLo_cfg (h l : Word) : (s.setHiLo h l).cfg = s.cfg := rfl
@[simp] theorem State.setHiLo_input (h l : Word) : (s.setHiLo h l).input = s.input := rfl
@[simp] theorem State.setHiLo_inputEnded (h l : Word) : (s.setHiLo h l).inputEnded = s.inputEnded := rfl
@[simp] theorem State.setHiLo_output (h l : Word) : (s.setHiLo h l).output = s.output := rfl
@[simp] theorem State.setHiLo_commands (h l : Word) : (s.setHiLo h l).commands = s.commands := rfl
@[simp] theorem State.setHiLo_draws (h l : Word) : (s.setHiLo h l).draws = s.draws := rfl
@[simp] theorem State.setHiLo_displays (h l : Word) : (s.setHiLo h l).displays = s.displays := rfl
@[simp] theorem State.setHiLo_trace (h l : Word) : (s.setHiLo h l).trace = s.trace := rfl
@[simp] theorem State.getReg_setHiLo (h l : Word) (q : Reg) : (s.setHiLo h l).getReg q = s.getReg q := rfl

/-! ## setPc -/

@[simp] theorem State.setPc_x (v : Word) : (s.setPc v).x = s.x := rfl
@[simp] theorem State.setPc_hi (v : Word) : (s.setPc v).hi = s.hi := rfl
@[simp] theorem State.setPc_lo (v : Word) : (s.setPc v).lo = s.lo := rfl
@[simp] theorem State.setPc_pc (v : Word) : (s.setPc v).pc = v := rfl
@[simp] theorem State.setPc_cycle (v : Word) : (s.setPc v).cycle = s.cycle := rfl
@[simp] theorem State.setPc_engine (v : Word) : (s.setPc v).engine = s.engine := rfl
@[simp] theorem State.setPc_stepArmed (v : Word) : (s.setPc v).stepArmed = s.stepArmed := rfl
@[simp] theorem State.setPc_mem (v : Word) : (s.setPc v).mem = s.mem := rfl
@[simp] theorem State.setPc_cfg (v : Word) : (s.setPc v).cfg = s.cfg := rfl
@[simp] theorem State.setPc_input (v : Word) : (s.setPc v).input = s.input := rfl
@[simp] theorem State.setPc_inputEnded (v : Word) : (s.setPc v).inputEnded = s.inputEnded := rfl
@[simp] theorem State.setPc_output (v : Word) : (s.setPc v).output = s.output := rfl
@[simp] theorem State.setPc_commands (v : Word) : (s.setPc v).commands = s.commands := rfl
@[simp] theorem State.setPc_draws (v : Word) : (s.setPc v).draws = s.draws := rfl
@[simp] theorem State.setPc_displays (v : Word) : (s.setPc v).displays = s.displays := rfl
@[simp] theorem State.setPc_trace (v : Word) : (s.setPc v).trace = s.trace := rfl
@[simp] theorem State.getReg_setPc (v : Word) (q : Reg) : (s.setPc v).getReg q = s.getReg q := rfl

/-! ## countRetired -/

@[simp] theorem State.countRetired_x : (s.countRetired).x = s.x := rfl
@[simp] theorem State.countRetired_hi : (s.countRetired).hi = s.hi := rfl
@[simp] theorem State.countRetired_lo : (s.countRetired).lo = s.lo := rfl
@[simp] theorem State.countRetired_pc : (s.countRetired).pc = s.pc := rfl
@[simp] theorem State.countRetired_cycle : (s.countRetired).cycle = s.cycle + 1 := rfl
@[simp] theorem State.countRetired_engine : (s.countRetired).engine = s.engine := rfl
@[simp] theorem State.countRetired_stepArmed : (s.countRetired).stepArmed = s.stepArmed := rfl
@[simp] theorem State.countRetired_mem : (s.countRetired).mem = s.mem := rfl
@[simp] theorem State.countRetired_cfg : (s.countRetired).cfg = s.cfg := rfl
@[simp] theorem State.countRetired_input : (s.countRetired).input = s.input := rfl
@[simp] theorem State.countRetired_inputEnded : (s.countRetired).inputEnded = s.inputEnded := rfl
@[simp] theorem State.countRetired_output : (s.countRetired).output = s.output := rfl
@[simp] theorem State.countRetired_commands : (s.countRetired).commands = s.commands := rfl
@[simp] theorem State.countRetired_draws : (s.countRetired).draws = s.draws := rfl
@[simp] theorem State.countRetired_displays : (s.countRetired).displays = s.displays := rfl
@[simp] theorem State.countRetired_trace : (s.countRetired).trace = s.trace := rfl
@[simp] theorem State.getReg_countRetired (q : Reg) : (s.countRetired).getReg q = s.getReg q := rfl

/-! ## setEngine -/

@[simp] theorem State.setEngine_x (e : EngineState) : (s.setEngine e).x = s.x := rfl
@[simp] theorem State.setEngine_hi (e : EngineState) : (s.setEngine e).hi = s.hi := rfl
@[simp] theorem State.setEngine_lo (e : EngineState) : (s.setEngine e).lo = s.lo := rfl
@[simp] theorem State.setEngine_pc (e : EngineState) : (s.setEngine e).pc = s.pc := rfl
@[simp] theorem State.setEngine_cycle (e : EngineState) : (s.setEngine e).cycle = s.cycle := rfl
@[simp] theorem State.setEngine_engine (e : EngineState) : (s.setEngine e).engine = e := rfl
@[simp] theorem State.setEngine_stepArmed (e : EngineState) : (s.setEngine e).stepArmed = s.stepArmed := rfl
@[simp] theorem State.setEngine_mem (e : EngineState) : (s.setEngine e).mem = s.mem := rfl
@[simp] theorem State.setEngine_cfg (e : EngineState) : (s.setEngine e).cfg = s.cfg := rfl
@[simp] theorem State.setEngine_input (e : EngineState) : (s.setEngine e).input = s.input := rfl
@[simp] theorem State.setEngine_inputEnded (e : EngineState) : (s.setEngine e).inputEnded = s.inputEnded := rfl
@[simp] theorem State.setEngine_output (e : EngineState) : (s.setEngine e).output = s.output := rfl
@[simp] theorem State.setEngine_commands (e : EngineState) : (s.setEngine e).commands = s.commands := rfl
@[simp] theorem State.setEngine_draws (e : EngineState) : (s.setEngine e).draws = s.draws := rfl
@[simp] theorem State.setEngine_displays (e : EngineState) : (s.setEngine e).displays = s.displays := rfl
@[simp] theorem State.setEngine_trace (e : EngineState) : (s.setEngine e).trace = s.trace := rfl
@[simp] theorem State.getReg_setEngine (e : EngineState) (q : Reg) : (s.setEngine e).getReg q = s.getReg q := rfl

/-! ## setStepArmed -/

@[simp] theorem State.setStepArmed_x (b : Bool) : (s.setStepArmed b).x = s.x := rfl
@[simp] theorem State.setStepArmed_hi (b : Bool) : (s.setStepArmed b).hi = s.hi := rfl
@[simp] theorem State.setStepArmed_lo (b : Bool) : (s.setStepArmed b).lo = s.lo := rfl
@[simp] theorem State.setStepArmed_pc (b : Bool) : (s.setStepArmed b).pc = s.pc := rfl
@[simp] theorem State.setStepArmed_cycle (b : Bool) : (s.setStepArmed b).cycle = s.cycle := rfl
@[simp] theorem State.setStepArmed_engine (b : Bool) : (s.setStepArmed b).engine = s.engine := rfl
@[simp] theorem State.setStepArmed_stepArmed (b : Bool) : (s.setStepArmed b).stepArmed = b := rfl
@[simp] theorem State.setStepArmed_mem (b : Bool) : (s.setStepArmed b).mem = s.mem := rfl
@[simp] theorem State.setStepArmed_cfg (b : Bool) : (s.setStepArmed b).cfg = s.cfg := rfl
@[simp] theorem State.setStepArmed_input (b : Bool) : (s.setStepArmed b).input = s.input := rfl
@[simp] theorem State.setStepArmed_inputEnded (b : Bool) : (s.setStepArmed b).inputEnded = s.inputEnded := rfl
@[simp] theorem State.setStepArmed_output (b : Bool) : (s.setStepArmed b).output = s.output := rfl
@[simp] theorem State.setStepArmed_commands (b : Bool) : (s.setStepArmed b).commands = s.commands := rfl
@[simp] theorem State.setStepArmed_draws (b : Bool) : (s.setStepArmed b).draws = s.draws := rfl
@[simp] theorem State.setStepArmed_displays (b : Bool) : (s.setStepArmed b).displays = s.displays := rfl
@[simp] theorem State.setStepArmed_trace (b : Bool) : (s.setStepArmed b).trace = s.trace := rfl
@[simp] theorem State.getReg_setStepArmed (b : Bool) (q : Reg) : (s.setStepArmed b).getReg q = s.getReg q := rfl

/-! ## setMem -/

@[simp] theorem State.setMem_x (m : Memory) : (s.setMem m).x = s.x := rfl
@[simp] theorem State.setMem_hi (m : Memory) : (s.setMem m).hi = s.hi := rfl
@[simp] theorem State.setMem_lo (m : Memory) : (s.setMem m).lo = s.lo := rfl
@[simp] theorem State.setMem_pc (m : Memory) : (s.setMem m).pc = s.pc := rfl
@[simp] theorem State.setMem_cycle (m : Memory) : (s.setMem m).cycle = s.cycle := rfl
@[simp] theorem State.setMem_engine (m : Memory) : (s.setMem m).engine = s.engine := rfl
@[simp] theorem State.setMem_stepArmed (m : Memory) : (s.setMem m).stepArmed = s.stepArmed := rfl
@[simp] theorem State.setMem_mem (m : Memory) : (s.setMem m).mem = m := rfl
@[simp] theorem State.setMem_cfg (m : Memory) : (s.setMem m).cfg = s.cfg := rfl
@[simp] theorem State.setMem_input (m : Memory) : (s.setMem m).input = s.input := rfl
@[simp] theorem State.setMem_inputEnded (m : Memory) : (s.setMem m).inputEnded = s.inputEnded := rfl
@[simp] theorem State.setMem_output (m : Memory) : (s.setMem m).output = s.output := rfl
@[simp] theorem State.setMem_commands (m : Memory) : (s.setMem m).commands = s.commands := rfl
@[simp] theorem State.setMem_draws (m : Memory) : (s.setMem m).draws = s.draws := rfl
@[simp] theorem State.setMem_displays (m : Memory) : (s.setMem m).displays = s.displays := rfl
@[simp] theorem State.setMem_trace (m : Memory) : (s.setMem m).trace = s.trace := rfl
@[simp] theorem State.getReg_setMem (m : Memory) (q : Reg) : (s.setMem m).getReg q = s.getReg q := rfl

/-! ## traceRetired -/

@[simp] theorem State.traceRetired_x : (s.traceRetired).x = s.x := rfl
@[simp] theorem State.traceRetired_hi : (s.traceRetired).hi = s.hi := rfl
@[simp] theorem State.traceRetired_lo : (s.traceRetired).lo = s.lo := rfl
@[simp] theorem State.traceRetired_pc : (s.traceRetired).pc = s.pc := rfl
@[simp] theorem State.traceRetired_cycle : (s.traceRetired).cycle = s.cycle := rfl
@[simp] theorem State.traceRetired_engine : (s.traceRetired).engine = s.engine := rfl
@[simp] theorem State.traceRetired_stepArmed : (s.traceRetired).stepArmed = s.stepArmed := rfl
@[simp] theorem State.traceRetired_mem : (s.traceRetired).mem = s.mem := rfl
@[simp] theorem State.traceRetired_cfg : (s.traceRetired).cfg = s.cfg := rfl
@[simp] theorem State.traceRetired_input : (s.traceRetired).input = s.input := rfl
@[simp] theorem State.traceRetired_inputEnded : (s.traceRetired).inputEnded = s.inputEnded := rfl
@[simp] theorem State.traceRetired_output : (s.traceRetired).output = s.output := rfl
@[simp] theorem State.traceRetired_commands : (s.traceRetired).commands = s.commands := rfl
@[simp] theorem State.traceRetired_draws : (s.traceRetired).draws = s.draws := rfl
@[simp] theorem State.traceRetired_displays : (s.traceRetired).displays = s.displays := rfl
@[simp] theorem State.traceRetired_trace : (s.traceRetired).trace = if s.cfg.debug then s.trace ++ [s.pc] else s.trace := rfl
@[simp] theorem State.getReg_traceRetired (q : Reg) : (s.traceRetired).getReg q = s.getReg q := rfl

/-! ## hostOut -/

@[simp] theorem State.hostOut_x (b : Byte) : (s.hostOut b).x = s.x := rfl
@[simp] theorem State.hostOut_hi (b : Byte) : (s.hostOut b).hi = s.hi := rfl
@[simp] theorem State.hostOut_lo (b : Byte) : (s.hostOut b).lo = s.lo := rfl
@[simp] theorem State.hostOut_pc (b : Byte) : (s.hostOut b).pc = s.pc := rfl
@[simp] theorem State.hostOut_cycle (b : Byte) : (s.hostOut b).cycle = s.cycle := rfl
@[simp] theorem State.hostOut_engine (b : Byte) : (s.hostOut b).engine = s.engine := rfl
@[simp] theorem State.hostOut_stepArmed (b : Byte) : (s.hostOut b).stepArmed = s.stepArmed := rfl
@[simp] theorem State.hostOut_mem (b : Byte) : (s.hostOut b).mem = s.mem := rfl
@[simp] theorem State.hostOut_cfg (b : Byte) : (s.hostOut b).cfg = s.cfg := rfl
@[simp] theorem State.hostOut_input (b : Byte) : (s.hostOut b).input = s.input := rfl
@[simp] theorem State.hostOut_inputEnded (b : Byte) : (s.hostOut b).inputEnded = s.inputEnded := rfl
@[simp] theorem State.hostOut_output (b : Byte) : (s.hostOut b).output = s.output ++ [b] := rfl
@[simp] theorem State.hostOut_commands (b : Byte) : (s.hostOut b).commands = s.commands := rfl
@[simp] theorem State.hostOut_draws (b : Byte) : (s.hostOut b).draws = s.draws := rfl
@[simp] theorem State.hostOut_displays (b : Byte) : (s.hostOut b).displays = s.displays := rfl
@[simp] theorem State.hostOut_trace (b : Byte) : (s.hostOut b).trace = s.trace := rfl
@[simp] theorem State.getReg_hostOut (b : Byte) (q : Reg) : (s.hostOut b).getReg q = s.getReg q := rfl

/-! ## display -/

@[simp] theorem State.display_x (d : Display) : (s.display d).x = s.x := rfl
@[simp] theorem State.display_hi (d : Display) : (s.display d).hi = s.hi := rfl
@[simp] theorem State.display_lo (d : Display) : (s.display d).lo = s.lo := rfl
@[simp] theorem State.display_pc (d : Display) : (s.display d).pc = s.pc := rfl
@[simp] theorem State.display_cycle (d : Display) : (s.display d).cycle = s.cycle := rfl
@[simp] theorem State.display_engine (d : Display) : (s.display d).engine = s.engine := rfl
@[simp] theorem State.display_stepArmed (d : Display) : (s.display d).stepArmed = s.stepArmed := rfl
@[simp] theorem State.display_mem (d : Display) : (s.display d).mem = s.mem := rfl
@[simp] theorem State.display_cfg (d : Display) : (s.display d).cfg = s.cfg := rfl
@[simp] theorem State.display_input (d : Display) : (s.display d).input = s.input := rfl
@[simp] theorem State.display_inputEnded (d : Display) : (s.display d).inputEnded = s.inputEnded := rfl
@[simp] theorem State.display_output (d : Display) : (s.display d).output = s.output := rfl
@[simp] theorem State.display_commands (d : Display) : (s.display d).commands = s.commands := rfl
@[simp] theorem State.display_draws (d : Display) : (s.display d).draws = s.draws := rfl
@[simp] theorem State.display_displays (d : Display) : (s.display d).displays = s.displays ++ [d] := rfl
@[simp] theorem State.display_trace (d : Display) : (s.display d).trace = s.trace := rfl
@[simp] theorem State.getReg_display (d : Display) (q : Reg) : (s.display d).getReg q = s.getReg q := rfl

/-! ## Reading register 0 -/

/-- R102. -/
@[simp] theorem State.getReg_zero : s.getReg 0 = 0 := by simp [State.getReg]

end Sys2Proof.Machine
end

