-- ==== Sys2Proof/Laws/Memory.lean ====
section
/-! SUPPORT. The laws of the memory image: a read after a write of the same byte, a write leaves every
other byte alone, every operation keeps the canonical form, and two canonical images that read alike are
equal. -/

namespace Sys2Proof.Machine

/-! ## One byte -/

theorem Memory.byte_filter_same (m : Memory) (a : Nat) :
    Memory.byte (m.filter fun c => c.1 != a) a = unlistedByte := by
  induction m with
  | nil => rfl
  | cons c m ih =>
    obtain ⟨k, b⟩ := c
    by_cases h : k = a
    · simpa [List.filter_cons, h] using ih
    · have h' : ¬ a = k := fun e => h e.symm
      simpa [List.filter_cons, h, Memory.byte, h'] using ih

theorem Memory.byte_filter_other (m : Memory) {a a' : Nat} (h : a' ≠ a) :
    Memory.byte (m.filter fun c => c.1 != a) a' = m.byte a' := by
  induction m with
  | nil => rfl
  | cons c m ih =>
    obtain ⟨k, b⟩ := c
    by_cases hk : k = a
    · have : ¬ a' = k := fun e => h (e.trans hk)
      simpa [List.filter_cons, hk, Memory.byte, h] using ih
    · by_cases ha : a' = k
      · subst ha; simp [hk, Memory.byte]
      · simpa [List.filter_cons, hk, Memory.byte, ha] using ih

theorem Memory.byte_insertCell (m : Memory) (a a' : Nat) (b : Byte)
    (h : Memory.byte m a = unlistedByte) (hn : ∀ c ∈ m, c.1 ≠ a) :
    (m.insertCell a b).byte a' = if a' = a then b else m.byte a' := by
  induction m with
  | nil => simp [Memory.insertCell, Memory.byte]
  | cons c m ih =>
    obtain ⟨k, d⟩ := c
    have hk : k ≠ a := hn (k, d) (by simp)
    by_cases hlt : a < k
    · simp [Memory.insertCell, hlt, Memory.byte]
    · have hbm : Memory.byte m a = unlistedByte := by
        have : ¬ a = k := fun e => hk e.symm
        simpa [Memory.byte, this] using h
      have ih := ih hbm fun c hc => hn c (by simp [hc])
      simp only [Memory.insertCell, hlt, if_false, Memory.byte, ih]
      by_cases ha : a' = k
      · have : ¬ a' = a := fun e => hk (ha.symm.trans e)
        simp [ha, hk]
      · simp [ha]

/-- The byte law: a write changes the one byte it names. It holds of every list, canonical or not. -/
theorem Memory.byte_setByte (m : Memory) (a a' : Nat) (b : Byte) :
    (m.setByte a b).byte a' = if a' = a then b else m.byte a' := by
  by_cases hb : b = unlistedByte
  · subst hb
    by_cases h : a' = a
    · subst h; simp [Memory.setByte, Memory.byte_filter_same]
    · simp [Memory.setByte, h, Memory.byte_filter_other m h]
  · have hn : ∀ c ∈ m.filter (fun c => c.1 != a), c.1 ≠ a := by
      intro c hc
      simpa using (List.mem_filter.1 hc).2
    simp only [Memory.setByte, hb, if_false]
    rw [Memory.byte_insertCell _ _ _ _ (Memory.byte_filter_same m a) hn]
    by_cases h : a' = a
    · simp [h]
    · simp [h, Memory.byte_filter_other m h]

@[simp] theorem Memory.byte_setByte_same (m : Memory) (a : Nat) (b : Byte) :
    (m.setByte a b).byte a = b := by simp [Memory.byte_setByte]

@[simp] theorem Memory.byte_setByte_other (m : Memory) {a a' : Nat} (b : Byte) (h : a' ≠ a) :
    (m.setByte a b).byte a' = m.byte a' := by simp [Memory.byte_setByte, h]

/-! ## The canonical form -/

theorem Memory.wf_iff (m : Memory) : m.wf = true ↔
    m.Pairwise (fun c d => c.1 < d.1) ∧ ∀ c ∈ m, c.2 ≠ unlistedByte := by
  simp [Memory.wf]

theorem Memory.mem_insertCell (m : Memory) (a : Nat) (b : Byte) (c : Host.Cell) :
    c ∈ m.insertCell a b ↔ c = (a, b) ∨ c ∈ m := by
  induction m with
  | nil => simp [Memory.insertCell]
  | cons d m ih =>
    by_cases h : a < d.1 <;> simp only [Memory.insertCell, h, if_true, if_false, List.mem_cons, ih]
    tauto

theorem Memory.pairwise_insertCell (m : Memory) (a : Nat) (b : Byte)
    (h : m.Pairwise fun c d => c.1 < d.1) (hn : ∀ c ∈ m, c.1 ≠ a) :
    (m.insertCell a b).Pairwise fun c d => c.1 < d.1 := by
  induction m with
  | nil => simp [Memory.insertCell]
  | cons c m ih =>
    obtain ⟨hc, hm⟩ := List.pairwise_cons.1 h
    by_cases hlt : a < c.1
    · simp only [Memory.insertCell, hlt, if_true]
      refine List.pairwise_cons.2 ⟨?_, h⟩
      intro d hd
      rcases List.mem_cons.1 hd with rfl | hd
      · exact hlt
      · exact Nat.lt_trans hlt (hc d hd)
    · simp only [Memory.insertCell, hlt, if_false]
      refine List.pairwise_cons.2 ⟨?_, ih hm fun d hd => hn d (by simp [hd])⟩
      intro d hd
      rcases (Memory.mem_insertCell m a b d).1 hd with rfl | hd
      · have := hn c (by simp)
        simp only at *
        omega
      · exact hc d hd

/-- A byte write keeps the canonical form. -/
theorem Memory.wf_setByte (m : Memory) (a : Nat) (b : Byte) (h : m.wf = true) :
    (m.setByte a b).wf = true := by
  obtain ⟨hp, hz⟩ := (Memory.wf_iff m).1 h
  have hp' : (m.filter fun c => c.1 != a).Pairwise fun c d => c.1 < d.1 := hp.filter _
  have hz' : ∀ c ∈ m.filter (fun c => c.1 != a), c.2 ≠ unlistedByte :=
    fun c hc => hz c (List.mem_filter.1 hc).1
  refine (Memory.wf_iff _).2 ?_
  by_cases hb : b = unlistedByte
  · simp only [Memory.setByte, if_pos hb]
    exact ⟨hp', hz'⟩
  · simp only [Memory.setByte, hb, if_false]
    refine ⟨Memory.pairwise_insertCell _ _ _ hp' ?_, ?_⟩
    · intro c hc
      simpa using (List.mem_filter.1 hc).2
    · intro c hc
      rcases (Memory.mem_insertCell _ _ _ _).1 hc with rfl | hc
      · exact hb
      · exact hz' c hc

theorem Memory.byte_of_all_gt (m : Memory) (a : Nat) (h : ∀ c ∈ m, a < c.1) :
    m.byte a = unlistedByte := by
  induction m with
  | nil => rfl
  | cons c m ih =>
    have hc : a < c.1 := h c (by simp)
    have : ¬ a = c.1 := by omega
    simpa [Memory.byte, this] using ih fun d hd => h d (by simp [hd])

/-- Two canonical images that read alike at every address are equal data. -/
theorem Memory.ext_of_wf (m n : Memory) (hm : m.wf = true) (hn : n.wf = true)
    (h : ∀ a, m.byte a = n.byte a) : m = n := by
  induction m generalizing n with
  | nil =>
    cases n with
    | nil => rfl
    | cons d n =>
      have hz := ((Memory.wf_iff _).1 hn).2 d (by simp)
      exact absurd (by simpa [Memory.byte] using (h d.1).symm) hz
  | cons c m ih =>
    obtain ⟨hp, hz⟩ := (Memory.wf_iff _).1 hm
    obtain ⟨hc, hpm⟩ := List.pairwise_cons.1 hp
    have hcz := hz c (by simp)
    cases n with
    | nil => exact absurd (by simpa [Memory.byte] using h c.1) hcz
    | cons d n =>
      obtain ⟨hq, hy⟩ := (Memory.wf_iff _).1 hn
      obtain ⟨hd, hqn⟩ := List.pairwise_cons.1 hq
      have hdz := hy d (by simp)
      have hkey : c.1 = d.1 := by
        rcases Nat.lt_trichotomy c.1 d.1 with hlt | he | hlt
        · have h1 : Memory.byte (d :: n) c.1 = unlistedByte :=
            Memory.byte_of_all_gt _ _ fun e he => by
              rcases List.mem_cons.1 he with rfl | he
              · exact hlt
              · exact Nat.lt_trans hlt (hd e he)
          have h2 := h c.1
          rw [h1] at h2
          exact absurd (by simpa [Memory.byte] using h2) hcz
        · exact he
        · have h1 : Memory.byte (c :: m) d.1 = unlistedByte :=
            Memory.byte_of_all_gt _ _ fun e he => by
              rcases List.mem_cons.1 he with rfl | he
              · exact hlt
              · exact Nat.lt_trans hlt (hc e he)
          have h2 := h d.1
          rw [h1] at h2
          exact absurd (by simpa [Memory.byte] using h2.symm) hdz
      have hval : c.2 = d.2 := by simpa [Memory.byte, hkey] using h c.1
      have htail : m = n := by
        refine ih n ((Memory.wf_iff _).2 ⟨hpm, fun e he => hz e (by simp [he])⟩)
          ((Memory.wf_iff _).2 ⟨hqn, fun e he => hy e (by simp [he])⟩) fun a => ?_
        by_cases ha : a = c.1
        · rw [Memory.byte_of_all_gt m a (fun e he => ha ▸ hc e he),
            Memory.byte_of_all_gt n a (fun e he => ha ▸ hkey ▸ hd e he)]
        · have ha' : ¬ a = d.1 := hkey ▸ ha
          simpa [Memory.byte, ha, ha'] using h a
      rw [Prod.ext hkey hval, htail]

/-! ## Several bytes -/

/-- A write of `n` bytes puts byte `i` of the value at `a + i` and leaves every other address alone
(R221). -/
theorem Memory.byte_write (m : Memory) (a n a' : Nat) (v : Word) :
    (m.write a v n).byte a' =
      if a ≤ a' ∧ a' < a + n then v.extractLsb' (8 * (a' - a)) 8 else m.byte a' := by
  induction n with
  | zero =>
    have : ¬ (a ≤ a' ∧ a' < a + 0) := by omega
    simp only [Memory.write, this, if_false]
  | succ n ih =>
    simp only [Memory.write, Memory.byte_setByte, ih]
    by_cases h : a' = a + n
    · subst h
      have h1 : a ≤ a + n ∧ a + n < a + (n + 1) := by omega
      have h2 : a + n - a = n := by omega
      simp only [if_true, h1, and_self, h2]
    · by_cases h1 : a ≤ a' ∧ a' < a + n
      · have h2 : a ≤ a' ∧ a' < a + (n + 1) := by omega
        simp only [h, if_false, h1, and_self, if_true, h2]
      · have h2 : ¬ (a ≤ a' ∧ a' < a + (n + 1)) := by omega
        simp only [h, if_false, h1, h2]

theorem Memory.byte_write_outside (m : Memory) {a n a' : Nat} (v : Word)
    (h : a' < a ∨ a + n ≤ a') : (m.write a v n).byte a' = m.byte a' := by
  have : ¬ (a ≤ a' ∧ a' < a + n) := by omega
  rw [Memory.byte_write, if_neg this]

/-- A write of several bytes keeps the canonical form. -/
theorem Memory.wf_write (m : Memory) (a n : Nat) (v : Word) (h : m.wf = true) :
    (m.write a v n).wf = true := by
  induction n with
  | zero => exact h
  | succ n ih => exact Memory.wf_setByte _ _ _ ih

/-- The image built from a list of bytes reads as that list, and as unlisted above it. -/
theorem Memory.byte_ofBytes (bs : List Byte) (a a' : Nat) :
    (Memory.ofBytes a bs).byte a' = if a ≤ a' then bs.getD (a' - a) unlistedByte else unlistedByte := by
  induction bs generalizing a with
  | nil => simp [Memory.ofBytes, Memory.byte]
  | cons b bs ih =>
    have key : (Memory.ofBytes a (b :: bs)).byte a' =
        if a' = a then b else (Memory.ofBytes (a + 1) bs).byte a' := by
      by_cases hb : b = unlistedByte
      · by_cases h : a' = a
        · subst h
          have : ¬ a' + 1 ≤ a' := by omega
          simp [Memory.ofBytes, hb, ih, this]
        · simp [Memory.ofBytes, hb, h]
      · simp [Memory.ofBytes, hb, Memory.byte]
    rw [key, ih]
    by_cases h : a' = a
    · subst h; simp
    · by_cases h1 : a + 1 ≤ a'
      · have h2 : a ≤ a' := by omega
        obtain ⟨d, rfl⟩ : ∃ d, a' = a + 1 + d := ⟨a' - (a + 1), by omega⟩
        have h3 : a + 1 + d - a = d + 1 := by omega
        have h4 : a + 1 + d - (a + 1) = d := by omega
        rw [if_neg h, if_pos h1, if_pos h2, h3, h4, List.getD_cons_succ]
      · have h2 : ¬ a ≤ a' := by omega
        simp only [h, h1, h2, if_false]

theorem Memory.ofBytes_addresses (bs : List Byte) (a : Nat) :
    ∀ c ∈ Memory.ofBytes a bs, a ≤ c.1 := by
  induction bs generalizing a with
  | nil => simp [Memory.ofBytes]
  | cons b bs ih =>
    intro c hc
    by_cases hb : b = unlistedByte
    · rw [Memory.ofBytes, if_pos hb] at hc
      exact Nat.le_of_succ_le (ih (a + 1) c hc)
    · rw [Memory.ofBytes, if_neg hb] at hc
      rcases List.mem_cons.1 hc with rfl | hc
      · exact Nat.le_refl _
      · exact Nat.le_of_succ_le (ih (a + 1) c hc)

/-- The loaded image has the canonical form. -/
theorem Memory.wf_ofBytes (bs : List Byte) (a : Nat) : (Memory.ofBytes a bs).wf = true := by
  induction bs generalizing a with
  | nil => rfl
  | cons b bs ih =>
    obtain ⟨hp, hz⟩ := (Memory.wf_iff _).1 (ih (a + 1))
    by_cases hb : b = unlistedByte
    · simpa [Memory.ofBytes, hb] using ih (a + 1)
    · refine (Memory.wf_iff _).2 ?_
      simp only [Memory.ofBytes, hb, if_false]
      refine ⟨List.pairwise_cons.2 ⟨fun d hd => Memory.ofBytes_addresses bs (a + 1) d hd, hp⟩, ?_⟩
      intro c hc
      rcases List.mem_cons.1 hc with rfl | hc
      · exact hb
      · exact hz c hc

/-- The bytes of a read are the bytes of the image (R220, R222). -/
theorem Memory.getLsbD_read (m : Memory) (a n i : Nat) :
    (m.read a n).getLsbD i = if i < 8 * n then (m.byte (a + i / 8)).getLsbD (i % 8) else false := by
  induction n generalizing a i with
  | zero => simp [Memory.read]
  | succ n ih =>
    simp only [Memory.read, BitVec.getLsbD_append, ih]
    by_cases h : i < 8
    · have h1 : i < 8 * (n + 1) := by omega
      have h2 : i / 8 = 0 := by omega
      have h3 : i % 8 = i := by omega
      simp [h, h1, h2, h3]
    · have h1 : a + 1 + (i - 8) / 8 = a + i / 8 := by omega
      have h2 : (i - 8) % 8 = i % 8 := by omega
      by_cases h3 : i - 8 < 8 * n
      · have h4 : i < 8 * (n + 1) := by omega
        simp [h, h1, h2, h3, h4]
      · have h4 : ¬ i < 8 * (n + 1) := by omega
        simp [h, h3, h4]

/-- Two images that agree on a range read alike there. -/
theorem Memory.read_congr (m m' : Memory) (a n : Nat)
    (h : ∀ i, i < n → m.byte (a + i) = m'.byte (a + i)) : m.read a n = m'.read a n := by
  refine BitVec.eq_of_getLsbD_eq fun i hi => ?_
  simp only [Memory.getLsbD_read, hi, if_true]
  rw [h (i / 8) (by omega)]

/-- A read of what a write of the same width wrote gives the low bytes of the value (R230). -/
theorem Memory.read_write_same (m : Memory) (a n : Nat) (v : Word) :
    (m.write a v n).read a n = v.setWidth (8 * n) := by
  refine BitVec.eq_of_getLsbD_eq fun i hi => ?_
  have h1 : a ≤ a + i / 8 ∧ a + i / 8 < a + n := by omega
  have h2 : a + i / 8 - a = i / 8 := by omega
  have h3 : i % 8 < 8 := Nat.mod_lt _ (by decide)
  have h4 : 8 * (i / 8) + i % 8 = i := by omega
  simp only [Memory.getLsbD_read, hi, if_true, Memory.byte_write, h1, and_self, h2,
    BitVec.getLsbD_extractLsb', h3, decide_true, Bool.true_and, h4, BitVec.getLsbD_setWidth]

/-- A read away from a write reads as before. -/
theorem Memory.read_write_outside (m : Memory) (a n a' n' : Nat) (v : Word)
    (h : a' + n' ≤ a ∨ a + n ≤ a') : (m.write a v n).read a' n' = m.read a' n' :=
  Memory.read_congr _ _ _ _ fun i hi => Memory.byte_write_outside m v (by omega)

end Sys2Proof.Machine
end

