-- ==== Sys2Proof/Laws/Ops.lean ====
section
/-! SUPPORT. What each shared operation can do, said once: the retire phase field by field, and for each
access, stack primitive and host request when it answers, what it answers, and what it leaves alone. -/

namespace Sys2Proof.Machine

variable (s : State)

/-! ## retirePhase (10_state.md R150 to R154) -/

@[simp] theorem State.retirePhase_x (nextPc : Word) : (s.retirePhase nextPc).x = s.x.set 0 0 := rfl
@[simp] theorem State.retirePhase_hi (nextPc : Word) : (s.retirePhase nextPc).hi = s.hi := rfl
@[simp] theorem State.retirePhase_lo (nextPc : Word) : (s.retirePhase nextPc).lo = s.lo := rfl
@[simp] theorem State.retirePhase_pc (nextPc : Word) : (s.retirePhase nextPc).pc = nextPc := rfl
@[simp] theorem State.retirePhase_cycle (nextPc : Word) : (s.retirePhase nextPc).cycle = s.cycle + 1 := rfl
@[simp] theorem State.retirePhase_engine (nextPc : Word) : (s.retirePhase nextPc).engine = .retiring := rfl
@[simp] theorem State.retirePhase_stepArmed (nextPc : Word) : (s.retirePhase nextPc).stepArmed = s.stepArmed := rfl
@[simp] theorem State.retirePhase_mem (nextPc : Word) : (s.retirePhase nextPc).mem = s.mem := rfl
@[simp] theorem State.retirePhase_cfg (nextPc : Word) : (s.retirePhase nextPc).cfg = s.cfg := rfl
@[simp] theorem State.retirePhase_input (nextPc : Word) : (s.retirePhase nextPc).input = s.input := rfl
@[simp] theorem State.retirePhase_inputEnded (nextPc : Word) : (s.retirePhase nextPc).inputEnded = s.inputEnded := rfl
@[simp] theorem State.retirePhase_output (nextPc : Word) : (s.retirePhase nextPc).output = s.output := rfl
@[simp] theorem State.retirePhase_commands (nextPc : Word) : (s.retirePhase nextPc).commands = s.commands := rfl
@[simp] theorem State.retirePhase_draws (nextPc : Word) : (s.retirePhase nextPc).draws = s.draws := rfl
@[simp] theorem State.retirePhase_displays (nextPc : Word) : (s.retirePhase nextPc).displays = s.displays := rfl
@[simp] theorem State.retirePhase_trace (nextPc : Word) : (s.retirePhase nextPc).trace = if s.cfg.debug then s.trace ++ [s.pc] else s.trace := rfl
@[simp] theorem State.getReg_retirePhase (nextPc : Word) (q : Reg) : (s.retirePhase nextPc).getReg q = s.getReg q :=
  s.getReg_clearX0 q

/-! ## retireTo (10_state.md R150 to R154) -/

@[simp] theorem State.retireTo_x (nextPc : Word) : (s.retireTo nextPc).x = s.x.set 0 0 := rfl
@[simp] theorem State.retireTo_hi (nextPc : Word) : (s.retireTo nextPc).hi = s.hi := rfl
@[simp] theorem State.retireTo_lo (nextPc : Word) : (s.retireTo nextPc).lo = s.lo := rfl
@[simp] theorem State.retireTo_pc (nextPc : Word) : (s.retireTo nextPc).pc = nextPc := rfl
@[simp] theorem State.retireTo_cycle (nextPc : Word) : (s.retireTo nextPc).cycle = s.cycle + 1 := rfl
@[simp] theorem State.retireTo_engine (nextPc : Word) : (s.retireTo nextPc).engine = if s.cfg.debug && s.stepArmed then .debugPaused else .fetching := rfl
@[simp] theorem State.retireTo_stepArmed (nextPc : Word) : (s.retireTo nextPc).stepArmed = s.stepArmed := rfl
@[simp] theorem State.retireTo_mem (nextPc : Word) : (s.retireTo nextPc).mem = s.mem := rfl
@[simp] theorem State.retireTo_cfg (nextPc : Word) : (s.retireTo nextPc).cfg = s.cfg := rfl
@[simp] theorem State.retireTo_input (nextPc : Word) : (s.retireTo nextPc).input = s.input := rfl
@[simp] theorem State.retireTo_inputEnded (nextPc : Word) : (s.retireTo nextPc).inputEnded = s.inputEnded := rfl
@[simp] theorem State.retireTo_output (nextPc : Word) : (s.retireTo nextPc).output = s.output := rfl
@[simp] theorem State.retireTo_commands (nextPc : Word) : (s.retireTo nextPc).commands = s.commands := rfl
@[simp] theorem State.retireTo_draws (nextPc : Word) : (s.retireTo nextPc).draws = s.draws := rfl
@[simp] theorem State.retireTo_displays (nextPc : Word) : (s.retireTo nextPc).displays = s.displays := rfl
@[simp] theorem State.retireTo_trace (nextPc : Word) : (s.retireTo nextPc).trace = if s.cfg.debug then s.trace ++ [s.pc] else s.trace := rfl
@[simp] theorem State.getReg_retireTo (nextPc : Word) (q : Reg) : (s.retireTo nextPc).getReg q = s.getReg q :=
  s.getReg_clearX0 q

/-! ## retireNext (10_state.md R150 to R154) -/

@[simp] theorem State.retireNext_x : (s.retireNext).x = s.x.set 0 0 := rfl
@[simp] theorem State.retireNext_hi : (s.retireNext).hi = s.hi := rfl
@[simp] theorem State.retireNext_lo : (s.retireNext).lo = s.lo := rfl
@[simp] theorem State.retireNext_pc : (s.retireNext).pc = s.pc + 4 := rfl
@[simp] theorem State.retireNext_cycle : (s.retireNext).cycle = s.cycle + 1 := rfl
@[simp] theorem State.retireNext_engine : (s.retireNext).engine = if s.cfg.debug && s.stepArmed then .debugPaused else .fetching := rfl
@[simp] theorem State.retireNext_stepArmed : (s.retireNext).stepArmed = s.stepArmed := rfl
@[simp] theorem State.retireNext_mem : (s.retireNext).mem = s.mem := rfl
@[simp] theorem State.retireNext_cfg : (s.retireNext).cfg = s.cfg := rfl
@[simp] theorem State.retireNext_input : (s.retireNext).input = s.input := rfl
@[simp] theorem State.retireNext_inputEnded : (s.retireNext).inputEnded = s.inputEnded := rfl
@[simp] theorem State.retireNext_output : (s.retireNext).output = s.output := rfl
@[simp] theorem State.retireNext_commands : (s.retireNext).commands = s.commands := rfl
@[simp] theorem State.retireNext_draws : (s.retireNext).draws = s.draws := rfl
@[simp] theorem State.retireNext_displays : (s.retireNext).displays = s.displays := rfl
@[simp] theorem State.retireNext_trace : (s.retireNext).trace = if s.cfg.debug then s.trace ++ [s.pc] else s.trace := rfl
@[simp] theorem State.getReg_retireNext (q : Reg) : (s.retireNext).getReg q = s.getReg q :=
  s.getReg_clearX0 q

/-! ## retireBrk (10_state.md R150 to R154) -/

@[simp] theorem State.retireBrk_x : (s.retireBrk).x = s.x.set 0 0 := rfl
@[simp] theorem State.retireBrk_hi : (s.retireBrk).hi = s.hi := rfl
@[simp] theorem State.retireBrk_lo : (s.retireBrk).lo = s.lo := rfl
@[simp] theorem State.retireBrk_pc : (s.retireBrk).pc = s.pc + 4 := rfl
@[simp] theorem State.retireBrk_cycle : (s.retireBrk).cycle = s.cycle + 1 := rfl
@[simp] theorem State.retireBrk_engine : (s.retireBrk).engine = if s.cfg.debug then .debugPaused else .fetching := rfl
@[simp] theorem State.retireBrk_stepArmed : (s.retireBrk).stepArmed = s.stepArmed := rfl
@[simp] theorem State.retireBrk_mem : (s.retireBrk).mem = s.mem := rfl
@[simp] theorem State.retireBrk_cfg : (s.retireBrk).cfg = s.cfg := rfl
@[simp] theorem State.retireBrk_input : (s.retireBrk).input = s.input := rfl
@[simp] theorem State.retireBrk_inputEnded : (s.retireBrk).inputEnded = s.inputEnded := rfl
@[simp] theorem State.retireBrk_output : (s.retireBrk).output = s.output := rfl
@[simp] theorem State.retireBrk_commands : (s.retireBrk).commands = s.commands := rfl
@[simp] theorem State.retireBrk_draws : (s.retireBrk).draws = s.draws := rfl
@[simp] theorem State.retireBrk_displays : (s.retireBrk).displays = s.displays := rfl
@[simp] theorem State.retireBrk_trace : (s.retireBrk).trace = if s.cfg.debug then s.trace ++ [s.pc] else s.trace := rfl
@[simp] theorem State.getReg_retireBrk (q : Reg) : (s.retireBrk).getReg q = s.getReg q :=
  s.getReg_clearX0 q

/-! ## retireHalt (10_state.md R150 to R154) -/

@[simp] theorem State.retireHalt_x (v : Word) : (s.retireHalt v).x = s.x.set 0 0 := rfl
@[simp] theorem State.retireHalt_hi (v : Word) : (s.retireHalt v).hi = s.hi := rfl
@[simp] theorem State.retireHalt_lo (v : Word) : (s.retireHalt v).lo = s.lo := rfl
@[simp] theorem State.retireHalt_pc (v : Word) : (s.retireHalt v).pc = s.pc + 4 := rfl
@[simp] theorem State.retireHalt_cycle (v : Word) : (s.retireHalt v).cycle = s.cycle + 1 := rfl
@[simp] theorem State.retireHalt_engine (v : Word) : (s.retireHalt v).engine = .halted v := rfl
@[simp] theorem State.retireHalt_stepArmed (v : Word) : (s.retireHalt v).stepArmed = s.stepArmed := rfl
@[simp] theorem State.retireHalt_mem (v : Word) : (s.retireHalt v).mem = s.mem := rfl
@[simp] theorem State.retireHalt_cfg (v : Word) : (s.retireHalt v).cfg = s.cfg := rfl
@[simp] theorem State.retireHalt_input (v : Word) : (s.retireHalt v).input = s.input := rfl
@[simp] theorem State.retireHalt_inputEnded (v : Word) : (s.retireHalt v).inputEnded = s.inputEnded := rfl
@[simp] theorem State.retireHalt_output (v : Word) : (s.retireHalt v).output = s.output := rfl
@[simp] theorem State.retireHalt_commands (v : Word) : (s.retireHalt v).commands = s.commands := rfl
@[simp] theorem State.retireHalt_draws (v : Word) : (s.retireHalt v).draws = s.draws := rfl
@[simp] theorem State.retireHalt_displays (v : Word) : (s.retireHalt v).displays = s.displays := rfl
@[simp] theorem State.retireHalt_trace (v : Word) : (s.retireHalt v).trace = if s.cfg.debug then s.trace ++ [s.pc] else s.trace := rfl
@[simp] theorem State.getReg_retireHalt (v : Word) (q : Reg) : (s.retireHalt v).getReg q = s.getReg q :=
  s.getReg_clearX0 q

/-! ## Checked accesses (20_memory.md R210 to R221) -/

theorem readOk_iff (c : RunConfig) (a n : Nat) :
    readOk c a n = true ↔ c.textSize ≤ a ∧ a + n ≤ c.memSize := by
  simp [readOk]

theorem writableByte_iff (c : RunConfig) (b : Nat) : writableByte c b = true ↔
    (c.textSize ≤ b ∧ b < c.textSize + c.dataSize) ∨ c.textSize + c.dataSize + c.rodataSize ≤ b := by
  simp [writableByte]

theorem writeOk_iff (c : RunConfig) (a n : Nat) : writeOk c a n = true ↔
    a + n ≤ c.memSize ∧ ∀ i, i < n → writableByte c (a + i) = true := by
  simp [writeOk]

theorem alignOk_iff (c : RunConfig) (a n : Nat) :
    alignOk c a n = true ↔ (c.alignPolicy = .enforce → a % n = 0) := by
  cases h : c.alignPolicy <;> simp [alignOk, h]

/-- Everything `MemRead` can answer: the bytes, when both checks pass. -/
theorem memRead_eq_ok_iff (addr : Word) (n : Nat) (v : BitVec (8 * n)) :
    memRead s addr n = .ok v ↔
      readOk s.cfg addr.toNat n = true ∧ alignOk s.cfg addr.toNat n = true ∧
        v = s.mem.read addr.toNat n := by
  cases hr : readOk s.cfg addr.toNat n <;> cases ha : alignOk s.cfg addr.toNat n <;>
    simp [memRead, hr, ha, @eq_comm _ v]

/-- Everything `MemRead` can raise, the permission failure first (R214). -/
theorem memRead_eq_error_iff (addr : Word) (n : Nat) (f : Fault) :
    memRead s addr n = .error f ↔
      (readOk s.cfg addr.toNat n = false ∧ f = .exception .badRead addr s.pc) ∨
      (readOk s.cfg addr.toNat n = true ∧ alignOk s.cfg addr.toNat n = false ∧
        f = .exception .misaligned addr s.pc) := by
  cases hr : readOk s.cfg addr.toNat n <;> cases ha : alignOk s.cfg addr.toNat n <;>
    simp [memRead, raise, hr, ha, @eq_comm _ f]

/-- Everything `MemWrite` can answer: the bytes stored and nothing else changed, when both checks pass. -/
theorem memWrite_eq_ok_iff (addr : Word) (n : Nat) (v : Word) (t : State) :
    memWrite s addr n v = .ok t ↔
      writeOk s.cfg addr.toNat n = true ∧ alignOk s.cfg addr.toNat n = true ∧
        t = s.setMem (s.mem.write addr.toNat v n) := by
  cases hr : writeOk s.cfg addr.toNat n <;> cases ha : alignOk s.cfg addr.toNat n <;>
    simp [memWrite, hr, ha, @eq_comm _ t]

/-- Everything `MemWrite` can raise, the permission failure first (R214). -/
theorem memWrite_eq_error_iff (addr : Word) (n : Nat) (v : Word) (f : Fault) :
    memWrite s addr n v = .error f ↔
      (writeOk s.cfg addr.toNat n = false ∧ f = .exception .badWrite addr s.pc) ∨
      (writeOk s.cfg addr.toNat n = true ∧ alignOk s.cfg addr.toNat n = false ∧
        f = .exception .misaligned addr s.pc) := by
  cases hr : writeOk s.cfg addr.toNat n <;> cases ha : alignOk s.cfg addr.toNat n <;>
    simp [memWrite, raise, hr, ha, @eq_comm _ f]

/-! ## Fetch (10_state.md R121, R150; 30_encoding.md R340) -/

theorem pcOk_iff (c : RunConfig) (pc : Word) :
    pcOk c pc = true ↔ pc.toNat < c.textSize ∧ pc.toNat % 4 = 0 := by
  simp [pcOk]

/-- Everything the fetch and decode phases can answer. -/
theorem fetchInstr_eq_ok_iff (i : Instr) :
    fetchInstr s = .ok i ↔ pcOk s.cfg s.pc = true ∧ decodeWord (fetchWord s) = .ok i := by
  cases hp : pcOk s.cfg s.pc <;> cases hd : decodeWord (fetchWord s) <;>
    simp [fetchInstr, hp, hd]

/-- Everything the fetch and decode phases can raise (R903, items 1 and 2). -/
theorem fetchInstr_eq_error_iff (f : Fault) :
    fetchInstr s = .error f ↔
      (pcOk s.cfg s.pc = false ∧ f = .exception .pcOutOfBounds s.pc s.pc) ∨
      (pcOk s.cfg s.pc = true ∧ (∃ e, decodeWord (fetchWord s) = .error e) ∧
        f = .exception .illegalInstruction s.pc s.pc) := by
  cases hp : pcOk s.cfg s.pc <;> cases hd : decodeWord (fetchWord s) <;>
    simp [fetchInstr, raise, hp, hd, @eq_comm _ f]

/-! ## What a stack operation leaves alone -/

/-- `t` differs from `s` in general registers and memory at most. -/
structure SameBeside (s t : State) : Prop where
  hi : t.hi = s.hi
  lo : t.lo = s.lo
  pc : t.pc = s.pc
  cycle : t.cycle = s.cycle
  engine : t.engine = s.engine
  stepArmed : t.stepArmed = s.stepArmed
  cfg : t.cfg = s.cfg
  input : t.input = s.input
  inputEnded : t.inputEnded = s.inputEnded
  output : t.output = s.output
  commands : t.commands = s.commands
  draws : t.draws = s.draws
  displays : t.displays = s.displays
  trace : t.trace = s.trace

theorem SameBeside.refl (s : State) : SameBeside s s := by constructor <;> rfl

theorem SameBeside.trans {s t u : State} (h : SameBeside s t) (k : SameBeside t u) :
    SameBeside s u := by
  constructor
  · exact k.hi.trans h.hi
  · exact k.lo.trans h.lo
  · exact k.pc.trans h.pc
  · exact k.cycle.trans h.cycle
  · exact k.engine.trans h.engine
  · exact k.stepArmed.trans h.stepArmed
  · exact k.cfg.trans h.cfg
  · exact k.input.trans h.input
  · exact k.inputEnded.trans h.inputEnded
  · exact k.output.trans h.output
  · exact k.commands.trans h.commands
  · exact k.draws.trans h.draws
  · exact k.displays.trans h.displays
  · exact k.trace.trans h.trace

theorem SameBeside.setReg (r : Reg) (v : Word) : SameBeside s (s.setReg r v) := by
  constructor <;> rfl

theorem SameBeside.setMem (m : Memory) : SameBeside s (s.setMem m) := by constructor <;> rfl

/-! ## The stack primitives (48_stack_call.md R750) -/

/-- Everything `Push` can answer. -/
theorem push_eq_ok_iff (n : Nat) (v : Word) (t : State) :
    push s n v = .ok t ↔
      writeOk s.cfg (pushAddr s n).toNat n = true ∧
      alignOk s.cfg (pushAddr s n).toNat n = true ∧
      t = (s.setMem (s.mem.write (pushAddr s n).toNat v n)).setReg Config.sp
        (pushAddr s n) := by
  cases h : memWrite s (pushAddr s n) n v with
  | ok u =>
    obtain ⟨h1, h2, rfl⟩ := (memWrite_eq_ok_iff s _ _ _ _).1 h
    simp [push, h, h1, h2, @eq_comm _ t]
  | error f =>
    rcases (memWrite_eq_error_iff s _ _ _ _).1 h with ⟨h1, -⟩ | ⟨-, h2, -⟩ <;>
      simp [push, *]

/-- Everything `Push` can raise: what its write raises. -/
theorem push_eq_error_iff (n : Nat) (v : Word) (f : Fault) :
    push s n v = .error f ↔ memWrite s (pushAddr s n) n v = .error f := by
  cases h : memWrite s (pushAddr s n) n v <;> simp [push, h]

/-- Everything `Pop` can answer. -/
theorem pop_eq_ok_iff (n : Nat) (v : BitVec (8 * n)) (t : State) :
    pop s n = .ok (v, t) ↔
      readOk s.cfg (s.getReg Config.sp).toNat n = true ∧
      alignOk s.cfg (s.getReg Config.sp).toNat n = true ∧
      v = s.mem.read (s.getReg Config.sp).toNat n ∧
      t = s.setReg Config.sp (s.getReg Config.sp + BitVec.ofNat 64 n) := by
  cases h : memRead s (s.getReg Config.sp) n with
  | ok u =>
    obtain ⟨h1, h2, rfl⟩ := (memRead_eq_ok_iff s _ _ _).1 h
    simp [pop, h, h1, h2, @eq_comm _ t, @eq_comm _ v]
  | error f =>
    rcases (memRead_eq_error_iff s _ _ _).1 h with ⟨h1, -⟩ | ⟨-, h2, -⟩ <;>
      simp [pop, *]

/-- Everything `Pop` can raise: what its read raises. -/
theorem pop_eq_error_iff (n : Nat) (f : Fault) :
    pop s n = .error f ↔ memRead s (s.getReg Config.sp) n = .error f := by
  cases h : memRead s (s.getReg Config.sp) n <;> simp [pop, h]

theorem pushRegs_cons (r : Reg) (rs : List Reg) (t : State) :
    pushRegs s (r :: rs) = .ok t ↔ ∃ u, push s 8 (s.getReg r) = .ok u ∧ pushRegs u rs = .ok t := by
  simp only [pushRegs]
  cases h : push s 8 (s.getReg r) <;> simp

theorem popRegs_cons (r : Reg) (rs : List Reg) (t : State) :
    popRegs s (r :: rs) = .ok t ↔
      ∃ v u, pop s 8 = .ok (v, u) ∧ popRegs (u.setReg r v) rs = .ok t := by
  simp only [popRegs]
  cases h : pop s 8 with
  | ok p => obtain ⟨v, u⟩ := p; simp
  | error f => simp

/-- What a list of pushes leaves alone: everything but SP, and every byte that may not be written. -/
theorem pushRegs_frame (rs : List Reg) (t : State) (h : pushRegs s rs = .ok t) :
    SameBeside s t ∧ (∀ q, q ≠ Config.sp → t.getReg q = s.getReg q) ∧
      (∀ a, writableByte s.cfg a = false ∨ s.cfg.memSize ≤ a → t.mem.byte a = s.mem.byte a) ∧
      (s.mem.wf = true → t.mem.wf = true) := by
  induction rs generalizing s with
  | nil =>
    simp only [pushRegs, Except.ok.injEq] at h
    subst h
    exact ⟨SameBeside.refl _, fun _ _ => rfl, fun _ _ => rfl, id⟩
  | cons r rs ih =>
    obtain ⟨u, hu, ht⟩ := (pushRegs_cons s r rs t).1 h
    obtain ⟨hw, -, rfl⟩ := (push_eq_ok_iff s _ _ _).1 hu
    obtain ⟨h1, h2, h3, h4⟩ := ih _ ht
    refine ⟨((SameBeside.setMem s _).trans (SameBeside.setReg _ _ _)).trans h1, fun q hq => ?_,
      fun a ha => ?_, fun hm => h4 (Memory.wf_write _ _ _ _ hm)⟩
    · rw [h2 q hq, State.getReg_setReg_other _ _ _ _ hq, State.getReg_setMem]
    · rw [h3 a ha]
      refine Memory.byte_write_outside _ _ ?_
      obtain ⟨hm, hb⟩ := (writeOk_iff _ _ _).1 hw
      by_contra hc
      rcases ha with ha | ha
      · have := hb (a - (pushAddr s 8).toNat) (by omega)
        rw [Nat.add_sub_cancel' (by omega)] at this
        rw [ha] at this
        cases this
      · omega

/-- What a list of pops leaves alone: memory, and every register but SP and the popped ones. -/
theorem popRegs_frame (rs : List Reg) (t : State) (h : popRegs s rs = .ok t) :
    SameBeside s t ∧ t.mem = s.mem ∧
      (∀ q, q ≠ Config.sp → q ∉ rs → t.getReg q = s.getReg q) := by
  induction rs generalizing s with
  | nil =>
    simp only [popRegs, Except.ok.injEq] at h
    subst h
    exact ⟨SameBeside.refl _, rfl, fun _ _ _ => rfl⟩
  | cons r rs ih =>
    obtain ⟨v, u, hu, ht⟩ := (popRegs_cons s r rs t).1 h
    obtain ⟨-, -, -, rfl⟩ := (pop_eq_ok_iff s _ _ _).1 hu
    obtain ⟨h1, h2, h3⟩ := ih _ ht
    refine ⟨((SameBeside.setReg s _ _).trans (SameBeside.setReg _ _ _)).trans h1, h2, fun q hq hr => ?_⟩
    have hr' : q ≠ r ∧ q ∉ rs := by simpa using hr
    rw [h3 q hq hr'.2, State.getReg_setReg_other _ _ _ _ hr'.1, State.getReg_setReg_other _ _ _ _ hq]

/-! ## The shared shapes of the meanings -/

/-- Everything a load can answer (42_load_store.md R451). -/
theorem loadWith_eq_next_iff (n : Nat) (widen : BitVec (8 * n) → Word) (rd rs1 : Reg) (off : Off11)
    (t : State) :
    loadWith n widen rd rs1 off s = .next t ↔
      readOk s.cfg (effAddr s rs1 off).toNat n = true ∧ alignOk s.cfg (effAddr s rs1 off).toNat n = true ∧
        t = (s.setReg rd (widen (s.mem.read (effAddr s rs1 off).toNat n))).retireNext := by
  cases h : memRead s (effAddr s rs1 off) n with
  | ok v =>
    obtain ⟨h1, h2, rfl⟩ := (memRead_eq_ok_iff s _ _ _).1 h
    simp [loadWith, h, h1, h2, @eq_comm _ t]
  | error f =>
    rcases (memRead_eq_error_iff s _ _ _).1 h with ⟨h1, -⟩ | ⟨-, h2, -⟩ <;>
      simp [loadWith, *]

/-- Everything a load can raise: what its read raises. -/
theorem loadWith_eq_fault_iff (n : Nat) (widen : BitVec (8 * n) → Word) (rd rs1 : Reg) (off : Off11)
    (f : Fault) :
    loadWith n widen rd rs1 off s = .fault f ↔ memRead s (effAddr s rs1 off) n = .error f := by
  cases h : memRead s (effAddr s rs1 off) n <;> simp [loadWith, h]

/-- Everything a store can answer (R452). -/
theorem storeWidth_eq_next_iff (n : Nat) (rd rs1 : Reg) (off : Off11) (t : State) :
    storeWidth n rd rs1 off s = .next t ↔
      writeOk s.cfg (effAddr s rs1 off).toNat n = true ∧ alignOk s.cfg (effAddr s rs1 off).toNat n = true ∧
        t = (s.setMem (s.mem.write (effAddr s rs1 off).toNat (s.getReg rd) n)).retireNext := by
  cases h : memWrite s (effAddr s rs1 off) n (s.getReg rd) with
  | ok v =>
    obtain ⟨h1, h2, rfl⟩ := (memWrite_eq_ok_iff s _ _ _ _).1 h
    simp [storeWidth, h, h1, h2, @eq_comm _ t]
  | error f =>
    rcases (memWrite_eq_error_iff s _ _ _ _).1 h with ⟨h1, -⟩ | ⟨-, h2, -⟩ <;>
      simp [storeWidth, *]

/-- Everything a store can raise: what its write raises. -/
theorem storeWidth_eq_fault_iff (n : Nat) (rd rs1 : Reg) (off : Off11) (f : Fault) :
    storeWidth n rd rs1 off s = .fault f ↔
      memWrite s (effAddr s rs1 off) n (s.getReg rd) = .error f := by
  cases h : memWrite s (effAddr s rs1 off) n (s.getReg rd) <;> simp [storeWidth, h]

/-- Everything a push instruction can answer. -/
theorem pushWidth_eq_next_iff (n : Nat) (rd : Reg) (t : State) :
    pushWidth n rd s = .next t ↔ ∃ u, push s n (s.getReg rd) = .ok u ∧ t = u.retireNext := by
  cases h : push s n (s.getReg rd) <;> simp [pushWidth, h, @eq_comm _ t]

/-- Everything a pop instruction can answer. -/
theorem popWidth_eq_next_iff (n : Nat) (rd : Reg) (t : State) :
    popWidth n rd s = .next t ↔
      ∃ v u, pop s n = .ok (v, u) ∧ t = (u.setReg rd (v.signExtend 64)).retireNext := by
  cases h : pop s n with
  | ok p => obtain ⟨v, u⟩ := p; simp [popWidth, h, @eq_comm _ t]
  | error f => simp [popWidth, h]

/-! ## The host (70_reset_and_hazards.md R1021) -/

/-- What a console request leaves alone: everything but the record of the host's answers. -/
theorem hostIn_frame : (hostIn s).2 =
    { s with input := (hostIn s).2.input, inputEnded := (hostIn s).2.inputEnded
             draws := (hostIn s).2.draws } := by
  unfold hostIn
  split
  · rfl
  · split <;> rfl

@[simp] theorem getReg_hostIn (q : Reg) : (hostIn s).2.getReg q = s.getReg q := by
  rw [hostIn_frame]; rfl

/-- Once the host has answered EOF it keeps answering EOF. -/
theorem hostIn_ended (h : s.inputEnded = true) : hostIn s = (none, s) := by simp [hostIn, h]

/-- An answer of EOF ends the input. -/
theorem hostIn_inputEnded : (hostIn s).2.inputEnded = (hostIn s).1.isNone := by
  unfold hostIn
  split
  · simpa using ‹_›
  · split <;> rfl

/-- What taking a command line leaves alone: everything but the record of the host's lines. -/
theorem hostLine_frame : (hostLine s).2 =
    { s with commands := (hostLine s).2.commands, draws := (hostLine s).2.draws } := by
  unfold hostLine
  split <;> rfl

/-- Everything a pause command can answer: it resumes, or it shows something and the pause goes on. -/
theorem actOnCommand_cases (l : CommandLine) (t : State) (h : actOnCommand l s = .next t) :
    (∃ armed, t = resume s armed) ∨ ∃ d, t = s.display d := by
  unfold actOnCommand at h
  split at h <;> simp only [Host.Outcome.next.injEq, reduceCtorEq] at h
  · exact .inl ⟨_, h.symm⟩
  · exact .inl ⟨_, h.symm⟩
  · exact .inr ⟨_, h.symm⟩
  · exact .inr ⟨_, h.symm⟩
  · exact .inr ⟨_, h.symm⟩
  · exact .inr ⟨_, h.symm⟩

/-! ## The step -/

/-- Everything a step can answer: an instruction's meaning at the dispatching state, or a pause command. -/
theorem step_cases (t : State) (h : step s = .next t) :
    (s.engine = .fetching ∧ ∃ i, pcOk s.cfg s.pc = true ∧ decodeWord (fetchWord s) = .ok i ∧
        exec i (s.setEngine .dispatching) = .next t) ∨
      (s.engine = .debugPaused ∧ actOnCommand (hostLine s).1 (hostLine s).2 = .next t) := by
  unfold step at h
  split at h
  · rename_i he
    split at h
    · rename_i i hi
      obtain ⟨h1, h2⟩ := (fetchInstr_eq_ok_iff s i).1 hi
      exact .inl ⟨he, i, h1, h2, h⟩
    · cases h
  · rename_i he
    exact .inr ⟨he, h⟩
  all_goals cases h

end Sys2Proof.Machine
end

