-- ==== Sys2Proof/Laws/Loader.lean ====
section
/-! SUPPORT. What the loader's operations can answer (70_reset_and_hazards.md R1003, R1004). -/

namespace Sys2Proof.Machine

/-- Everything `takeBytes` can answer. -/
theorem takeBytes_eq_ok_iff (n : Nat) (bs front rest : List Byte) :
    takeBytes n bs = .ok (front, rest) ↔ front ++ rest = bs ∧ front.length = n := by
  unfold takeBytes
  split
  · rename_i h
    simp only [Except.ok.injEq, Prod.mk.injEq]
    constructor
    · rintro ⟨rfl, rfl⟩
      exact ⟨List.take_append_drop n bs, by simpa using h⟩
    · rintro ⟨rfl, rfl⟩
      simp
  · rename_i h
    simp only [reduceCtorEq, false_iff, not_and]
    rintro rfl rfl
    simp at h

/-- A byte string at the head of a list is taken whole. -/
theorem takeBytes_append (front rest : List Byte) :
    takeBytes front.length (front ++ rest) = .ok (front, rest) :=
  (takeBytes_eq_ok_iff _ _ _ _).2 ⟨rfl, rfl⟩

/-- Bytes that are too few are refused as truncated. -/
theorem takeBytes_short (n : Nat) (bs : List Byte) (h : bs.length < n) :
    takeBytes n bs = .error .truncated := by
  unfold takeBytes
  rw [if_neg (by omega)]

@[simp] theorem fieldBytes_length (n : Nat) : (fieldBytes n).length = 8 := by simp [fieldBytes]

/-- A 64-bit field holds every number below 2^64. -/
theorem natOfBytes_fieldBytes (n : Nat) (h : n < 2 ^ 64) : natOfBytes (fieldBytes n) = n := by
  simp [fieldBytes, List.range_succ, natOfBytes]
  omega

/-- A 64-bit field at the head of a list is taken whole. -/
theorem takeField_append (n : Nat) (h : n < 2 ^ 64) (rest : List Byte) :
    takeField (fieldBytes n ++ rest) = .ok (n, rest) := by
  have := takeBytes_append (fieldBytes n) rest
  rw [fieldBytes_length] at this
  simp only [takeField, this, natOfBytes_fieldBytes n h]

/-- Everything the layout check can accept. -/
theorem checkLayout_eq_ok_iff (c : RunConfig) : checkLayout c = .ok () ↔ c.wf = true := by
  unfold checkLayout RunConfig.wf
  cases c.textWhole <;> cases c.headroom <;> cases c.zonesFit <;> cases c.topAligned <;>
    cases c.addressable <;> simp

end Sys2Proof.Machine
end

