-- ==== Sys2Proof/Laws/PerInstr.lean ====
section
/-! SUPPORT. Statements about every instruction as syntax, one lemma per constructor. -/

namespace Sys2Proof.Laws

/-- The low six bits of an instruction's word are its opcode in the dispatch list (30_encoding.md R301,
R320), and the decoder reads that opcode. -/
def EncodesOpcode.Statement (i : Instr) : Prop := (fieldsOf (encode i)).op = opcodeOf i

theorem EncodesOpcode.nop : EncodesOpcode.Statement (.nop) :=
  op_encodeN _
theorem EncodesOpcode.int : EncodesOpcode.Statement (.int) :=
  op_encodeN _
theorem EncodesOpcode.brk : EncodesOpcode.Statement (.brk) :=
  op_encodeN _
theorem EncodesOpcode.lb (rd rs1 : Reg) (off : Off11) : EncodesOpcode.Statement (.lb rd rs1 off) :=
  op_encodeM _ _ _ _
theorem EncodesOpcode.lbu (rd rs1 : Reg) (off : Off11) : EncodesOpcode.Statement (.lbu rd rs1 off) :=
  op_encodeM _ _ _ _
theorem EncodesOpcode.lh (rd rs1 : Reg) (off : Off11) : EncodesOpcode.Statement (.lh rd rs1 off) :=
  op_encodeM _ _ _ _
theorem EncodesOpcode.lhu (rd rs1 : Reg) (off : Off11) : EncodesOpcode.Statement (.lhu rd rs1 off) :=
  op_encodeM _ _ _ _
theorem EncodesOpcode.lw (rd rs1 : Reg) (off : Off11) : EncodesOpcode.Statement (.lw rd rs1 off) :=
  op_encodeM _ _ _ _
theorem EncodesOpcode.lwu (rd rs1 : Reg) (off : Off11) : EncodesOpcode.Statement (.lwu rd rs1 off) :=
  op_encodeM _ _ _ _
theorem EncodesOpcode.ld (rd rs1 : Reg) (off : Off11) : EncodesOpcode.Statement (.ld rd rs1 off) :=
  op_encodeM _ _ _ _
theorem EncodesOpcode.sb (rd rs1 : Reg) (off : Off11) : EncodesOpcode.Statement (.sb rd rs1 off) :=
  op_encodeM _ _ _ _
theorem EncodesOpcode.sh (rd rs1 : Reg) (off : Off11) : EncodesOpcode.Statement (.sh rd rs1 off) :=
  op_encodeM _ _ _ _
theorem EncodesOpcode.sw (rd rs1 : Reg) (off : Off11) : EncodesOpcode.Statement (.sw rd rs1 off) :=
  op_encodeM _ _ _ _
theorem EncodesOpcode.sd (rd rs1 : Reg) (off : Off11) : EncodesOpcode.Statement (.sd rd rs1 off) :=
  op_encodeM _ _ _ _
theorem EncodesOpcode.lui (rd : Reg) (imm : Imm16) : EncodesOpcode.Statement (.lui rd imm) :=
  op_encodeI _ _ _ _
theorem EncodesOpcode.mov (rd rs1 : Reg) : EncodesOpcode.Statement (.mov rd rs1) :=
  op_encodeR _ _ _ _
theorem EncodesOpcode.mfhi (rd : Reg) : EncodesOpcode.Statement (.mfhi rd) :=
  op_encodeR _ _ _ _
theorem EncodesOpcode.mflo (rd : Reg) : EncodesOpcode.Statement (.mflo rd) :=
  op_encodeR _ _ _ _
theorem EncodesOpcode.slt (rd rs1 rs2 : Reg) : EncodesOpcode.Statement (.slt rd rs1 rs2) :=
  op_encodeR _ _ _ _
theorem EncodesOpcode.sltu (rd rs1 rs2 : Reg) : EncodesOpcode.Statement (.sltu rd rs1 rs2) :=
  op_encodeR _ _ _ _
theorem EncodesOpcode.seq (rd rs1 rs2 : Reg) : EncodesOpcode.Statement (.seq rd rs1 rs2) :=
  op_encodeR _ _ _ _
theorem EncodesOpcode.slti (rd rs1 : Reg) (imm : Imm16) : EncodesOpcode.Statement (.slti rd rs1 imm) :=
  op_encodeI _ _ _ _
theorem EncodesOpcode.sltiu (rd rs1 : Reg) (imm : Imm16) : EncodesOpcode.Statement (.sltiu rd rs1 imm) :=
  op_encodeI _ _ _ _
theorem EncodesOpcode.seqi (rd rs1 : Reg) (imm : Imm16) : EncodesOpcode.Statement (.seqi rd rs1 imm) :=
  op_encodeI _ _ _ _
theorem EncodesOpcode.or (rd rs1 rs2 : Reg) : EncodesOpcode.Statement (.or rd rs1 rs2) :=
  op_encodeR _ _ _ _
theorem EncodesOpcode.and (rd rs1 rs2 : Reg) : EncodesOpcode.Statement (.and rd rs1 rs2) :=
  op_encodeR _ _ _ _
theorem EncodesOpcode.xor (rd rs1 rs2 : Reg) : EncodesOpcode.Statement (.xor rd rs1 rs2) :=
  op_encodeR _ _ _ _
theorem EncodesOpcode.nor (rd rs1 rs2 : Reg) : EncodesOpcode.Statement (.nor rd rs1 rs2) :=
  op_encodeR _ _ _ _
theorem EncodesOpcode.ori (rd rs1 : Reg) (imm : Imm16) : EncodesOpcode.Statement (.ori rd rs1 imm) :=
  op_encodeI _ _ _ _
theorem EncodesOpcode.andi (rd rs1 : Reg) (imm : Imm16) : EncodesOpcode.Statement (.andi rd rs1 imm) :=
  op_encodeI _ _ _ _
theorem EncodesOpcode.xori (rd rs1 : Reg) (imm : Imm16) : EncodesOpcode.Statement (.xori rd rs1 imm) :=
  op_encodeI _ _ _ _
theorem EncodesOpcode.nori (rd rs1 : Reg) (imm : Imm16) : EncodesOpcode.Statement (.nori rd rs1 imm) :=
  op_encodeI _ _ _ _
theorem EncodesOpcode.sll (rd rs1 rs2 : Reg) : EncodesOpcode.Statement (.sll rd rs1 rs2) :=
  op_encodeR _ _ _ _
theorem EncodesOpcode.srl (rd rs1 rs2 : Reg) : EncodesOpcode.Statement (.srl rd rs1 rs2) :=
  op_encodeR _ _ _ _
theorem EncodesOpcode.slli (rd rs1 : Reg) (imm : Imm16) : EncodesOpcode.Statement (.slli rd rs1 imm) :=
  op_encodeI _ _ _ _
theorem EncodesOpcode.srli (rd rs1 : Reg) (imm : Imm16) : EncodesOpcode.Statement (.srli rd rs1 imm) :=
  op_encodeI _ _ _ _
theorem EncodesOpcode.add (rd rs1 rs2 : Reg) : EncodesOpcode.Statement (.add rd rs1 rs2) :=
  op_encodeR _ _ _ _
theorem EncodesOpcode.sub (rd rs1 rs2 : Reg) : EncodesOpcode.Statement (.sub rd rs1 rs2) :=
  op_encodeR _ _ _ _
theorem EncodesOpcode.addi (rd rs1 : Reg) (imm : Imm16) : EncodesOpcode.Statement (.addi rd rs1 imm) :=
  op_encodeI _ _ _ _
theorem EncodesOpcode.subi (rd rs1 : Reg) (imm : Imm16) : EncodesOpcode.Statement (.subi rd rs1 imm) :=
  op_encodeI _ _ _ _
theorem EncodesOpcode.mul (rd rs1 : Reg) : EncodesOpcode.Statement (.mul rd rs1) :=
  op_encodeR _ _ _ _
theorem EncodesOpcode.mulu (rd rs1 : Reg) : EncodesOpcode.Statement (.mulu rd rs1) :=
  op_encodeR _ _ _ _
theorem EncodesOpcode.div (rd rs1 : Reg) : EncodesOpcode.Statement (.div rd rs1) :=
  op_encodeR _ _ _ _
theorem EncodesOpcode.divu (rd rs1 : Reg) : EncodesOpcode.Statement (.divu rd rs1) :=
  op_encodeR _ _ _ _
theorem EncodesOpcode.push (rd : Reg) : EncodesOpcode.Statement (.push rd) :=
  op_encodeR _ _ _ _
theorem EncodesOpcode.pushw (rd : Reg) : EncodesOpcode.Statement (.pushw rd) :=
  op_encodeR _ _ _ _
theorem EncodesOpcode.pop (rd : Reg) : EncodesOpcode.Statement (.pop rd) :=
  op_encodeR _ _ _ _
theorem EncodesOpcode.popw (rd : Reg) : EncodesOpcode.Statement (.popw rd) :=
  op_encodeR _ _ _ _
theorem EncodesOpcode.call (target : Target24) : EncodesOpcode.Statement (.call target) :=
  op_encodeJ _ _
theorem EncodesOpcode.ret : EncodesOpcode.Statement (.ret) :=
  op_encodeN _
theorem EncodesOpcode.j (target : Target24) : EncodesOpcode.Statement (.j target) :=
  op_encodeJ _ _
theorem EncodesOpcode.jr (rd : Reg) : EncodesOpcode.Statement (.jr rd) :=
  op_encodeR _ _ _ _
theorem EncodesOpcode.beq (rd rs1 : Reg) (imm : Imm16) : EncodesOpcode.Statement (.beq rd rs1 imm) :=
  op_encodeI _ _ _ _
theorem EncodesOpcode.bne (rd rs1 : Reg) (imm : Imm16) : EncodesOpcode.Statement (.bne rd rs1 imm) :=
  op_encodeI _ _ _ _

end Sys2Proof.Laws
end

