-- ==== Sys2Proof/Laws/Stack.lean ====
section
/-! SUPPORT. What `call` and `ret` can answer and what they can raise (48_stack_call.md R765, R766), said
once, so that no later proof unfolds them. -/

namespace Sys2Proof.Machine

variable (s : State)

/-- Everything the first half of `call` can answer: two pushes, then RA and FP. -/
theorem callLink_eq_ok_iff (t : State) :
    callLink s = .ok t ↔
      ∃ u v, push s 8 (s.getReg Config.ra) = .ok u ∧ push u 8 (u.getReg Config.fp) = .ok v ∧
        t = (v.setReg Config.ra v.pc).setReg Config.fp ((v.setReg Config.ra v.pc).getReg Config.sp) := by
  unfold callLink
  cases h : push s 8 (s.getReg Config.ra) with
  | error f => simp
  | ok u => cases k : push u 8 (u.getReg Config.fp) <;> simp [k, @eq_comm _ t]

/-- Everything the first half of `call` can raise: what its first or its second push raises. -/
theorem callLink_eq_error_iff (f : Fault) :
    callLink s = .error f ↔
      push s 8 (s.getReg Config.ra) = .error f ∨
      ∃ u, push s 8 (s.getReg Config.ra) = .ok u ∧ push u 8 (u.getReg Config.fp) = .error f := by
  unfold callLink
  cases h : push s 8 (s.getReg Config.ra) with
  | error e => simp
  | ok u => cases k : push u 8 (u.getReg Config.fp) <;> simp [k]

/-- Everything the second half of `ret` can answer: two pops. -/
theorem retUnlink_eq_ok_iff (t : State) :
    retUnlink s = .ok t ↔
      ∃ v u w x, pop s 8 = .ok (v, u) ∧ pop (u.setReg Config.fp v) 8 = .ok (w, x) ∧
        t = x.setReg Config.ra w := by
  unfold retUnlink
  cases h : pop s 8 with
  | error f => simp
  | ok p =>
    obtain ⟨v, u⟩ := p
    cases k : pop (u.setReg Config.fp v) 8 with
    | error f => simp [k]
    | ok q => obtain ⟨w, x⟩ := q; simp [k, @eq_comm _ t]

/-- Everything the second half of `ret` can raise: what its first or its second pop raises. -/
theorem retUnlink_eq_error_iff (f : Fault) :
    retUnlink s = .error f ↔
      pop s 8 = .error f ∨ ∃ v u, pop s 8 = .ok (v, u) ∧ pop (u.setReg Config.fp v) 8 = .error f := by
  unfold retUnlink
  cases h : pop s 8 with
  | error e => simp
  | ok p =>
    obtain ⟨v, u⟩ := p
    cases k : pop (u.setReg Config.fp v) 8 <;> simp [k]

/-- Everything a list of pushes can raise: what the first push that fails raises. -/
theorem pushRegs_cons_error (r : Reg) (rs : List Reg) (f : Fault) :
    pushRegs s (r :: rs) = .error f ↔
      push s 8 (s.getReg r) = .error f ∨
      ∃ u, push s 8 (s.getReg r) = .ok u ∧ pushRegs u rs = .error f := by
  simp only [pushRegs]
  cases h : push s 8 (s.getReg r) <;> simp

/-- Everything a list of pops can raise: what the first pop that fails raises. -/
theorem popRegs_cons_error (r : Reg) (rs : List Reg) (f : Fault) :
    popRegs s (r :: rs) = .error f ↔
      pop s 8 = .error f ∨ ∃ v u, pop s 8 = .ok (v, u) ∧ popRegs (u.setReg r v) rs = .error f := by
  simp only [popRegs]
  cases h : pop s 8 with
  | error e => simp
  | ok p => obtain ⟨v, u⟩ := p; simp

/-- Everything `call` can answer. -/
theorem execCall_eq_next_iff (target : Target24) (t : State) :
    execCall target s = .next t ↔
      ∃ u v, callLink s = .ok u ∧ pushRegs u Config.calleeSaved = .ok v ∧
        t = v.retireTo (jumpTarget s target) := by
  unfold execCall
  cases h : callLink s with
  | error f => simp
  | ok u => cases k : pushRegs u Config.calleeSaved <;> simp [k, @eq_comm _ t]

/-- Everything `call` can raise. -/
theorem execCall_eq_fault_iff (target : Target24) (f : Fault) :
    execCall target s = .fault f ↔
      callLink s = .error f ∨
      ∃ u, callLink s = .ok u ∧ pushRegs u Config.calleeSaved = .error f := by
  unfold execCall
  cases h : callLink s with
  | error e => simp
  | ok u => cases k : pushRegs u Config.calleeSaved <;> simp [k]

/-- Everything `ret` can answer. -/
theorem execRet_eq_next_iff (t : State) :
    execRet s = .next t ↔
      ∃ u v, popRegs s Config.calleeSaved.reverse = .ok u ∧ retUnlink u = .ok v ∧
        t = v.retireTo (u.getReg Config.ra + 4) := by
  unfold execRet
  cases h : popRegs s Config.calleeSaved.reverse with
  | error f => simp
  | ok u => cases k : retUnlink u <;> simp [k, @eq_comm _ t]

/-- Everything `ret` can raise. -/
theorem execRet_eq_fault_iff (f : Fault) :
    execRet s = .fault f ↔
      popRegs s Config.calleeSaved.reverse = .error f ∨
      ∃ u, popRegs s Config.calleeSaved.reverse = .ok u ∧ retUnlink u = .error f := by
  unfold execRet
  cases h : popRegs s Config.calleeSaved.reverse with
  | error e => simp
  | ok u => cases k : retUnlink u <;> simp [k]

end Sys2Proof.Machine
end

