-- ==== Sys2Proof/Tests/Slice0.lean ====
section
/-! SUPPORT. Tests. The expected results of the decode and step tests are those of spec/95_test_vectors.md
(the words of its L2 tables, its start states and its results); where a test comes from somewhere else
its comment says so. After them, for every statement with hypotheses, a concrete case that meets them. -/

namespace Sys2Proof.Tests

open Sys2Proof.Machine Sys2Proof.Claims

/-! ## Well-formedness: one ill-formed term for each check -/

theorem test_wf_accepts : (RunConfig.withDefaults 0x100 0x10 0x10 0x10 false).wf = true := by decide
theorem test_wf_text_not_whole : (RunConfig.withDefaults 0x100 6 0 0 false).textWhole = false := by decide
theorem test_wf_no_headroom : (RunConfig.withDefaults 0x38 0x10 0x10 0 false).headroom = false := by decide
theorem test_wf_zones_do_not_fit : (RunConfig.withDefaults 0x40 0x10 0x10 0x21 false).zonesFit = false := by decide
theorem test_wf_top_not_aligned : (RunConfig.withDefaults 0x104 0x10 0 0 false).topAligned = false := by decide
theorem test_wf_not_addressable : (RunConfig.withDefaults (2 ^ 64) 0 0 0 false).addressable = false := by decide
theorem test_wf_layouts_refused :
    (RunConfig.withDefaults 0x100 6 0 0 false).wf = false ∧
    (RunConfig.withDefaults 0x38 0x10 0x10 0 false).wf = false ∧
    (RunConfig.withDefaults 0x40 0x10 0x10 0x21 false).wf = false ∧
    (RunConfig.withDefaults 0x104 0x10 0 0 false).wf = false ∧
    (RunConfig.withDefaults (2 ^ 64) 0 0 0 false).wf = false := by decide
theorem test_roles_accepted : rolesWf Config.sp Config.fp Config.ra Config.calleeSaved = true := by decide
theorem test_roles_not_distinct : rolesWf 29 29 31 Config.calleeSaved = false := by decide
theorem test_roles_with_register_zero : rolesWf 29 0 31 Config.calleeSaved = false := by decide
theorem test_roles_too_few_saved : rolesWf 29 30 31 [16, 17, 18] = false := by decide
theorem test_codes_accepted : sysCodesWf Config.sysExit Config.sysGetchar Config.sysPutchar = true := by decide
theorem test_codes_not_distinct : sysCodesWf 0 1 1 = false := by decide
theorem test_codes_too_large : sysCodesWf 0 1 (2 ^ 64) = false := by decide

/-! ## Decoding -/

/-- A word decodes to an instruction, and is the word the encoder writes for it. -/
abbrev reads (w : InstrWord) (i : Instr) : Prop := decodeWord w = .ok i ∧ encode i = w

theorem test_decode_system :
    reads 0x00000000 (.nop) ∧
    reads 0x00000001 (.int) ∧
    reads 0x00000002 (.brk) := by decide

theorem test_decode_loads :
    reads 0x00401043 (.lb 1 2 0x2) ∧
    reads 0x00001044 (.lbu 1 2 0x0) ∧
    reads 0x00001045 (.lh 1 2 0x0) ∧
    reads 0x00001046 (.lhu 1 2 0x0) ∧
    reads 0x00801047 (.lw 1 2 0x4) ∧
    reads 0x00801048 (.lwu 1 2 0x4) ∧
    reads 0xFF001049 (.ld 1 2 0x7f8) := by decide

theorem test_decode_stores :
    reads 0x002010CA (.sb 3 2 0x1) ∧
    reads 0x000010CB (.sh 3 2 0x0) ∧
    reads 0x000010CC (.sw 3 2 0x0) ∧
    reads 0x000010CD (.sd 3 2 0x0) := by decide

theorem test_decode_moves :
    reads 0x123401CE (.lui 7 0x1234) ∧
    reads 0x0000190F (.mov 4 3) ∧
    reads 0x00000050 (.mfhi 1) ∧
    reads 0x00000051 (.mflo 1) := by decide

theorem test_decode_comparisons :
    reads 0x000208D2 (.slt 3 1 2) ∧
    reads 0x000208D3 (.sltu 3 1 2) ∧
    reads 0x000208D4 (.seq 3 1 2) ∧
    reads 0xFFFF08D5 (.slti 3 1 0xffff) ∧
    reads 0xFFFF08D6 (.sltiu 3 1 0xffff) ∧
    reads 0xFFFF08D7 (.seqi 3 1 0xffff) := by decide

theorem test_decode_bitwise :
    reads 0x000208D8 (.or 3 1 2) ∧
    reads 0x000208D9 (.and 3 1 2) ∧
    reads 0x000208DA (.xor 3 1 2) ∧
    reads 0x000208DB (.nor 3 1 2) ∧
    reads 0xFFFF00DC (.ori 3 0 0xffff) ∧
    reads 0xFFFF08DD (.andi 3 1 0xffff) ∧
    reads 0xFFFF08DE (.xori 3 1 0xffff) ∧
    reads 0x00FF08DF (.nori 3 1 0xff) := by decide

theorem test_decode_shifts :
    reads 0x000208E0 (.sll 3 1 2) ∧
    reads 0x000208E1 (.srl 3 1 2) ∧
    reads 0x001008E2 (.slli 3 1 0x10) ∧
    reads 0x003C08E3 (.srli 3 1 0x3c) := by decide

theorem test_decode_add_and_subtract :
    reads 0x000208E4 (.add 3 1 2) ∧
    reads 0x000208E5 (.sub 3 1 2) ∧
    reads 0x00050166 (.addi 5 0 0x5) ∧
    reads 0x00030867 (.subi 1 1 0x3) := by decide

theorem test_decode_multiply_and_divide :
    reads 0x00001068 (.mul 1 2) ∧
    reads 0x00001069 (.mulu 1 2) ∧
    reads 0x0000106A (.div 1 2) ∧
    reads 0x0000106B (.divu 1 2) := by decide

theorem test_decode_stack :
    reads 0x0000042C (.push 16) ∧
    reads 0x0000006D (.pushw 1) ∧
    reads 0x0000006E (.pop 1) ∧
    reads 0x000000AF (.popw 2) ∧
    reads 0x00000330 (.call 0x3) ∧
    reads 0x00000031 (.ret) := by decide

theorem test_decode_jumps :
    reads 0x00000332 (.j 0x3) ∧
    reads 0x000001F3 (.jr 7) ∧
    reads 0x00071074 (.beq 1 2 0x7) ∧
    reads 0x00001075 (.bne 1 2 0x0) := by decide

/-- R341: the ignored bits of each format, all set (hand calculation from R302, R303). -/
theorem test_decode_ignored_bits :
    decodeWord 0xFFFFFFC0 = .ok .nop ∧ decodeWord 0x003F1049 = .ok (.ld 1 2 1) ∧
    decodeWord 0x1234F9CE = .ok (.lui 7 0x1234) ∧ decodeWord 0xFFFFF9F3 = .ok (.jr 7) ∧
    decodeWord 0xFFFF1069 = .ok (.mulu 1 2) ∧ decodeWord 0x000003F2 = .ok (.j 3) := by decide

theorem test_decode_unassigned :
    decodeWord 0x00000036 = .error (.unassignedOpcode 0x36) ∧
    decodeWord 0xFFFFFFFF = .error (.unassignedOpcode 0x3F) := by decide

theorem test_decode_bytes :
    decodeBytes [0x66, 0x01, 0x05, 0x00, 0xAA] = .ok (.addi 5 0 5, [0xAA]) ∧
    decodeBytes [0x66, 0x01, 0x05] = .error .truncated := by decide

theorem test_decode_table_word :
    decodeTableWord 32 0x00050166 = some (.addi 5 0 5) ∧ decodeTableWord 8 0x00000002 = some .brk ∧
    decodeTableWord 32 0x00000036 = none := by decide

/-! ## Steps -/

/-- The bytes that the start states of spec/95_test_vectors.md L2 hold from 0x10 up. -/
def vecImage : List Byte :=
  [0x80, 0xFF, 0x34, 0x12, 0x78, 0x56, 0x34, 0x92, 0, 0, 0, 0, 0, 0, 0, 0, 0xA0, 0xA1, 0xA2, 0xA3,
    0xA4, 0xA5, 0xA6, 0xA7, 0xA8, 0xA9, 0xAA, 0xAB, 0xAC, 0xAD, 0xAE, 0xAF]

/-- The start state of spec/95_test_vectors.md L2: three zones of 0x10 bytes in an image of 0x100, a word
at the PC, and some registers. -/
def vec (w : Nat) (pc : Word) (regs : List (Reg × Word)) : State :=
  regs.foldl (fun s p => s.setReg p.1 p.2)
    (placeFetchWord { State.initial (RunConfig.withDefaults 0x100 0x10 0x10 0x10 false)
      (Memory.ofBytes 0x10 vecImage) with pc := pc } (BitVec.ofNat 32 w))

/-- The state with these bytes of memory from an address up. -/
def withBytes (s : State) : Nat → List Byte → State
  | _, [] => s
  | a, b :: bs => withBytes (s.setMem (s.mem.setByte a b)) (a + 1) bs

/-- What a function of the next state gives, where the step answers one. -/
def after {α : Type} (s : State) (f : State → α) : Option α :=
  match step s with
  | .next t => some (f t)
  | _ => none

theorem test_nop_advances :
    after (vec 0x00000000 0x8 []) (fun t => t.pc) = some 0xC := by decide
theorem test_int_getchar_eof :
    after ({ vec 0x00000001 0x0 [(2, 0x1), (5, 0x5555)] with input := [none] }) (fun t => (t.pc, t.getReg 5)) =
      some (0x4, 0xFFFFFFFFFFFFFFFF) := by decide
theorem test_int_selector_is_64_bits :
    after (vec 0x00000001 0x0 [(2, 0x100000002), (5, 0x41)]) (fun t => t.pc) = some 0x4 := by decide
theorem test_brk_without_debug :
    after (vec 0x00000002 0x4 []) (fun t => t.pc) = some 0x8 := by decide
theorem test_lb_extends_sign :
    after (vec 0x00001043 0x0 [(2, 0x10)]) (fun t => (t.pc, t.getReg 1)) =
      some (0x4, 0xFFFFFFFFFFFFFF80) := by decide
theorem test_lbu_last_byte :
    after (vec 0x00001044 0x0 [(2, 0xFF)]) (fun t => (t.pc, t.getReg 1)) =
      some (0x4, 0x0) := by decide
theorem test_lbu_text_is_not_readable :
    runOutcome (step (vec 0x01E00044 0x0 [])) = some (.fault 2 0xF 0x0) := by decide
theorem test_lh_extends_sign :
    after (vec 0x00001045 0x0 [(2, 0x10)]) (fun t => (t.pc, t.getReg 1)) =
      some (0x4, 0xFFFFFFFFFFFFFF80) := by decide
theorem test_lh_misaligned :
    runOutcome (step (vec 0x00201045 0x0 [(2, 0x10)])) = some (.fault 4 0x11 0x0) := by decide
theorem test_lhu_extends_zero :
    after (vec 0x00001046 0x0 [(2, 0x10)]) (fun t => (t.pc, t.getReg 1)) =
      some (0x4, 0xFF80) := by decide
theorem test_lw_extends_sign :
    after (vec 0x00801047 0x0 [(2, 0x10)]) (fun t => (t.pc, t.getReg 1)) =
      some (0x4, 0xFFFFFFFF92345678) := by decide
theorem test_lw_over_the_top :
    runOutcome (step (vec 0x00001047 0x0 [(2, 0xFE)])) = some (.fault 2 0xFE 0x0) := by decide
theorem test_lwu_extends_zero :
    after (vec 0x00801048 0x0 [(2, 0x10)]) (fun t => (t.pc, t.getReg 1)) =
      some (0x4, 0x92345678) := by decide
theorem test_ld_negative_offset :
    after (vec 0xFE001049 0x0 [(2, 0x20)]) (fun t => (t.pc, t.getReg 1)) =
      some (0x4, 0x923456781234FF80) := by decide
theorem test_ld_permission_before_alignment :
    runOutcome (step (vec 0x00001049 0x0 [(2, 0xFC)])) = some (.fault 2 0xFC 0x0) := by decide
theorem test_sb_low_byte :
    after (vec 0x002010CA 0x0 [(2, 0x10), (3, 0x1AB)]) (fun t => (t.pc, t.mem.read 0x11 1)) =
      some (0x4, 0xAB) := by decide
theorem test_sb_rodata :
    runOutcome (step (vec 0x000010CA 0x0 [(2, 0x20), (3, 0x77)])) = some (.fault 3 0x20 0x0) := by decide
theorem test_sh_low_bytes :
    after (vec 0x000010CB 0x0 [(2, 0x30), (3, 0xABCD)]) (fun t => (t.pc, t.mem.read 0x30 2)) =
      some (0x4, 0xABCD) := by decide
theorem test_sh_misaligned :
    runOutcome (step (vec 0x002010CB 0x0 [(2, 0x30), (3, 0xABCD)])) = some (.fault 4 0x31 0x0) := by decide
theorem test_sw_low_bytes :
    after (vec 0x000010CC 0x0 [(2, 0x34), (3, 0x1122334455667788)]) (fun t => (t.pc, t.mem.read 0x34 4)) =
      some (0x4, 0x55667788) := by decide
theorem test_sw_rodata :
    runOutcome (step (vec 0x000010CC 0x0 [(2, 0x20), (3, 0x1)])) = some (.fault 3 0x20 0x0) := by decide
theorem test_sd_below_the_top :
    after (vec 0xFF0010CD 0x0 [(2, 0x100), (3, 0x102030405060708)]) (fun t => (t.pc, t.mem.read 0xf8 8)) =
      some (0x4, 0x0102030405060708) := by decide
theorem test_sd_across_rodata :
    runOutcome (step (vec 0x000010CD 0x0 [(2, 0x1C), (3, 0x1)])) = some (.fault 3 0x1C 0x0) := by decide
theorem test_lui_extends_zero :
    after (vec 0xFFFF01CE 0x0 []) (fun t => (t.pc, t.getReg 7)) =
      some (0x4, 0xFFFF0000) := by decide
theorem test_lui_register_zero :
    after (vec 0x1234000E 0x0 []) (fun t => (t.pc, t.getReg 0)) =
      some (0x4, 0x0) := by decide
theorem test_mov :
    after (vec 0x0000190F 0x0 [(3, 0xDEADBEEF)]) (fun t => (t.pc, t.getReg 4)) =
      some (0x4, 0xDEADBEEF) := by decide
theorem test_mov_register_zero :
    after (vec 0x0000180F 0x0 [(3, 0xDEADBEEF)]) (fun t => (t.pc, t.getReg 0)) =
      some (0x4, 0x0) := by decide
theorem test_mfhi :
    after ({ vec 0x00000050 0x0 [] with hi := 0x2, lo := 0x3 }) (fun t => (t.pc, t.getReg 1)) =
      some (0x4, 0x2) := by decide
theorem test_mflo :
    after ({ vec 0x00000051 0x0 [] with hi := 0x2, lo := 0x3 }) (fun t => (t.pc, t.getReg 1)) =
      some (0x4, 0x3) := by decide
theorem test_slt_negative :
    after (vec 0x000208D2 0x0 [(1, 0xFFFFFFFFFFFFFFFF), (2, 0x1), (3, 0x5555)]) (fun t => (t.pc, t.getReg 3)) =
      some (0x4, 0x1) := by decide
theorem test_slt_extremes :
    after (vec 0x000208D2 0x0 [(1, 0x8000000000000000), (2, 0x7FFFFFFFFFFFFFFF), (3, 0x5555)]) (fun t => (t.pc, t.getReg 3)) =
      some (0x4, 0x1) := by decide
theorem test_sltu_large :
    after (vec 0x000208D3 0x0 [(1, 0xFFFFFFFFFFFFFFFF), (2, 0x1), (3, 0x5555)]) (fun t => (t.pc, t.getReg 3)) =
      some (0x4, 0x0) := by decide
theorem test_sltu_small :
    after (vec 0x000208D3 0x0 [(1, 0x1), (2, 0xFFFFFFFFFFFFFFFF), (3, 0x5555)]) (fun t => (t.pc, t.getReg 3)) =
      some (0x4, 0x1) := by decide
theorem test_seq_differ :
    after (vec 0x000208D4 0x0 [(1, 0x5), (2, 0x6), (3, 0x5555)]) (fun t => (t.pc, t.getReg 3)) =
      some (0x4, 0x0) := by decide
theorem test_seq_equal :
    after (vec 0x000000D4 0x0 [(3, 0x5555)]) (fun t => (t.pc, t.getReg 3)) =
      some (0x4, 0x1) := by decide
theorem test_slti_immediate_is_positive :
    after (vec 0xFFFF08D5 0x0 [(1, 0xFFFF), (3, 0x5555)]) (fun t => (t.pc, t.getReg 3)) =
      some (0x4, 0x0) := by decide
theorem test_slti_negative :
    after (vec 0x000008D5 0x0 [(1, 0xFFFFFFFFFFFFFFFF), (3, 0x5555)]) (fun t => (t.pc, t.getReg 3)) =
      some (0x4, 0x1) := by decide
theorem test_sltiu_large :
    after (vec 0xFFFF08D6 0x0 [(1, 0xFFFFFFFFFFFFFFFF), (3, 0x5555)]) (fun t => (t.pc, t.getReg 3)) =
      some (0x4, 0x0) := by decide
theorem test_sltiu_immediate_is_positive :
    after (vec 0xFFFF08D6 0x0 [(1, 0xFFFE), (3, 0x5555)]) (fun t => (t.pc, t.getReg 3)) =
      some (0x4, 0x1) := by decide
theorem test_seqi_immediate_is_zero_extended :
    after (vec 0xFFFF08D7 0x0 [(1, 0xFFFFFFFFFFFFFFFF), (3, 0x5555)]) (fun t => (t.pc, t.getReg 3)) =
      some (0x4, 0x0) := by decide
theorem test_seqi_source_is_destination :
    after (vec 0x00070857 0x0 [(1, 0x7)]) (fun t => (t.pc, t.getReg 1)) =
      some (0x4, 0x1) := by decide
theorem test_or :
    after (vec 0x000208D8 0x0 [(1, 0xF0), (2, 0xF)]) (fun t => (t.pc, t.getReg 3)) =
      some (0x4, 0xFF) := by decide
theorem test_and :
    after (vec 0x000208D9 0x0 [(1, 0xFF00FF), (2, 0xFF0F0)]) (fun t => (t.pc, t.getReg 3)) =
      some (0x4, 0xF00F0) := by decide
theorem test_xor :
    after (vec 0x000208DA 0x0 [(1, 0xFF), (2, 0xF)]) (fun t => (t.pc, t.getReg 3)) =
      some (0x4, 0xF0) := by decide
theorem test_nor :
    after (vec 0x000208DB 0x0 [(1, 0x0), (2, 0xFF)]) (fun t => (t.pc, t.getReg 3)) =
      some (0x4, 0xFFFFFFFFFFFFFF00) := by decide
theorem test_ori_extends_zero :
    after (vec 0xFFFF00DC 0x0 []) (fun t => (t.pc, t.getReg 3)) =
      some (0x4, 0xFFFF) := by decide
theorem test_andi_extends_zero :
    after (vec 0xFFFF08DD 0x0 [(1, 0xFFFFFFFFFFFFFFFF)]) (fun t => (t.pc, t.getReg 3)) =
      some (0x4, 0xFFFF) := by decide
theorem test_xori_extends_zero :
    after (vec 0xFFFF08DE 0x0 [(1, 0xFFFFFFFFFFFFFFFF)]) (fun t => (t.pc, t.getReg 3)) =
      some (0x4, 0xFFFFFFFFFFFF0000) := by decide
theorem test_nori_extends_zero :
    after (vec 0x00FF08DF 0x0 [(1, 0x0)]) (fun t => (t.pc, t.getReg 3)) =
      some (0x4, 0xFFFFFFFFFFFFFF00) := by decide
theorem test_sll_count_modulo_64 :
    after (vec 0x000208E0 0x0 [(1, 0x1), (2, 0x41)]) (fun t => (t.pc, t.getReg 3)) =
      some (0x4, 0x2) := by decide
theorem test_sll_all_one_register :
    after (vec 0x00010860 0x0 [(1, 0x2)]) (fun t => (t.pc, t.getReg 1)) =
      some (0x4, 0x8) := by decide
theorem test_srl_is_logical :
    after (vec 0x000208E1 0x0 [(1, 0xFFFFFFFFFFFFFFFF), (2, 0x1)]) (fun t => (t.pc, t.getReg 3)) =
      some (0x4, 0x7FFFFFFFFFFFFFFF) := by decide
theorem test_srl_count_modulo_64 :
    after (vec 0x000208E1 0x0 [(1, 0xFFFFFFFFFFFFFFFF), (2, 0x100)]) (fun t => (t.pc, t.getReg 3)) =
      some (0x4, 0xFFFFFFFFFFFFFFFF) := by decide
theorem test_slli_count_modulo_64 :
    after (vec 0xFFFF08E2 0x0 [(1, 0x1)]) (fun t => (t.pc, t.getReg 3)) =
      some (0x4, 0x8000000000000000) := by decide
theorem test_srli_is_logical :
    after (vec 0x003C08E3 0x0 [(1, 0xFFFFFFFFFFFFFFFF)]) (fun t => (t.pc, t.getReg 3)) =
      some (0x4, 0xF) := by decide
theorem test_srli_count_modulo_64 :
    after (vec 0x004008E3 0x0 [(1, 0xFFFFFFFFFFFFFFFF)]) (fun t => (t.pc, t.getReg 3)) =
      some (0x4, 0xFFFFFFFFFFFFFFFF) := by decide
theorem test_add_wraps :
    after (vec 0x000208E4 0x0 [(1, 0xFFFFFFFFFFFFFFFF), (2, 0x1), (3, 0x5555)]) (fun t => (t.pc, t.getReg 3)) =
      some (0x4, 0x0) := by decide
theorem test_sub_signed_border :
    after (vec 0x000208E5 0x0 [(1, 0x8000000000000000), (2, 0x1)]) (fun t => (t.pc, t.getReg 3)) =
      some (0x4, 0x7FFFFFFFFFFFFFFF) := by decide
theorem test_addi_extends_sign :
    after (vec 0x80000866 0x0 [(1, 0x0)]) (fun t => (t.pc, t.getReg 1)) =
      some (0x4, 0xFFFFFFFFFFFF8000) := by decide
theorem test_addi_register_zero :
    after (vec 0x00050026 0x0 []) (fun t => (t.pc, t.getReg 0)) =
      some (0x4, 0x0) := by decide
theorem test_subi_extends_sign :
    after (vec 0xFFFF0867 0x0 [(1, 0xFFFFFFFFFFFFFFFF)]) (fun t => (t.pc, t.getReg 1)) =
      some (0x4, 0x0) := by decide
theorem test_subi_lowest_immediate :
    after (vec 0x80000867 0x0 [(1, 0x0)]) (fun t => (t.pc, t.getReg 1)) =
      some (0x4, 0x8000) := by decide
theorem test_mul_signs_differ :
    after (vec 0x00001068 0x0 [(1, 0x3), (2, 0xFFFFFFFFFFFFFFFC)]) (fun t => (t.pc, t.hi, t.lo)) =
      some (0x4, 0xFFFFFFFFFFFFFFFF, 0xFFFFFFFFFFFFFFF4) := by decide
theorem test_mul_lowest_by_minus_one :
    after (vec 0x00001068 0x0 [(1, 0x8000000000000000), (2, 0xFFFFFFFFFFFFFFFF)]) (fun t => (t.pc, t.hi, t.lo)) =
      some (0x4, 0x0, 0x8000000000000000) := by decide
theorem test_mulu_largest :
    after (vec 0x00001069 0x0 [(1, 0xFFFFFFFFFFFFFFFF), (2, 0xFFFFFFFFFFFFFFFF)]) (fun t => (t.pc, t.hi, t.lo)) =
      some (0x4, 0xFFFFFFFFFFFFFFFE, 0x1) := by decide
theorem test_mulu_upper_half :
    after (vec 0x00001069 0x0 [(1, 0x8000000000000000), (2, 0x4)]) (fun t => (t.pc, t.hi, t.lo)) =
      some (0x4, 0x2, 0x0) := by decide
theorem test_div_rounds_toward_zero :
    after (vec 0x0000106A 0x0 [(1, 0xFFFFFFFFFFFFFFF9), (2, 0x2)]) (fun t => (t.pc, t.hi, t.lo)) =
      some (0x4, 0xFFFFFFFFFFFFFFFF, 0xFFFFFFFFFFFFFFFD) := by decide
theorem test_div_overflow :
    runOutcome (step (vec 0x0000106A 0x0 [(1, 0x8000000000000000), (2, 0xFFFFFFFFFFFFFFFF)])) = some (.fault 6 0x0 0x0) := by decide
theorem test_divu_is_unsigned :
    after (vec 0x0000106B 0x0 [(1, 0xFFFFFFFFFFFFFFF9), (2, 0x2)]) (fun t => (t.pc, t.hi, t.lo)) =
      some (0x4, 0x1, 0x7FFFFFFFFFFFFFFC) := by decide
theorem test_divu_by_zero :
    runOutcome (step (vec 0x0000006B 0x0 [(1, 0x5)])) = some (.fault 5 0x0 0x0) := by decide
theorem test_push_sp_is_the_old_value :
    after (vec 0x0000076C 0x0 [(29, 0x100)]) (fun t => (t.pc, t.getReg 29, t.mem.read 0xf8 8)) =
      some (0x4, 0xF8, 0x0000000000000100) := by decide
theorem test_push_rodata :
    runOutcome (step (vec 0x0000006C 0x0 [(29, 0x34), (1, 0x1)])) = some (.fault 3 0x2C 0x0) := by decide
theorem test_pushw_low_bytes :
    after (vec 0x0000006D 0x0 [(29, 0x100), (1, 0x1122334455667788)]) (fun t => (t.pc, t.getReg 29, t.mem.read 0xfc 4)) =
      some (0x4, 0xFC, 0x55667788) := by decide
theorem test_pushw_rodata :
    runOutcome (step (vec 0x0000006D 0x0 [(29, 0x32), (1, 0x1)])) = some (.fault 3 0x2E 0x0) := by decide
theorem test_pop_sp_is_the_loaded_value :
    after (withBytes (vec 0x0000076E 0x0 [(29, 0xF8)]) 0xf8 [0xC0, 0x00, 0x00, 0x00, 0x00, 0x00, 0x00, 0x00]) (fun t => (t.pc, t.getReg 29)) =
      some (0x4, 0xC0) := by decide
theorem test_pop_at_the_top :
    runOutcome (step (vec 0x0000006E 0x0 [(29, 0x100)])) = some (.fault 2 0x100 0x0) := by decide
theorem test_popw_extends_sign :
    after (withBytes (vec 0x000000AF 0x0 [(29, 0xFC)]) 0xfc [0x00, 0x00, 0x00, 0x80]) (fun t => (t.pc, t.getReg 2, t.getReg 29)) =
      some (0x4, 0xFFFFFFFF80000000, 0x100) := by decide
theorem test_popw_positive :
    after (withBytes (vec 0x000000AF 0x0 [(29, 0xFC)]) 0xfc [0x88, 0x77, 0x66, 0x55]) (fun t => (t.pc, t.getReg 2, t.getReg 29)) =
      some (0x4, 0x55667788, 0x100) := by decide
theorem test_j_to_an_unchecked_target :
    after (vec 0x00000432 0x0 []) (fun t => t.pc) = some 0x10 := by decide
theorem test_jr_to_an_unchecked_target :
    after (vec 0x000001F3 0x0 [(7, 0x6)]) (fun t => t.pc) = some 0x6 := by decide
theorem test_beq_taken :
    after (vec 0x00071074 0x0 [(1, 0x9), (2, 0x9)]) (fun t => t.pc) = some 0x1C := by decide
theorem test_beq_not_taken :
    after (vec 0x00071074 0x0 [(1, 0x9), (2, 0x8)]) (fun t => t.pc) = some 0x4 := by decide
theorem test_bne_farthest_target :
    after (vec 0xFFFF0075 0x0 [(1, 0x1)]) (fun t => t.pc) = some 0x3FFFC := by decide
theorem test_bne_not_taken :
    after (vec 0x00001075 0x8 [(1, 0x2), (2, 0x2)]) (fun t => t.pc) = some 0xC := by decide

/-- The image of run E2 of spec/95_test_vectors.md, with no data. -/
def frameState (w : Nat) (pc : Word) (regs : List (Reg × Word)) : State :=
  regs.foldl (fun s p => s.setReg p.1 p.2)
    (placeFetchWord { State.initial (RunConfig.withDefaults 0x100 0x10 0 0 false) [] with pc := pc }
      (BitVec.ofNat 32 w))

/-- Run E2's call, by hand from R761 and R765: SP 0x100 - 80, FP 0x100 - 16, RA the call's address. -/
theorem test_call_registers :
    after (frameState 0x00000330 0 [(31, 0x40)]) (fun t =>
      (t.pc, t.getReg 29, t.getReg 30, t.getReg 31)) = some (0xC, 0xB0, 0xF0, 0x0) := by decide
/-- The three top slots of that frame hold RA, FP and s0, by hand from R761. -/
theorem test_call_slots :
    after (frameState 0x00000330 0 [(31, 0x40), (16, 0x7)]) (fun t =>
      [0xF8, 0xF0, 0xF1, 0xE8].map t.mem.byte) = some [0x40, 0, 1, 7] := by decide
/-- Run E2's return, by hand from R766: SP plus 80, FP and RA from the two top slots, the old RA plus 4. -/
theorem test_ret_unwinds :
    after (withBytes (frameState 0x00000031 0xC [(29, 0xB0), (31, 0x8)]) 0xF0 [0, 1, 0, 0, 0, 0, 0, 0, 0x40])
      (fun t => (t.pc, t.getReg 29, t.getReg 30, t.getReg 31)) = some (0xC, 0x100, 0x100, 0x40) := by decide
/-- A return whose third read passes the top of the image (R210, R766). -/
theorem test_ret_third_slot :
    runOutcome (step (frameState 0x00000031 0xC [(29, 0xF0)])) = some (.fault 2 0x100 0xC) := by decide

/-- R704 under `wrap`: the quotient is -2^63 and the remainder 0. -/
theorem test_div_overflow_wraps :
    after { vec 0x0000106A 0 [(1, 0x8000000000000000), (2, 0xFFFFFFFFFFFFFFFF)] with
        cfg := { RunConfig.withDefaults 0x100 0x10 0x10 0x10 false with divOvfPolicy := .wrap } }
      (fun t => (t.hi, t.lo)) = some (0, 0x8000000000000000) := by decide
/-- R213 under `permit`: a misaligned load reads its bytes. -/
theorem test_misaligned_load_permitted :
    after { vec 0x00201045 0 [(2, 0x10)] with
        cfg := { RunConfig.withDefaults 0x100 0x10 0x10 0x10 false with alignPolicy := .permit } }
      (fun t => t.getReg 1) = some 0x34FF := by decide
/-- R312 with `TGT_SCALE = 1`. -/
theorem test_target_unscaled :
    after { vec 0x00000332 0 [] with
        cfg := { RunConfig.withDefaults 0x100 0x10 0x10 0x10 false with tgtScale := .one } }
      (fun t => t.pc) = some 3 := by decide

/-- L2.EXC: an unassigned opcode, a misaligned PC, and a PC at the end of text. -/
theorem test_fetch_faults :
    runOutcome (step (vec 0x00000036 4 [])) = some (.fault 7 4 4) ∧
    runOutcome (step (vec 0x00000000 6 [])) = some (.fault 1 6 6) ∧
    runOutcome (step { frameState 0 0 [] with pc := 0x10 }) = some (.fault 1 0x10 0x10) ∧
    runOutcome (step (State.initial (RunConfig.withDefaults 0x100 0 0 0 false) [])) = some (.fault 1 0 0) := by
  decide

/-- R154: with `DEBUG = 1`, `brk` pauses; the line `s` resumes with the single-step armed. -/
theorem test_pause_and_single_step :
    (fun t => (t.engine, t.stepArmed, t.pc, t.trace)) (runFrom 2 { vec 0x00000002 0 [] with
        cfg := RunConfig.withDefaults 0x100 0x10 0x10 0x10 true, commands := [['s']] }).2 =
      (.fetching, true, 4, [0]) := by decide

/-- The machine runs the word placed at the fetch as its first instruction after reset. -/
theorem test_placed_word_runs :
    after (State.reset.withFetchWord 32 0x00050166) (fun t => (t.getReg 5, t.pc)) = some (5, 4) := by decide

/-! ## The hypotheses of the statements can be met

For every statement with hypotheses, a concrete state and operands that meet them, for each clause at the
border of its range. -/

theorem completes {i : Instr} {s : State}
    (h : (match exec i s with | .next _ => true | _ => false) = true) : ∃ t, exec i s = .next t := by
  revert h
  cases exec i s <;> simp

theorem stops {i : Instr} {s : State}
    (h : (match exec i s with | .fault _ => true | _ => false) = true) : ∃ f, exec i s = .fault f := by
  revert h
  cases exec i s <;> simp

theorem steps {s : State} (h : (match step s with | .next _ => true | _ => false) = true) :
    ∃ t, step s = .next t := by
  revert h
  cases step s <;> simp

theorem readable_of {s : State} {a n : Nat} (h : readOk s.cfg a n = true) : Readable s a n :=
  (readOk_iff _ _ _).1 h

theorem not_readable_of {s : State} {a n : Nat} (h : readOk s.cfg a n = false) : ¬ Readable s a n :=
  fun k => absurd ((readOk_iff _ _ _).2 k) (by simp [h])

theorem writable_of {s : State} {a n : Nat} (h : writeOk s.cfg a n = true) : Writable s a n := by
  obtain ⟨h1, h2⟩ := (writeOk_iff _ _ _).1 h
  refine ⟨h1, fun b hb hn => (writableByte_iff _ _).1 ?_⟩
  have := h2 (b - a) (by omega)
  rwa [Nat.add_sub_cancel' hb] at this

theorem not_writable_of {s : State} {a n : Nat} (h : writeOk s.cfg a n = false) : ¬ Writable s a n := by
  rintro ⟨h1, h2⟩
  have := (writeOk_iff s.cfg a n).2
    ⟨h1, fun i hi => (writableByte_iff _ _).2 (h2 (a + i) (by omega) (by omega))⟩
  simp [h] at this

theorem aligned_of {s : State} {a n : Nat} (h : alignOk s.cfg a n = true) : Aligned s a n :=
  (alignOk_iff _ _ _).1 h

theorem not_aligned_of {s : State} {a n : Nat} (h : alignOk s.cfg a n = false) : ¬ Aligned s a n :=
  fun k => absurd ((alignOk_iff _ _ _).2 k) (by simp [h])

/-- Four instruction words of `nop` in an image with every zone, under `DEBUG`. -/
def nops : State := State.initial (RunConfig.withDefaults 0x100 0x10 0x10 0x10 true) []

/-- A paused machine with these command lines to come, and this SP. -/
def paused (lines : List CommandLine) (sp : Word) : State :=
  { nops.setReg Config.sp sp with engine := .debugPaused, commands := lines }

/-- Register 2 holds this address, register 3 a value. -/
def atAddress (a : Word) : State := vec 0 0 [(2, a), (3, 0x0102030405060708)]

/-- Decoding. -/
theorem witness_IgnoredBitsDoNotMatter :
    decodeWord 0x000003F2 = .ok (.j 3) ∧
    (0x00000332 : InstrWord) &&& usedMask (.j 3) = 0x000003F2 &&& usedMask (.j 3) := by decide

theorem witness_UnassignedOpcodesAreIllegal_first :
    let s := vec 0x00000036 0xC []
    s.engine = .fetching ∧ PcInText s ∧ 0x36 ≤ (fieldsOf (fetchWord s)).op.toNat :=
  ⟨by decide, ⟨by decide, by decide⟩, by decide⟩

theorem witness_UnassignedOpcodesAreIllegal_last :
    let s := vec 0xFFFFFFFF 0xC []
    s.engine = .fetching ∧ PcInText s ∧ (fieldsOf (fetchWord s)).op.toNat = 0x3F :=
  ⟨by decide, ⟨by decide, by decide⟩, by decide⟩

/-- The fetch and the step. -/
theorem witness_BadPcIsFatalAtFetch_end_of_text :
    let s := { nops with pc := 0x10 }
    s.engine = .fetching ∧ ¬ PcInText s := ⟨by decide, by rintro ⟨h, -⟩; revert h; decide⟩

theorem witness_BadPcIsFatalAtFetch_misaligned :
    let s := { nops with pc := 0xD }
    s.engine = .fetching ∧ ¬ PcInText s := ⟨by decide, by rintro ⟨-, h⟩; revert h; decide⟩

theorem witness_BadPcIsFatalAtFetch_last_word :
    let s := { nops with pc := 0xC }
    PcInText s ∧ s.cfg.textSize % 4 = 0 := ⟨⟨by decide, by decide⟩, by decide⟩

theorem witness_StepRunsTheDecodedInstruction :
    let s := vec 0x00050166 0xC []
    s.engine = .fetching ∧ PcInText s ∧ decodeBytes (bytesAtPc s) = .ok (.addi 5 0 5, []) :=
  ⟨by decide, ⟨by decide, by decide⟩, by decide⟩

theorem witness_NoStepAfterTheEnd :
    { nops with engine := .halted 7 }.engine = .halted 7 ∧
    { nops with engine := .dispatching }.engine = .dispatching ∧
    { nops with engine := .retiring }.engine = .retiring := by decide

theorem witness_RetiringZeroesRegisterZeroAndCounts :
    ∃ t, exec (.addi 0 0 5) nops = .next t := completes (by decide)

theorem witness_PauseExactlyAsRetiringSays_halt :
    let s := { vec 0 0 [(2, 0), (5, 9)] with cfg := nops.cfg, stepArmed := true }
    s.getReg Config.sel = 0 ∧ ∃ t, exec .int s = .next t := ⟨by decide, completes (by decide)⟩

theorem witness_PauseExactlyAsRetiringSays_brk :
    nops.cfg.debug = true ∧ nops.stepArmed = false ∧ ∃ t, exec .brk nops = .next t :=
  ⟨by decide, by decide, completes (by decide)⟩

theorem witness_PauseExactlyAsRetiringSays_armed :
    let s := { nops with stepArmed := true }
    s.cfg.debug = true ∧ ∃ t, exec .nop s = .next t := ⟨by decide, completes (by decide)⟩

theorem witness_PauseExactlyAsRetiringSays_fetching :
    nops.cfg.debug = true ∧ nops.stepArmed = false ∧ ∃ t, exec .nop nops = .next t :=
  ⟨by decide, by decide, completes (by decide)⟩

/-- The invariants. -/
theorem nops_invariant : Invariant nops where
  zero_register := by decide
  engine_between := by decide
  pause_debug := by decide
  armed_debug := by decide
  memory_canonical := by decide
  memory_inside := fun _ _ => rfl
  layout := by decide

theorem witness_EveryStepKeepsTheInvariant_fetching :
    Invariant nops ∧ ∃ t, step nops = .next t := ⟨nops_invariant, steps (by decide)⟩

theorem witness_EveryStepKeepsTheInvariant_paused :
    let s := paused [['s']] 0x100
    Invariant s ∧ ∃ t, step s = .next t := by
  refine ⟨?_, steps (by decide)⟩
  exact ⟨by decide, by decide, by decide, by decide, by decide, fun _ _ => rfl, by decide⟩

theorem witness_RunParametersAreFixed : ∃ t, step (paused [['c']] 0x100) = .next t := steps (by decide)

/-- A store to the last byte of data, one byte below read-only data. -/
theorem witness_TextAndRodataNeverChange :
    let s := vec 0x000010CA 0xC [(2, 0x1F), (3, 0x77)]
    (∃ t, Reaches s t ∧ s.mem.byte 0x1F ≠ 0x77) ∧ 0xF < s.cfg.textSize ∧
      s.cfg.textSize + s.cfg.dataSize ≤ 0x20 ∧
      0x2F < s.cfg.textSize + s.cfg.dataSize + s.cfg.rodataSize := by
  obtain ⟨t, ht⟩ := steps (s := vec 0x000010CA 0xC [(2, 0x1F), (3, 0x77)]) (by decide)
  exact ⟨⟨t, .step (.refl _) ht, by decide⟩, by decide, by decide, by decide⟩

theorem witness_OnlyMultiplyAndDivideWriteHiLo :
    isMulDiv .ret = false ∧ ∃ t, exec .ret (frameState 0 0 [(29, 0xB0)]) = .next t :=
  ⟨by decide, completes (by decide)⟩

theorem witness_OnlyMoveFromReadsHiLo_fault :
    readsHiLo (.divu 1 0) = false ∧ ∃ f, exec (.divu 1 0) nops = .fault f := ⟨by decide, stops (by decide)⟩

theorem witness_OnlyMoveFromReadsHiLo_next :
    readsHiLo (.mul 2 3) = false ∧ readsHiLo (.mov 2 3) = false ∧
    (∃ t, exec (.mul 2 3) (atAddress 5) = .next t) ∧ ∃ t, exec (.mov 2 3) (atAddress 5) = .next t :=
  ⟨by decide, by decide, completes (by decide), completes (by decide)⟩

theorem witness_OnlyStoresWriteMemory :
    writesMemory (.pop 1) = false ∧ ∃ t, exec (.pop 1) (vec 0 0 [(29, 0xF8)]) = .next t :=
  ⟨by decide, completes (by decide)⟩

theorem witness_RegistersOutsideTheDestinationsStay :
    (15 : Reg) ∉ changes .ret ∧ (24 : Reg) ∉ changes .ret ∧
      ∃ t, exec .ret (frameState 0 0 [(29, 0xB0)]) = .next t :=
  ⟨by decide, by decide, completes (by decide)⟩

theorem witness_DebugFlagDoesNotAffectExecution : ∃ t, exec .brk nops = .next t := completes (by decide)

theorem witness_TraceReportsEachRetiredInstruction :
    ∃ t, exec .nop { nops with trace := [8] } = .next t := completes (by decide)

theorem witness_PlacedWordIsTheNextInstruction :
    { nops with pc := 0x20 }.pc.toNat % 4 = 0 ∧ decodeTableWord 32 0x00050166 = some (.addi 5 0 5) := by
  decide

/-- The system instructions. -/
theorem witness_IntExitHaltsAndNothingElseDoes :
    let s := vec 0x00000001 0 [(2, 0), (5, 0xFFFFFFFFFFFFFFFF)]
    s.getReg Config.sel = 0 ∧
      (match step s with | .next t => t.engine | _ => .fetching) = .halted 0xFFFFFFFFFFFFFFFF := by
  decide

theorem witness_IntGetcharReceivesTheHostsAnswer :
    { vec 0 0 [(2, 1)] with input := [some 0xFF] }.getReg Config.sel = 1 ∧
    { vec 0 0 [(2, 1)] with inputEnded := true }.getReg Config.sel = 1 := by decide

theorem witness_HostAnswersAndLinesAreTakenInOrder :
    (paused [['s'], ['q']] 0).engine = .debugPaused ∧
    (paused [['s'], ['q']] 0).commands = ['s'] :: [['q']] ∧
    (paused [] 0).engine = .debugPaused ∧ (paused [] 0).commands = [] ∧
    { nops with input := [some 0x41, none] }.input = some 0x41 :: [none] ∧
    { nops with input := [none] }.input = none :: [] ∧
    { nops with inputEnded := true }.inputEnded = true ∧
    nops.inputEnded = false ∧ nops.input = [] := by decide

theorem witness_IntPutcharAppendsTheLowByte : (vec 0 0 [(2, 2), (5, 0x141)]).getReg Config.sel = 2 := by
  decide

theorem witness_IntWithAnotherSelectorOnlyAdvances :
    2 < ((vec 0 0 [(2, 3)]).getReg Config.sel).toNat ∧
    2 < ((vec 0 0 [(2, 0x100000002)]).getReg Config.sel).toNat := by decide

theorem witness_BreakpointPausesUnderDebug :
    State.reset.cfg.debug = false ∧ (paused [['s']] 0).engine = .debugPaused ∧
      ∃ t, step (paused [['s']] 0) = .next t := ⟨by decide, by decide, steps (by decide)⟩

/-- The pause. -/
theorem witness_PauseCommandsActAsListed :
    (paused [[], ['q']] 0).engine = .debugPaused ∧ (paused [[], ['q']] 0).commands = [] :: [['q']] ∧
    (paused [['c']] 0).commands = ['c'] :: [] ∧ (paused [['s']] 0).commands = ['s'] :: [] ∧
    (paused [['q']] 0).commands = ['q'] :: [] ∧ (paused [['r', 'd']] 0).commands = ['r', 'd'] :: [] := by
  decide

theorem witness_PauseCommandsActAsListed_op :
    let s := { paused [['o', 'p']] 0 with pc := 0xC }
    s.commands = ['o', 'p'] :: [] ∧ PcInText s := ⟨by decide, by decide, by decide⟩

theorem witness_PauseCommandsActAsListed_si :
    let s := paused [['s', 'i']] 0x101
    s.commands = ['s', 'i'] :: [] ∧ (s.getReg Config.gp).toNat < (s.getReg Config.sp).toNat := by decide

theorem witness_PauseCommandsActAsListed_unknown :
    (['c', ' '] : CommandLine) ∉
      ([[], ['c'], ['s'], ['q'], ['r', 'd'], ['o', 'p'], ['s', 'i']] : List CommandLine) ∧
    (paused [['c', ' ']] 0).commands = ['c', ' '] :: [] := by decide

theorem witness_StackDisplayShowsTheDoublewords :
    let s := paused [['s', 'i'], ['c']] 0xF0
    s.engine = .debugPaused ∧ s.commands = ['s', 'i'] :: [['c']] ∧
      (s.getReg Config.gp).toNat = s.cfg.memSize ∧
      (s.getReg Config.sp).toNat + 8 * 1 + 8 = (s.getReg Config.gp).toNat := by decide

/-- The first and the last readable access of each width. -/
theorem witness_LoadsReadAndExtend_completes :
    ∀ n ∈ [1, 2, 4, 8], ∀ a ∈ [0x10, 0x100 - n],
      let s := atAddress (BitVec.ofNat 64 a)
      Readable s (effAddr s 2 0).toNat n ∧ Aligned s (effAddr s 2 0).toNat n := by
  intro n hn a ha
  refine ⟨readable_of ?_, aligned_of ?_⟩ <;> revert n a <;> decide

/-- One access below data, one over the top, one past the end of the address space. -/
theorem witness_LoadsReadAndExtend_badRead :
    ∀ n ∈ [1, 2, 4, 8], ∀ a ∈ [0xF, 0x101 - n, 2 ^ 64 - n],
      let s := atAddress (BitVec.ofNat 64 a)
      ¬ Readable s (effAddr s 2 0).toNat n := by
  intro n hn a ha
  refine not_readable_of ?_
  revert n a
  decide

/-- A one-byte access is never misaligned. -/
theorem witness_LoadsReadAndExtend_misaligned :
    ∀ n ∈ [2, 4, 8],
      let s := atAddress 0x11
      Readable s (effAddr s 2 0).toNat n ∧ ¬ Aligned s (effAddr s 2 0).toNat n := by
  intro n hn
  refine ⟨readable_of ?_, not_aligned_of ?_⟩ <;> revert n <;> decide

/-- The first and the last writable access of data and of the free range, for each width. -/
theorem witness_StoresWriteTheLowBytes_completes :
    ∀ n ∈ [1, 2, 4, 8], ∀ a ∈ [0x10, 0x20 - n, 0x30, 0x100 - n],
      let s := atAddress (BitVec.ofNat 64 a)
      Writable s (effAddr s 2 0).toNat n ∧ Aligned s (effAddr s 2 0).toNat n := by
  intro n hn a ha
  refine ⟨writable_of ?_, aligned_of ?_⟩ <;> revert n a <;> decide

theorem witness_StoresWriteTheLowBytes_badWrite :
    ∀ n ∈ [1, 2, 4, 8], ∀ a ∈ [0xF, 0x21 - n, 0x2F, 0x101 - n],
      let s := atAddress (BitVec.ofNat 64 a)
      ¬ Writable s (effAddr s 2 0).toNat n := by
  intro n hn a ha
  refine not_writable_of ?_
  revert n a
  decide

theorem witness_StoresWriteTheLowBytes_misaligned :
    ∀ n ∈ [2, 4, 8],
      let s := atAddress 0x31
      Writable s (effAddr s 2 0).toNat n ∧ ¬ Aligned s (effAddr s 2 0).toNat n := by
  intro n hn
  refine ⟨writable_of ?_, not_aligned_of ?_⟩ <;> revert n <;> decide

theorem witness_LoadAfterStoreReadsTheStoredBytes :
    let s := atAddress 0xF8
    ∃ t, exec (.sd 3 2 0) s = .next t ∧
      (effAddr t 2 0).toNat = (effAddr s 2 0).toNat + 0 ∧
      (effAddr t 2 7).toNat = (effAddr s 2 0).toNat + 7 ∧ effAddr t 2 0 = effAddr s 2 0 := by
  refine ⟨(((atAddress 0xF8).setMem ((atAddress 0xF8).mem.write 0xF8 0x0102030405060708 8))).retireNext, ?_⟩
  refine ⟨by rfl, by decide, by decide, by decide⟩

/-- Multiply and divide. -/
theorem witness_SignedProductIsTheCorrectedUnsigned :
    let s := vec 0 0 [(1, 0xFFFFFFFFFFFFFFFF), (2, 0x8000000000000000)]
    (∃ t, exec (.mul 1 2) s = .next t) ∧ ∃ u, exec (.mulu 1 2) s = .next u :=
  ⟨completes (by decide), completes (by decide)⟩

theorem witness_UnsignedDivideGivesQuotientAndRemainder :
    (vec 0 0 [(2, 1)]).getReg 2 ≠ 0 ∧ (vec 0 0 [(2, 0)]).getReg 2 = 0 := by decide

theorem witness_SignedDivideRoundsTowardZero :
    let s := vec 0 0 [(1, 0x8000000000000000), (2, 0xFFFFFFFFFFFFFFFE), (3, 0xFFFFFFFFFFFFFFFF)]
    s.getReg 2 ≠ 0 ∧ ¬ ((s.getReg 1).toInt = -2 ^ 63 ∧ (s.getReg 2).toInt = -1) ∧ s.getReg 0 = 0 ∧
      (s.getReg 1).toInt = -2 ^ 63 ∧ (s.getReg 3).toInt = -1 ∧ s.cfg.divOvfPolicy = .fault ∧
      { s with cfg := { s.cfg with divOvfPolicy := .wrap } }.cfg.divOvfPolicy = .wrap := by decide

/-- The stack: the lowest and the highest free doubleword and word. -/
theorem witness_PushesWriteBelowSpAndMoveIt_completes :
    ∀ n ∈ [4, 8], ∀ sp ∈ [0x30 + n, 0x100],
      let s := vec 0 0 [(29, BitVec.ofNat 64 sp)]
      Writable s (pushAddr s n).toNat n ∧ Aligned s (pushAddr s n).toNat n := by
  intro n hn sp hs
  refine ⟨writable_of ?_, aligned_of ?_⟩ <;> revert n sp <;> decide

theorem witness_PushesWriteBelowSpAndMoveIt_faults :
    ∀ n ∈ [4, 8],
      ¬ Writable (vec 0 0 [(29, 0x30)]) (pushAddr (vec 0 0 [(29, 0x30)]) n).toNat n ∧
      ¬ Writable (vec 0 0 [(29, 0)]) (pushAddr (vec 0 0 [(29, 0)]) n).toNat n ∧
      Writable (vec 0 0 [(29, 0x41)]) (pushAddr (vec 0 0 [(29, 0x41)]) n).toNat n ∧
      ¬ Aligned (vec 0 0 [(29, 0x41)]) (pushAddr (vec 0 0 [(29, 0x41)]) n).toNat n := by
  intro n hn
  refine ⟨not_writable_of ?_, not_writable_of ?_, writable_of ?_, not_aligned_of ?_⟩ <;>
    revert n <;> decide

theorem witness_PopsReadAtSpAndMoveIt_completes :
    ∀ n ∈ [4, 8], ∀ sp ∈ [0x10, 0x100 - n],
      let s := vec 0 0 [(29, BitVec.ofNat 64 sp)]
      Readable s (s.getReg Config.sp).toNat n ∧ Aligned s (s.getReg Config.sp).toNat n := by
  intro n hn sp hs
  refine ⟨readable_of ?_, aligned_of ?_⟩ <;> revert n sp <;> decide

theorem witness_PopsReadAtSpAndMoveIt_faults :
    ∀ n ∈ [4, 8],
      ¬ Readable (vec 0 0 [(29, 0xC)]) ((vec 0 0 [(29, 0xC)]).getReg Config.sp).toNat n ∧
      ¬ Readable (vec 0 0 [(29, 0x100)]) ((vec 0 0 [(29, 0x100)]).getReg Config.sp).toNat n ∧
      Readable (vec 0 0 [(29, 0x12)]) ((vec 0 0 [(29, 0x12)]).getReg Config.sp).toNat n ∧
      ¬ Aligned (vec 0 0 [(29, 0x12)]) ((vec 0 0 [(29, 0x12)]).getReg Config.sp).toNat n := by
  intro n hn
  refine ⟨not_readable_of ?_, not_readable_of ?_, readable_of ?_, not_aligned_of ?_⟩ <;>
    revert n <;> decide

/-- A frame that ends at the lowest free address. -/
theorem witness_CallBuildsTheFrame :
    let s := vec 0 0 [(29, 0x80)]
    ∀ k, k < 10 → Writable s (callSlot s k).toNat 8 ∧ Aligned s (callSlot s k).toNat 8 := by
  intro s k hk
  refine ⟨writable_of ?_, aligned_of ?_⟩ <;> revert k <;> decide

/-- The first slot not writable, the first not aligned, and only the last not writable. -/
theorem witness_CallReportsTheFirstFailingSlot :
    ¬ Writable (vec 0 0 [(29, 0x30)]) (callSlot (vec 0 0 [(29, 0x30)]) 0).toNat 8 ∧
    Writable (vec 0 0 [(29, 0xFC)]) (callSlot (vec 0 0 [(29, 0xFC)]) 0).toNat 8 ∧
    ¬ Aligned (vec 0 0 [(29, 0xFC)]) (callSlot (vec 0 0 [(29, 0xFC)]) 0).toNat 8 :=
  ⟨not_writable_of (by decide), writable_of (by decide), not_aligned_of (by decide)⟩

theorem witness_CallReportsTheFirstFailingSlot_last :
    let s := vec 0 0 [(29, 0x78)]
    (∀ j, j < 9 → Writable s (callSlot s j).toNat 8 ∧ Aligned s (callSlot s j).toNat 8) ∧
      ¬ Writable s (callSlot s 9).toNat 8 := by
  refine ⟨fun j hj => ⟨writable_of ?_, aligned_of ?_⟩, not_writable_of (by decide)⟩ <;>
    revert j <;> decide

/-- A frame that ends at the top of the image. -/
theorem witness_RetUnwindsTheFrame :
    let s := vec 0 0 [(29, 0xB0)]
    ∀ k, k < 10 → Readable s (retSlot s k).toNat 8 ∧ Aligned s (retSlot s k).toNat 8 := by
  intro s k hk
  refine ⟨readable_of ?_, aligned_of ?_⟩ <;> revert k <;> decide

theorem witness_RetReportsTheFirstFailingSlot :
    ¬ Readable (vec 0 0 [(29, 0x100)]) (retSlot (vec 0 0 [(29, 0x100)]) 0).toNat 8 ∧
    Readable (vec 0 0 [(29, 0x14)]) (retSlot (vec 0 0 [(29, 0x14)]) 0).toNat 8 ∧
    ¬ Aligned (vec 0 0 [(29, 0x14)]) (retSlot (vec 0 0 [(29, 0x14)]) 0).toNat 8 :=
  ⟨not_readable_of (by decide), readable_of (by decide), not_aligned_of (by decide)⟩

theorem witness_RetReportsTheFirstFailingSlot_last :
    let s := vec 0 0 [(29, 0xB8)]
    (∀ j, j < 9 → Readable s (retSlot s j).toNat 8 ∧ Aligned s (retSlot s j).toNat 8) ∧
      ¬ Readable s (retSlot s 9).toNat 8 := by
  refine ⟨fun j hj => ⟨readable_of ?_, aligned_of ?_⟩, not_readable_of (by decide)⟩ <;>
    revert j <;> decide

/-- A callee that does nothing: the state the call leaves. -/
theorem witness_CallThenRetRestoresTheCaller :
    let s := vec 0 0 [(29, 0x80)]
    ∃ t u : State, exec (.call 3) s = .next t ∧ u.cfg = t.cfg ∧
      u.getReg Config.sp = t.getReg Config.sp ∧ u.getReg Config.ra = t.getReg Config.ra ∧
      ∀ k j, k < 10 → j < 8 →
        u.mem.byte ((callSlot s k).toNat + j) = t.mem.byte ((callSlot s k).toNat + j) := by
  obtain ⟨t, ht⟩ := completes (i := .call 3) (s := vec 0 0 [(29, 0x80)]) (by decide)
  exact ⟨t, t, ht, rfl, rfl, rfl, fun _ _ _ _ => rfl⟩

theorem witness_JumpRegisterIsCheckedAtTheNextFetch :
    let s := vec 0 0 [(7, 0x10), (8, 0xE)]
    (∃ t, exec (.jr 7) s = .next t) ∧ (∃ t, exec (.jr 8) s = .next t) ∧
      s.cfg.textSize ≤ (s.getReg 7).toNat ∧ (s.getReg 8).toNat % 4 ≠ 0 ∧
      (match exec (.jr 7) s with | .next t => t.engine | _ => .retiring) = .fetching :=
  ⟨completes (by decide), completes (by decide), by decide, by decide, by decide⟩

/-- The loader: a container with a symbol record and three zones, in the smallest image that holds it. -/
def sample : Container :=
  { records := [{ address := 0, name := [0x46] }], text := [0, 0, 0, 0], data := [1, 2, 3, 4]
    rodata := [5, 6, 7, 8, 9, 10, 11, 12] }

theorem witness_ResetValuesOverALoadedImage :
    3 < sample.text.length ∧ 3 < sample.data.length ∧ 7 < sample.rodata.length := by decide

theorem witness_ContainerBytesParseBack : sample.fits = true := by decide

theorem witness_TruncatedContainersAreRefused :
    sample.fits = true ∧ (containerBytes sample).length = 73 := by
  refine ⟨by decide, ?_⟩
  simp [containerBytes, sample, recordBytes]

theorem sample_accepted :
    ∃ s, loadContainer (RunConfig.withDefaults 0x10 0 0 0 false) (containerBytes sample) = .ok s := by
  have h (n : Nat) (k : n < 2 ^ 64) (rest : List Byte) := takeField_append n k rest
  have h0 := h Config.containerMagic.toNat Config.containerMagic.isLt
  simp only [loadContainer, parseContainer, containerBytes, List.append_assoc, bind, Except.bind, h0,
    h sample.records.length (by decide), h sample.text.length (by decide), h sample.data.length (by decide),
    h sample.rodata.length (by decide), if_true]
  exact ⟨_, rfl⟩

theorem witness_LoadedStatesMeetTheInvariant :
    ∃ s, loadContainer (RunConfig.withDefaults 0x10 0 0 0 false) (containerBytes sample) = .ok s :=
  sample_accepted

theorem witness_LoaderAcceptsExactlyTheCheckedContainers :
    (∃ s, loadContainer (RunConfig.withDefaults 0x10 0 0 0 false) (containerBytes sample) = .ok s) ∧
    ∃ bytes : List Byte, 8 ≤ bytes.length ∧ natOfBytes (bytes.take 8) ≠ Config.containerMagic.toNat := by
  refine ⟨sample_accepted, fieldBytes ((Config.containerMagic.toNat + 1) % 2 ^ 64), by simp, ?_⟩
  rw [List.take_of_length_le (by simp), natOfBytes_fieldBytes _ (Nat.mod_lt _ (by decide))]
  have := Config.containerMagic.isLt
  omega

end Sys2Proof.Tests
end

section
/-! The register frame of every instruction: one lemma per shared shape of the meanings, `push`, `pop`,
`call`, `ret` and `int` among them, and the statement over all instructions from these. -/

namespace Sys2Proof.Machine

section
variable {s t : State} {q : Reg}

/-! ## Instructions that write no register -/

theorem getReg_of_next_retireTo {pc : Word}
    (h : (.next (s.retireTo pc) : Host.Outcome State Fault Refusal) = .next t) :
    t.getReg q = s.getReg q := by
  obtain rfl := Host.Outcome.next.inj h
  exact State.getReg_retireTo s pc q

/-- The multiplications and divisions end this way (47_muldiv.md R700). -/
theorem getReg_of_next_setHiLo {hi lo : Word}
    (h : (.next (s.setHiLo hi lo).retireNext : Host.Outcome State Fault Refusal) = .next t) :
    t.getReg q = s.getReg q := by
  obtain rfl := Host.Outcome.next.inj h
  rw [State.getReg_retireNext, State.getReg_setHiLo]

theorem getReg_of_execDivu {rd rs1 : Reg} (h : execDivu rd rs1 s = .next t) :
    t.getReg q = s.getReg q := by
  simp only [execDivu] at h
  split at h
  · cases h
  · exact getReg_of_next_setHiLo h

theorem getReg_of_execDiv {rd rs1 : Reg} (h : execDiv rd rs1 s = .next t) :
    t.getReg q = s.getReg q := by
  simp only [execDiv] at h
  split at h
  · cases h
  · split at h
    · split at h
      · cases h
      · exact getReg_of_next_setHiLo h
    · exact getReg_of_next_setHiLo h

theorem getReg_of_storeWidth {n : Nat} {rd rs1 : Reg} {off : Off11}
    (h : storeWidth n rd rs1 off s = .next t) : t.getReg q = s.getReg q := by
  obtain ⟨-, -, rfl⟩ := (storeWidth_eq_next_iff ..).1 h
  rw [State.getReg_retireNext, State.getReg_setMem]

/-! ## Instructions with a destination -/

/-- Writing `rd` and retiring leaves every other register, whatever the value. -/
theorem getReg_setReg_retireNext {rd : Reg} (v : Word) (hq : q ≠ rd) :
    (s.setReg rd v).retireNext.getReg q = s.getReg q := by
  rw [State.getReg_retireNext, State.getReg_setReg_other _ _ _ _ hq]

theorem getReg_of_writeReg {rd : Reg} {v : Word} (h : writeReg s rd v = .next t) (hq : q ≠ rd) :
    t.getReg q = s.getReg q := by
  obtain rfl := Host.Outcome.next.inj h
  exact getReg_setReg_retireNext v hq

theorem getReg_of_loadWith {n : Nat} {widen : BitVec (8 * n) → Word} {rd rs1 : Reg} {off : Off11}
    (h : loadWith n widen rd rs1 off s = .next t) (hq : q ≠ rd) : t.getReg q = s.getReg q := by
  obtain ⟨-, -, rfl⟩ := (loadWith_eq_next_iff ..).1 h
  exact getReg_setReg_retireNext _ hq

/-- `int` writes ARG when SEL asks for GETCHAR, and no register otherwise (41_system.md R411 to R414). -/
theorem getReg_of_execInt (h : execInt s = .next t) (hq : q ≠ Config.arg) :
    t.getReg q = s.getReg q := by
  simp only [execInt] at h
  split at h
  · obtain rfl := Host.Outcome.next.inj h
    exact State.getReg_retireHalt s _ q
  · split at h
    · obtain rfl := Host.Outcome.next.inj h
      exact (getReg_setReg_retireNext _ hq).trans (getReg_hostIn s q)
    · split at h
      · obtain rfl := Host.Outcome.next.inj h
        exact State.getReg_retireNext _ q
      · exact getReg_of_next_retireTo h

/-! ## The stack (48_stack_call.md R750 to R766) -/

theorem getReg_of_push {n : Nat} {v : Word} (h : push s n v = .ok t) (hq : q ≠ Config.sp) :
    t.getReg q = s.getReg q := by
  obtain ⟨-, -, rfl⟩ := (push_eq_ok_iff ..).1 h
  rw [State.getReg_setReg_other _ _ _ _ hq, State.getReg_setMem]

theorem getReg_of_pop {n : Nat} {v : BitVec (8 * n)} (h : pop s n = .ok (v, t)) (hq : q ≠ Config.sp) :
    t.getReg q = s.getReg q := by
  obtain ⟨-, -, -, rfl⟩ := (pop_eq_ok_iff ..).1 h
  exact State.getReg_setReg_other _ _ _ _ hq

theorem getReg_of_pushWidth {n : Nat} {rd : Reg} (h : pushWidth n rd s = .next t)
    (hq : q ≠ Config.sp) : t.getReg q = s.getReg q := by
  obtain ⟨u, hu, rfl⟩ := (pushWidth_eq_next_iff ..).1 h
  rw [State.getReg_retireNext, getReg_of_push hu hq]

theorem getReg_of_popWidth {n : Nat} {rd : Reg} (h : popWidth n rd s = .next t) (hd : q ≠ rd)
    (hq : q ≠ Config.sp) : t.getReg q = s.getReg q := by
  obtain ⟨v, u, hu, rfl⟩ := (popWidth_eq_next_iff ..).1 h
  rw [getReg_setReg_retireNext _ hd, getReg_of_pop hu hq]

theorem getReg_of_callLink (h : callLink s = .ok t) (hsp : q ≠ Config.sp) (hfp : q ≠ Config.fp)
    (hra : q ≠ Config.ra) : t.getReg q = s.getReg q := by
  obtain ⟨u, v, hu, hv, rfl⟩ := (callLink_eq_ok_iff ..).1 h
  rw [State.getReg_setReg_other _ _ _ _ hfp, State.getReg_setReg_other _ _ _ _ hra,
    getReg_of_push hv hsp, getReg_of_push hu hsp]

theorem getReg_of_retUnlink (h : retUnlink s = .ok t) (hsp : q ≠ Config.sp) (hfp : q ≠ Config.fp)
    (hra : q ≠ Config.ra) : t.getReg q = s.getReg q := by
  obtain ⟨v, u, w, x, hu, hx, rfl⟩ := (retUnlink_eq_ok_iff ..).1 h
  rw [State.getReg_setReg_other _ _ _ _ hra, getReg_of_pop hx hsp,
    State.getReg_setReg_other _ _ _ _ hfp, getReg_of_pop hu hsp]

/-- `call` only reads the callee-saved registers: of the registers it moves SP, FP and RA (R765). -/
theorem getReg_of_execCall {target : Target24} (h : execCall target s = .next t)
    (hsp : q ≠ Config.sp) (hfp : q ≠ Config.fp) (hra : q ≠ Config.ra) :
    t.getReg q = s.getReg q := by
  obtain ⟨u, v, hu, hv, rfl⟩ := (execCall_eq_next_iff ..).1 h
  obtain ⟨-, hregs, -, -⟩ := pushRegs_frame _ _ _ hv
  rw [State.getReg_retireTo, hregs q hsp, getReg_of_callLink hu hsp hfp hra]

theorem getReg_of_execRet (h : execRet s = .next t) (hsp : q ≠ Config.sp) (hfp : q ≠ Config.fp)
    (hra : q ≠ Config.ra) (hs : q ∉ Config.calleeSaved) : t.getReg q = s.getReg q := by
  obtain ⟨u, v, hu, hv, rfl⟩ := (execRet_eq_next_iff ..).1 h
  obtain ⟨-, -, hregs⟩ := popRegs_frame _ _ _ hu
  have hrev : q ∉ Config.calleeSaved.reverse := mt List.mem_reverse.1 hs
  rw [State.getReg_retireTo, getReg_of_retUnlink hv hsp hfp hra, hregs q hsp hrev]

end

end Sys2Proof.Machine

namespace Sys2Proof.Proofs

open Sys2Proof.Machine Sys2Proof.Claims

/-- Settles O20: each instruction has one of the shapes above, and `changes` lists exactly the registers
that shape's frame lemma excepts. -/
theorem registersOutsideTheDestinationsStay : Obligations.RegistersOutsideTheDestinationsStay := by
  intro i s t q h hq
  cases i with
  | nop | j _ | jr _ | beq _ _ _ | bne _ _ _ => exact getReg_of_next_retireTo h
  | brk =>
    obtain rfl := Host.Outcome.next.inj h
    exact State.getReg_retireBrk s q
  | mul _ _ | mulu _ _ => exact getReg_of_next_setHiLo h
  | div _ _ => exact getReg_of_execDiv h
  | divu _ _ => exact getReg_of_execDivu h
  | sb _ _ _ | sh _ _ _ | sw _ _ _ | sd _ _ _ => exact getReg_of_storeWidth h
  | lb _ _ _ | lbu _ _ _ | lh _ _ _ | lhu _ _ _ | lw _ _ _ | lwu _ _ _ | ld _ _ _ =>
    exact getReg_of_loadWith h (List.ne_of_not_mem_cons hq)
  | lui _ _ | mov _ _ | mfhi _ | mflo _
  | slt _ _ _ | sltu _ _ _ | seq _ _ _ | slti _ _ _ | sltiu _ _ _ | seqi _ _ _
  | or _ _ _ | and _ _ _ | xor _ _ _ | nor _ _ _ | ori _ _ _ | andi _ _ _ | xori _ _ _ | nori _ _ _
  | sll _ _ _ | srl _ _ _ | slli _ _ _ | srli _ _ _
  | add _ _ _ | sub _ _ _ | addi _ _ _ | subi _ _ _ =>
    exact getReg_of_writeReg h (List.ne_of_not_mem_cons hq)
  | int => exact getReg_of_execInt h (List.ne_of_not_mem_cons hq)
  | push _ | pushw _ => exact getReg_of_pushWidth h (List.ne_of_not_mem_cons hq)
  | pop _ | popw _ =>
    obtain ⟨hd, hsp⟩ := List.ne_and_not_mem_of_not_mem_cons hq
    exact getReg_of_popWidth h hd (List.ne_of_not_mem_cons hsp)
  | call _ =>
    obtain ⟨hsp, hfp, hra⟩ : q ≠ Config.sp ∧ q ≠ Config.fp ∧ q ≠ Config.ra := by
      simpa [changes] using hq
    exact getReg_of_execCall h hsp hfp hra
  | ret =>
    obtain ⟨hsp, hfp, hra, hs⟩ :
        q ≠ Config.sp ∧ q ≠ Config.fp ∧ q ≠ Config.ra ∧ q ∉ Config.calleeSaved := by
      simpa [changes] using hq
    exact getReg_of_execRet h hsp hfp hra hs

end Sys2Proof.Proofs
end

section
/-! Execute said once for two runs (10_state.md R150): from two related states an instruction makes the same
checks, and ends in related states, for every relation that the operations of Execute keep. Relating a
state to a copy with one field changed gives a noninterference statement; relating it to itself under a
fact about it gives a frame. -/

namespace Sys2Proof.Machine

open Sys2Proof.Claims

/-- `R` relates only states that Execute cannot tell apart, and every operation of Execute keeps it. `hi`
and `lo` are left out: only the instructions of R110 see them. -/
structure ExecuteRelation (R : State → State → Prop) : Prop where
  x : ∀ {s s'}, R s s' → s'.x = s.x
  pc : ∀ {s s'}, R s s' → s'.pc = s.pc
  mem : ∀ {s s'}, R s s' → s'.mem = s.mem
  cfg : ∀ {s s'}, R s s' → s'.cfg = { s.cfg with debug := s'.cfg.debug }
  input : ∀ {s s'}, R s s' → s'.input = s.input
  inputEnded : ∀ {s s'}, R s s' → s'.inputEnded = s.inputEnded
  draws : ∀ {s s'}, R s s' → s'.draws = s.draws
  setReg : ∀ {s s'} (r : Reg) (v : Word), R s s' → R (s.setReg r v) (s'.setReg r v)
  write : ∀ {s s'} (a n : Nat) (v : Word), R s s' → writeOk s.cfg a n = true →
    R (s.setMem (s.mem.write a v n)) (s'.setMem (s.mem.write a v n))
  listedAnswer : ∀ {s s'} (rest : List (Option Byte)) (ended : Bool), R s s' →
    R { s with input := rest, inputEnded := ended } { s' with input := rest, inputEnded := ended }
  freeAnswer : ∀ {s s'} (draws : Nat) (ended : Bool), R s s' →
    R { s with draws := draws, inputEnded := ended } { s' with draws := draws, inputEnded := ended }
  hostOut : ∀ {s s'} (b : Byte), R s s' → R (s.hostOut b) (s'.hostOut b)

/-- Both answers are related, or both are the same fault. -/
def AnswersAlike {α : Type} (R : α → α → Prop) (o o' : Except Fault α) : Prop :=
  (∃ a a', o = .ok a ∧ o' = .ok a' ∧ R a a') ∨ ∃ f, o = .error f ∧ o' = .error f

theorem AnswersAlike.of_ok {α : Type} {R : α → α → Prop} {a a' : α} (h : R a a') :
    AnswersAlike R (.ok a) (.ok a') :=
  .inl ⟨a, a', rfl, rfl, h⟩

theorem AnswersAlike.of_error {α : Type} {R : α → α → Prop} (f : Fault) :
    AnswersAlike R (.error f) (.error f) :=
  .inr ⟨f, rfl, rfl⟩

/-- A popped value with the state after it: the same value, and related states. -/
def SameValue {α : Type} (R : State → State → Prop) (p p' : α × State) : Prop :=
  p'.1 = p.1 ∧ R p.2 p'.2

/-- Both runs retire with the same successor from related states, or raise the same fault. -/
def RetiresAlike (R : State → State → Prop) (o o' : Host.Outcome State Fault Refusal) : Prop :=
  (∃ u u' pc, o = .next (u.retireTo pc) ∧ o' = .next (u'.retireTo pc) ∧ R u u') ∨
    ∃ f, o = .fault f ∧ o' = .fault f

theorem RetiresAlike.of_fault {R : State → State → Prop} (f : Fault) :
    RetiresAlike R (.fault f) (.fault f) :=
  .inr ⟨f, rfl, rfl⟩

/-! ## The host's answers, case by case (70_reset_and_hazards.md R1021) -/

theorem hostIn_listed {s : State} {a : Option Byte} {rest : List (Option Byte)}
    (he : s.inputEnded = false) (hi : s.input = a :: rest) :
    hostIn s = (a, { s with input := rest, inputEnded := a.isNone }) := by
  simp [hostIn, he, hi]

theorem hostIn_free {s : State} (he : s.inputEnded = false) (hi : s.input = []) :
    hostIn s = (Config.hostAnswer s.draws,
      { s with draws := s.draws + 1, inputEnded := (Config.hostAnswer s.draws).isNone }) := by
  simp [hostIn, he, hi]

namespace ExecuteRelation

section
variable {R : State → State → Prop} (hR : ExecuteRelation R) {s s' : State} (hs : R s s')
include hR hs

/-! ## What both runs read -/

theorem getReg_eq (q : Reg) : s'.getReg q = s.getReg q := by
  simp only [State.getReg, hR.x hs]

theorem readOk_eq (a n : Nat) : readOk s'.cfg a n = readOk s.cfg a n := by
  rw [hR.cfg hs]; rfl

theorem writeOk_eq (a n : Nat) : writeOk s'.cfg a n = writeOk s.cfg a n := by
  rw [hR.cfg hs]; rfl

theorem alignOk_eq (a n : Nat) : alignOk s'.cfg a n = alignOk s.cfg a n := by
  rw [hR.cfg hs]; rfl

theorem divOvfPolicy_eq : s'.cfg.divOvfPolicy = s.cfg.divOvfPolicy := by
  rw [hR.cfg hs]

theorem effAddr_eq (rs1 : Reg) (off : Off11) : effAddr s' rs1 off = effAddr s rs1 off := by
  simp only [effAddr, hR.getReg_eq hs]

theorem pushAddr_eq (n : Nat) : pushAddr s' n = pushAddr s n := by
  simp only [pushAddr, hR.getReg_eq hs]

theorem nextPc_eq : s'.nextPc = s.nextPc := by
  simp only [State.nextPc, hR.pc hs]

theorem jumpTarget_eq (target : Target24) : jumpTarget s' target = jumpTarget s target := by
  rw [jumpTarget, hR.cfg hs]; rfl

theorem branchTarget_eq (imm : Imm16) : branchTarget s' imm = branchTarget s imm := by
  rw [branchTarget, hR.cfg hs]; rfl

theorem memRead_eq (a : Word) (n : Nat) : memRead s' a n = memRead s a n := by
  simp only [memRead, raise, hR.readOk_eq hs, hR.alignOk_eq hs, hR.mem hs, hR.pc hs]

/-! ## The operations that can fail -/

theorem memWrite_alike (a : Word) (n : Nat) (v : Word) :
    AnswersAlike R (memWrite s a n v) (memWrite s' a n v) := by
  simp only [memWrite, raise, hR.writeOk_eq hs, hR.alignOk_eq hs, hR.mem hs, hR.pc hs]
  split
  · rename_i hw
    split
    · exact .of_ok (hR.write _ _ _ hs hw)
    · exact .of_error _
  · exact .of_error _

theorem push_alike (n : Nat) (v : Word) : AnswersAlike R (push s n v) (push s' n v) := by
  simp only [push, hR.pushAddr_eq hs]
  obtain ⟨u, u', h, h', hu⟩ | ⟨f, h, h'⟩ := hR.memWrite_alike hs (pushAddr s n) n v
  · simp only [h, h']
    exact .of_ok (hR.setReg _ _ hu)
  · simpa only [h, h'] using .of_error f

theorem pop_alike (n : Nat) : AnswersAlike (SameValue R) (pop s n) (pop s' n) := by
  simp only [pop, hR.getReg_eq hs, hR.memRead_eq hs]
  split
  · exact .of_ok ⟨rfl, hR.setReg _ _ hs⟩
  · exact .of_error _

theorem pushRegs_alike (rs : List Reg) : AnswersAlike R (pushRegs s rs) (pushRegs s' rs) := by
  induction rs generalizing s s' with
  | nil => exact .of_ok hs
  | cons r rs ih =>
    simp only [pushRegs, hR.getReg_eq hs]
    obtain ⟨u, u', h, h', hu⟩ | ⟨f, h, h'⟩ := hR.push_alike hs 8 (s.getReg r)
    · simp only [h, h']
      exact ih hu
    · simpa only [h, h'] using .of_error f

theorem popRegs_alike (rs : List Reg) : AnswersAlike R (popRegs s rs) (popRegs s' rs) := by
  induction rs generalizing s s' with
  | nil => exact .of_ok hs
  | cons r rs ih =>
    simp only [popRegs]
    obtain ⟨⟨_, u⟩, ⟨v, u'⟩, h, h', rfl, hu⟩ | ⟨f, h, h'⟩ := hR.pop_alike hs 8
    · simp only [h, h']
      exact ih (hR.setReg _ _ hu)
    · simpa only [h, h'] using .of_error f

theorem callLink_alike : AnswersAlike R (callLink s) (callLink s') := by
  simp only [callLink, hR.getReg_eq hs]
  obtain ⟨u, u', h, h', hu⟩ | ⟨f, h, h'⟩ := hR.push_alike hs 8 (s.getReg Config.ra)
  · simp only [h, h', hR.getReg_eq hu]
    obtain ⟨w, w', h, h', hw⟩ | ⟨f, h, h'⟩ := hR.push_alike hu 8 (u.getReg Config.fp)
    · simp only [h, h', hR.pc hw]
      have hra := hR.setReg Config.ra w.pc hw
      rw [hR.getReg_eq hra]
      exact .of_ok (hR.setReg _ _ hra)
    · simpa only [h, h'] using .of_error f
  · simpa only [h, h'] using .of_error f

theorem retUnlink_alike : AnswersAlike R (retUnlink s) (retUnlink s') := by
  simp only [retUnlink]
  obtain ⟨⟨_, u⟩, ⟨v, u'⟩, h, h', rfl, hu⟩ | ⟨f, h, h'⟩ := hR.pop_alike hs 8
  · simp only [h, h']
    obtain ⟨⟨_, w⟩, ⟨_, w'⟩, h, h', rfl, hw⟩ | ⟨f, h, h'⟩ :=
      hR.pop_alike (hR.setReg Config.fp v hu) 8
    · simp only [h, h']
      exact .of_ok (hR.setReg _ _ hw)
    · simpa only [h, h'] using .of_error f
  · simpa only [h, h'] using .of_error f

theorem hostIn_alike : SameValue R (hostIn s) (hostIn s') := by
  cases he : s.inputEnded with
  | true =>
    rw [hostIn_ended s he, hostIn_ended s' ((hR.inputEnded hs).trans he)]
    exact ⟨rfl, hs⟩
  | false =>
    have he' := (hR.inputEnded hs).trans he
    cases hi : s.input with
    | cons a rest =>
      rw [hostIn_listed he hi, hostIn_listed he' ((hR.input hs).trans hi)]
      exact ⟨rfl, hR.listedAnswer _ _ hs⟩
    | nil =>
      rw [hostIn_free he hi, hostIn_free he' ((hR.input hs).trans hi), hR.draws hs]
      exact ⟨rfl, hR.freeAnswer _ _ hs⟩

/-! ## The shared shapes of the meanings -/

omit hR in
theorem retireTo_alike {pc pc' : Word} (hpc : pc' = pc) :
    RetiresAlike R (.next (s.retireTo pc)) (.next (s'.retireTo pc')) :=
  .inl ⟨s, s', pc, rfl, by rw [hpc], hs⟩

theorem retireNext_alike : RetiresAlike R (.next s.retireNext) (.next s'.retireNext) :=
  retireTo_alike hs (hR.nextPc_eq hs)

theorem writeReg_alike (rd : Reg) {v v' : Word} (hv : v' = v) :
    RetiresAlike R (writeReg s rd v) (writeReg s' rd v') :=
  hv ▸ hR.retireNext_alike (hR.setReg rd v' hs)

theorem loadWith_alike (n : Nat) (widen : BitVec (8 * n) → Word) (rd rs1 : Reg) (off : Off11) :
    RetiresAlike R (loadWith n widen rd rs1 off s) (loadWith n widen rd rs1 off s') := by
  simp only [loadWith, hR.effAddr_eq hs, hR.memRead_eq hs]
  split
  · exact hR.retireNext_alike (hR.setReg _ _ hs)
  · exact .of_fault _

theorem storeWidth_alike (n : Nat) (rd rs1 : Reg) (off : Off11) :
    RetiresAlike R (storeWidth n rd rs1 off s) (storeWidth n rd rs1 off s') := by
  simp only [storeWidth, hR.effAddr_eq hs, hR.getReg_eq hs]
  obtain ⟨u, u', h, h', hu⟩ | ⟨f, h, h'⟩ := hR.memWrite_alike hs (effAddr s rs1 off) n (s.getReg rd)
  · simp only [h, h']
    exact hR.retireNext_alike hu
  · simpa only [h, h'] using .of_fault f

theorem pushWidth_alike (n : Nat) (rd : Reg) :
    RetiresAlike R (pushWidth n rd s) (pushWidth n rd s') := by
  simp only [pushWidth, hR.getReg_eq hs]
  obtain ⟨u, u', h, h', hu⟩ | ⟨f, h, h'⟩ := hR.push_alike hs n (s.getReg rd)
  · simp only [h, h']
    exact hR.retireNext_alike hu
  · simpa only [h, h'] using .of_fault f

theorem popWidth_alike (n : Nat) (rd : Reg) :
    RetiresAlike R (popWidth n rd s) (popWidth n rd s') := by
  simp only [popWidth]
  obtain ⟨⟨_, u⟩, ⟨v, u'⟩, h, h', rfl, hu⟩ | ⟨f, h, h'⟩ := hR.pop_alike hs n
  · simp only [h, h']
    exact hR.retireNext_alike (hR.setReg _ _ hu)
  · simpa only [h, h'] using .of_fault f

theorem execCall_alike (target : Target24) :
    RetiresAlike R (execCall target s) (execCall target s') := by
  simp only [execCall]
  obtain ⟨u, u', h, h', hu⟩ | ⟨f, h, h'⟩ := hR.callLink_alike hs
  · simp only [h, h']
    obtain ⟨w, w', h, h', hw⟩ | ⟨f, h, h'⟩ := hR.pushRegs_alike hu Config.calleeSaved
    · simp only [h, h']
      exact retireTo_alike hw (hR.jumpTarget_eq hs target)
    · simpa only [h, h'] using .of_fault f
  · simpa only [h, h'] using .of_fault f

theorem execRet_alike : RetiresAlike R (execRet s) (execRet s') := by
  simp only [execRet]
  obtain ⟨u, u', h, h', hu⟩ | ⟨f, h, h'⟩ := hR.popRegs_alike hs Config.calleeSaved.reverse
  · simp only [h, h']
    obtain ⟨w, w', h, h', hw⟩ | ⟨f, h, h'⟩ := hR.retUnlink_alike hu
    · simp only [h, h']
      exact retireTo_alike hw (by rw [hR.getReg_eq hu])
    · simpa only [h, h'] using .of_fault f
  · simpa only [h, h'] using .of_fault f

/-- `int` with a selector other than EXIT (41_system.md R412 to R414). -/
theorem execInt_alike (hsel : s.getReg Config.sel ≠ 0) : RetiresAlike R (execInt s) (execInt s') := by
  have hexit : (s.getReg Config.sel).toNat ≠ Config.sysExit := by
    simpa [Config.sysExit, BitVec.toNat_eq] using hsel
  simp only [execInt, hR.getReg_eq hs, if_neg hexit]
  split
  · obtain ⟨hanswer, hin⟩ := hR.hostIn_alike hs
    simp only [syscallGetchar, hanswer]
    exact hR.retireNext_alike (hR.setReg _ _ hin)
  · split
    · simp only [syscallPutchar, hR.getReg_eq hs]
      exact hR.retireNext_alike (hR.hostOut _ hs)
    · exact hR.retireNext_alike hs

theorem execDivu_alike (hwrite : ∀ h l, R (s.setHiLo h l) (s'.setHiLo h l)) (rd rs1 : Reg) :
    RetiresAlike R (execDivu rd rs1 s) (execDivu rd rs1 s') := by
  simp only [execDivu, raise, hR.getReg_eq hs, hR.pc hs]
  split
  · exact .of_fault _
  · exact hR.retireNext_alike (hwrite _ _)

theorem execDiv_alike (hwrite : ∀ h l, R (s.setHiLo h l) (s'.setHiLo h l)) (rd rs1 : Reg) :
    RetiresAlike R (execDiv rd rs1 s) (execDiv rd rs1 s') := by
  simp only [execDiv, raise, hR.getReg_eq hs, hR.pc hs, hR.divOvfPolicy_eq hs]
  split
  · exact .of_fault _
  · split
    · split
      · exact .of_fault _
      · exact hR.retireNext_alike (hwrite _ _)
    · exact hR.retireNext_alike (hwrite _ _)

/-! ## Every instruction -/

/-- Every instruction but `brk` and the exiting `int`, which retire another way, does the same from two
related states. -/
theorem exec_alike {i : Instr} (hbrk : i ≠ .brk) (hexit : i = .int → s.getReg Config.sel ≠ 0)
    (hread : readsHiLo i = true → s'.hi = s.hi ∧ s'.lo = s.lo)
    (hwrite : isMulDiv i = true → ∀ h l, R (s.setHiLo h l) (s'.setHiLo h l)) :
    RetiresAlike R (exec i s) (exec i s') := by
  cases i with
  | brk => exact absurd rfl hbrk
  | int => exact hR.execInt_alike hs (hexit rfl)
  | nop => exact hR.retireNext_alike hs
  | lb _ _ _ | lbu _ _ _ | lh _ _ _ | lhu _ _ _ | lw _ _ _ | lwu _ _ _ | ld _ _ _ =>
    exact hR.loadWith_alike hs _ _ _ _ _
  | sb _ _ _ | sh _ _ _ | sw _ _ _ | sd _ _ _ => exact hR.storeWidth_alike hs _ _ _ _
  | mfhi _ => exact hR.writeReg_alike hs _ (hread rfl).1
  | mflo _ => exact hR.writeReg_alike hs _ (hread rfl).2
  | lui _ _ => exact hR.writeReg_alike hs _ rfl
  | mov _ _
  | slt _ _ _ | sltu _ _ _ | seq _ _ _ | slti _ _ _ | sltiu _ _ _ | seqi _ _ _
  | or _ _ _ | and _ _ _ | xor _ _ _ | nor _ _ _ | ori _ _ _ | andi _ _ _ | xori _ _ _ | nori _ _ _
  | sll _ _ _ | srl _ _ _ | slli _ _ _ | srli _ _ _
  | add _ _ _ | sub _ _ _ | addi _ _ _ | subi _ _ _ =>
    exact hR.writeReg_alike hs _ (by simp only [hR.getReg_eq hs])
  | mul _ _ | mulu _ _ =>
    simp only [exec, execMul, execMulu, hR.getReg_eq hs]
    exact hR.retireNext_alike (hwrite rfl _ _)
  | div _ _ => exact hR.execDiv_alike hs (hwrite rfl) _ _
  | divu _ _ => exact hR.execDivu_alike hs (hwrite rfl) _ _
  | push _ | pushw _ => exact hR.pushWidth_alike hs _ _
  | pop _ | popw _ => exact hR.popWidth_alike hs _ _
  | call target => exact hR.execCall_alike hs target
  | ret => exact hR.execRet_alike hs
  | j target => exact retireTo_alike hs (hR.jumpTarget_eq hs target)
  | jr rd => exact retireTo_alike hs (hR.getReg_eq hs rd)
  | beq _ _ imm | bne _ _ imm =>
    exact retireTo_alike hs (by simp only [hR.getReg_eq hs, hR.branchTarget_eq hs, hR.nextPc_eq hs])

end

end ExecuteRelation

end Sys2Proof.Machine
end

section
/-! What every instruction leaves alone, and what the engine state, `hi` and `lo`, and `DEBUG` can do to it:
statements over all instructions, each from a relation that Execute keeps. -/

namespace Sys2Proof.Machine

open Sys2Proof.Claims

/-! ## The three ways to retire (10_state.md R154) -/

theorem exec_brk (s : State) : exec .brk s = .next s.retireBrk := rfl

theorem exec_int_exit {s : State} (hsel : s.getReg Config.sel = 0) :
    exec .int s = .next (s.retireHalt (s.getReg Config.arg)) := by
  simp [exec, execInt, hsel, Config.sysExit, syscallExit]

/-- `i` is neither `brk` nor, in `s`, the exiting `int`. -/
structure RetiresPlainly (i : Instr) (s : State) : Prop where
  not_brk : i ≠ .brk
  not_exit : i = .int → s.getReg Config.sel ≠ 0

theorem brk_or_exit_or_plain (i : Instr) (s : State) :
    i = .brk ∨ (i = .int ∧ s.getReg Config.sel = 0) ∨ RetiresPlainly i s := by
  by_cases hbrk : i = .brk
  · exact .inl hbrk
  · by_cases hexit : i = .int ∧ s.getReg Config.sel = 0
    · exact .inr (.inl hexit)
    · exact .inr (.inr ⟨hbrk, fun hi hsel => hexit ⟨hi, hsel⟩⟩)

/-! ## One run: the frame of Execute -/

/-- What the Execute phase of `i` leaves as it was in `s`; `u` is the state before the retire phase. A byte
that may not be written (20_memory.md R211) stays, and memory keeps its canonical form. -/
structure ExecuteFrame (i : Instr) (s u : State) : Prop where
  hiLo : isMulDiv i = false → SameHiLo s u
  pc : u.pc = s.pc
  cycle : u.cycle = s.cycle
  stepArmed : u.stepArmed = s.stepArmed
  cfg : u.cfg = s.cfg
  commands : u.commands = s.commands
  displays : u.displays = s.displays
  trace : u.trace = s.trace
  memory_canonical : s.mem.wf = true → u.mem.wf = true
  memory_protected : ∀ a, writableByte s.cfg a = false ∨ s.cfg.memSize ≤ a → u.mem.byte a = s.mem.byte a

theorem ExecuteFrame.refl (i : Instr) (s : State) : ExecuteFrame i s s :=
  ⟨fun _ => ⟨rfl, rfl⟩, rfl, rfl, rfl, rfl, rfl, rfl, rfl, id, fun _ _ => rfl⟩

/-- A checked write reaches only bytes that may be written. -/
theorem Memory.byte_write_of_writeOk {c : RunConfig} {a n b : Nat} (m : Memory) (v : Word)
    (hw : writeOk c a n = true) (hb : writableByte c b = false ∨ c.memSize ≤ b) :
    (m.write a v n).byte b = m.byte b := by
  obtain ⟨htop, hbytes⟩ := (writeOk_iff _ _ _).1 hw
  refine Memory.byte_write_outside _ _ ?_
  by_contra hin
  obtain ⟨k, rfl⟩ : ∃ k, b = a + k := ⟨b - a, by omega⟩
  have hk := hbytes k (by omega)
  rcases hb with hb | hb
  · simp [hb] at hk
  · omega

theorem ExecuteFrame.write {i : Instr} {s u : State} (h : ExecuteFrame i s u) {a n : Nat} (v : Word)
    (hw : writeOk u.cfg a n = true) : ExecuteFrame i s (u.setMem (u.mem.write a v n)) :=
  { h with
    memory_canonical := fun hm => Memory.wf_write _ _ _ _ (h.memory_canonical hm)
    memory_protected := fun b hb =>
      (Memory.byte_write_of_writeOk _ _ (h.cfg ▸ hw) hb).trans (h.memory_protected b hb) }

/-- A state related to itself, as long as the frame from `s` holds. -/
def Framed (i : Instr) (s u u' : State) : Prop := u' = u ∧ ExecuteFrame i s u

theorem framed_relation (i : Instr) (s : State) : ExecuteRelation (Framed i s) where
  x h := h.1 ▸ rfl
  pc h := h.1 ▸ rfl
  mem h := h.1 ▸ rfl
  cfg h := h.1 ▸ rfl
  input h := h.1 ▸ rfl
  inputEnded h := h.1 ▸ rfl
  draws h := h.1 ▸ rfl
  setReg _ _ h := ⟨h.1 ▸ rfl, { h.2 with }⟩
  write _ _ v h hw := ⟨h.1 ▸ rfl, h.2.write v hw⟩
  listedAnswer _ _ h := ⟨h.1 ▸ rfl, { h.2 with }⟩
  freeAnswer _ _ h := ⟨h.1 ▸ rfl, { h.2 with }⟩
  hostOut _ h := ⟨h.1 ▸ rfl, { h.2 with }⟩

/-- Everything an instruction that completes can do: `brk` and the exiting `int` only retire, each in its
own way; any other instruction retires plainly from a state its frame describes. -/
theorem exec_next_cases {i : Instr} {s t : State} (h : exec i s = .next t) :
    (i = .brk ∧ t = s.retireBrk) ∨
    (i = .int ∧ s.getReg Config.sel = 0 ∧ t = s.retireHalt (s.getReg Config.arg)) ∨
    (RetiresPlainly i s ∧ ∃ u pc, ExecuteFrame i s u ∧ t = u.retireTo pc) := by
  obtain rfl | ⟨rfl, hsel⟩ | hplain := brk_or_exit_or_plain i s
  · rw [exec_brk] at h
    exact .inl ⟨rfl, (Host.Outcome.next.inj h).symm⟩
  · rw [exec_int_exit hsel] at h
    exact .inr (.inl ⟨rfl, hsel, (Host.Outcome.next.inj h).symm⟩)
  · have hends := (framed_relation i s).exec_alike ⟨rfl, .refl i s⟩ hplain.not_brk hplain.not_exit
      (fun _ => ⟨rfl, rfl⟩)
      (fun hm _ _ => ⟨rfl, { ExecuteFrame.refl i s with hiLo := by simp [hm] }⟩)
    obtain ⟨u, _, pc, hu, -, -, hframe⟩ | ⟨f, hf, -⟩ := hends
    · exact .inr (.inr ⟨hplain, u, pc, hframe, Host.Outcome.next.inj (h.symm.trans hu)⟩)
    · simp [hf] at h

/-- Every instruction that completes ends with the retire phase, from a state its frame describes, and the
choice of the next engine state. -/
theorem exec_next_retirePhase {i : Instr} {s t : State} (h : exec i s = .next t) :
    ∃ u pc e, ExecuteFrame i s u ∧ t = (u.retirePhase pc).setEngine e := by
  obtain ⟨-, rfl⟩ | ⟨-, -, rfl⟩ | ⟨-, u, pc, hframe, rfl⟩ := exec_next_cases h
  · exact ⟨s, _, _, .refl i s, rfl⟩
  · exact ⟨s, _, _, .refl i s, rfl⟩
  · exact ⟨u, _, _, hframe, rfl⟩

/-! ## Two runs -/

/-- Both runs complete in states related by `Q`, or raise the same fault. -/
def EndsAlike (Q : State → State → Prop) (o o' : Host.Outcome State Fault Refusal) : Prop :=
  (∃ t t', o = .next t ∧ o' = .next t' ∧ Q t t') ∨ ∃ f, o = .fault f ∧ o' = .fault f

/-- A relation that Execute keeps, and that each way to retire turns into `Q`, gives `Q` after every
instruction. -/
theorem ExecuteRelation.exec_endsAlike {R Q : State → State → Prop} (hR : ExecuteRelation R)
    {s s' : State} (hs : R s s') (i : Instr)
    (hread : readsHiLo i = true → s'.hi = s.hi ∧ s'.lo = s.lo)
    (hwrite : isMulDiv i = true → ∀ h l, R (s.setHiLo h l) (s'.setHiLo h l))
    (hto : ∀ {u u'} pc, R u u' → Q (u.retireTo pc) (u'.retireTo pc))
    (hbrk : Q s.retireBrk s'.retireBrk) (hhalt : ∀ v, Q (s.retireHalt v) (s'.retireHalt v)) :
    EndsAlike Q (exec i s) (exec i s') := by
  obtain rfl | ⟨rfl, hsel⟩ | hplain := brk_or_exit_or_plain i s
  · exact .inl ⟨_, _, exec_brk s, exec_brk s', hbrk⟩
  · have hsel' := (hR.getReg_eq hs Config.sel).trans hsel
    refine .inl ⟨_, _, exec_int_exit hsel, exec_int_exit hsel', ?_⟩
    rw [hR.getReg_eq hs]
    exact hhalt _
  · obtain ⟨u, u', pc, hu, hu', h⟩ | hfault :=
      hR.exec_alike hs hplain.not_brk hplain.not_exit hread hwrite
    · exact .inl ⟨_, _, hu, hu', hto pc h⟩
    · exact .inr hfault

/-- The same run with `DEBUG` set to `b`. -/
def State.setDebug (s : State) (b : Bool) : State := { s with cfg := { s.cfg with debug := b } }

theorem setEngine_relation (e : EngineState) : ExecuteRelation fun u u' => u' = u.setEngine e := by
  constructor <;> (intros; subst_vars; rfl)

theorem setHiLo_relation (h l : Word) : ExecuteRelation fun u u' => u' = u.setHiLo h l := by
  constructor <;> (intros; subst_vars; rfl)

theorem setDebug_relation (b : Bool) : ExecuteRelation fun u u' => u' = u.setDebug b := by
  constructor <;> (intros; subst_vars; rfl)

end Sys2Proof.Machine
end

section
/-! The statements about every instruction and every step (10_state.md): the invariant of the machine, what
retiring does, and what the engine state, `hi` and `lo`, and `DEBUG` do not change. -/

namespace Sys2Proof.Machine


end Sys2Proof.Machine

namespace Sys2Proof.Proofs

open Sys2Proof.Machine Sys2Proof.Claims

/-- Settles O7: no operation of Execute reads the engine state, and every way to retire sets it. -/
theorem meaningIgnoresTheEngineState : Obligations.MeaningIgnoresTheEngineState := by
  intro i s e
  have hends : EndsAlike (fun t t' => t' = t) (exec i s) (exec i (s.setEngine e)) :=
    (setEngine_relation e).exec_endsAlike rfl i (fun _ => ⟨rfl, rfl⟩) (fun _ _ _ => rfl)
      (by rintro u _ pc rfl; rfl) rfl (fun _ => rfl)
  obtain ⟨t, _, ht, ht', rfl⟩ | ⟨f, hf, hf'⟩ := hends
  · rw [ht, ht']
  · rw [hf, hf']

/-- Settles O9: every instruction that completes ends with the retire phase. -/
theorem retiringZeroesRegisterZeroAndCounts : Obligations.RetiringZeroesRegisterZeroAndCounts := by
  intro i s t h
  obtain ⟨u, pc, e, hframe, rfl⟩ := exec_next_retirePhase h
  simp [hframe.cycle]

/-- Settles O10: `brk`, the exiting `int` and plain retiring each choose the engine state their own way. -/
theorem pauseExactlyAsRetiringSays : Obligations.PauseExactlyAsRetiringSays := by
  intro i s t h
  obtain ⟨rfl, rfl⟩ | ⟨rfl, hsel, rfl⟩ | ⟨hplain, u, pc, hframe, rfl⟩ := exec_next_cases h
  · simp
  · simp [hsel]
  · have hexit : ¬ (i = .int ∧ s.getReg Config.sel = 0) := fun ⟨hi, hsel⟩ => hplain.not_exit hi hsel
    rw [if_neg hexit]
    simp [hplain.not_brk, hframe.cfg, hframe.stepArmed]

/-- Settles O17: it is part of the frame of Execute, and retiring leaves `hi` and `lo` alone. -/
theorem onlyMultiplyAndDivideWriteHiLo : Obligations.OnlyMultiplyAndDivideWriteHiLo := by
  intro i s t h hi
  obtain ⟨u, pc, e, hframe, rfl⟩ := exec_next_retirePhase h
  exact hframe.hiLo hi

/-- The multiplications and divisions overwrite `hi` and `lo` (47_muldiv.md R700) without reading them. -/
theorem exec_setHiLo_of_isMulDiv {i : Instr} (hi : isMulDiv i = true) (s : State) (h l : Word) :
    exec i (s.setHiLo h l) = exec i s := by
  cases i with
  | mul _ _ | mulu _ _ | div _ _ | divu _ _ => rfl
  | _ => cases hi

/-- Settles O18: for an instruction that neither reads nor writes `hi` and `lo`, a run with others there is
the same run with these carried along. -/
theorem onlyMoveFromReadsHiLo : Obligations.OnlyMoveFromReadsHiLo := by
  intro i s h l hread
  cases hwrite : isMulDiv i with
  | true => simp [exec_setHiLo_of_isMulDiv hwrite]
  | false =>
    have hends : EndsAlike (fun t t' => t' = t.setHiLo h l) (exec i s) (exec i (s.setHiLo h l)) :=
      (setHiLo_relation h l).exec_endsAlike rfl i (by simp [hread]) (by simp [hwrite])
        (by rintro u _ pc rfl; rfl) rfl (fun _ => rfl)
    obtain ⟨t, _, ht, ht', rfl⟩ | ⟨f, hf, hf'⟩ := hends
    · simp [ht, ht']
    · simp [hf, hf']

/-- Settles O21: after retiring, the two runs differ in the engine state, the trace and the parameters at
most. -/
theorem debugFlagDoesNotAffectExecution : Obligations.DebugFlagDoesNotAffectExecution := by
  intro i s t b h
  have hends : EndsAlike (fun t t' => ∃ e tr c, t' = { t with engine := e, trace := tr, cfg := c })
      (exec i s) (exec i (s.setDebug b)) :=
    (setDebug_relation b).exec_endsAlike rfl i (fun _ => ⟨rfl, rfl⟩) (fun _ _ _ => rfl)
      (by rintro u _ pc rfl; exact ⟨_, _, _, rfl⟩) ⟨_, _, _, rfl⟩ (fun _ => ⟨_, _, _, rfl⟩)
  obtain ⟨t', _, ht, hu, e, tr, c, rfl⟩ | ⟨f, hf, -⟩ := hends
  · obtain rfl := Host.Outcome.next.inj (h.symm.trans ht)
    exact ⟨_, hu, rfl, rfl, rfl, rfl, rfl, rfl, rfl, ⟨rfl, rfl, rfl, rfl, rfl, rfl⟩⟩
  · simp [hf] at h

end Sys2Proof.Proofs

namespace Sys2Proof.Machine

/-! ## The invariant of the machine -/

theorem Invariant.exec {i : Instr} {s t : State} (h : Invariant s) (ht : exec i s = .next t) :
    Invariant t := by
  have hengine := Proofs.pauseExactlyAsRetiringSays i s t ht
  obtain ⟨u, pc, e, hframe, rfl⟩ := exec_next_retirePhase ht
  have hcfg : ((u.retirePhase pc).setEngine e).cfg = s.cfg := hframe.cfg
  exact {
    zero_register := by simp
    engine_between := by
      rw [hengine]
      split_ifs <;> simp
    pause_debug := by
      rw [hengine, hcfg]
      split_ifs with _ hpause
      · simp
      · exact fun _ => hpause.1
      · simp
    armed_debug := fun harmed => hcfg ▸ h.armed_debug (hframe.stepArmed ▸ harmed)
    memory_canonical := hframe.memory_canonical h.memory_canonical
    memory_inside := fun a ha => by
      rw [hcfg] at ha
      exact (hframe.memory_protected a (.inr ha)).trans (h.memory_inside a ha)
    layout := hcfg ▸ h.layout }

theorem Invariant.hostLine {s : State} (h : Invariant s) : Invariant (hostLine s).2 := by
  rw [hostLine_frame]
  exact { h with }

theorem Invariant.actOnCommand {l : CommandLine} {s t : State} (h : Invariant s)
    (he : s.engine = .debugPaused) (ht : actOnCommand l s = .next t) : Invariant t := by
  obtain ⟨armed, rfl⟩ | ⟨d, rfl⟩ := actOnCommand_cases s l t ht
  · exact { h with
      engine_between := ⟨nofun, nofun⟩
      pause_debug := nofun
      armed_debug := fun _ => h.pause_debug he }
  · exact { h with }

theorem hostLine_engine (s : State) : (hostLine s).2.engine = s.engine := by
  rw [hostLine_frame]

end Sys2Proof.Machine

namespace Sys2Proof.Proofs

open Sys2Proof.Machine Sys2Proof.Claims

/-- Settles O12: a fetching step is an instruction's meaning at the state itself, and a step of a paused
machine resumes it or shows something. -/
theorem everyStepKeepsTheInvariant : Obligations.EveryStepKeepsTheInvariant := by
  intro s t h ht
  obtain ⟨-, i, -, -, hexec⟩ | ⟨hpaused, hact⟩ := step_cases s t ht
  · rw [meaningIgnoresTheEngineState] at hexec
    exact h.exec hexec
  · exact h.hostLine.actOnCommand ((hostLine_engine s).trans hpaused) hact

/-- Settles O13: every clause is a fact about the one state. -/
theorem resetMeetsTheInvariant : Obligations.ResetMeetsTheInvariant where
  zero_register := rfl
  engine_between := ⟨nofun, nofun⟩
  pause_debug := nofun
  armed_debug := nofun
  memory_canonical := rfl
  memory_inside _ _ := rfl
  layout := by decide

/-- Settles O25: by R154 (O10) only an exiting `int` ends halted, and no pause command halts. -/
theorem intExitHaltsAndNothingElseDoes : Obligations.IntExitHaltsAndNothingElseDoes := by
  refine ⟨fun s hsel => ?_, fun s t v ht hv => ?_⟩
  · refine ⟨_, exec_int_exit hsel, rfl, rfl, rfl, State.clearX0_zero _, State.getReg_retireHalt s _,
      ⟨rfl, rfl⟩, fun _ => rfl, ⟨rfl, rfl, rfl, rfl, rfl, rfl⟩, rfl, rfl, ?_, rfl⟩
    rw [exec_int_exit hsel]
    rfl
  · obtain ⟨hfetching, i, -, hdecode, hexec⟩ | ⟨hpaused, hact⟩ := step_cases s t ht
    · rw [meaningIgnoresTheEngineState] at hexec
      rw [pauseExactlyAsRetiringSays i s t hexec] at hv
      split_ifs at hv with hexit
      obtain ⟨rfl, hsel⟩ := hexit
      exact ⟨hfetching, hdecode, hsel, (EngineState.halted.inj hv).symm⟩
    · obtain ⟨armed, rfl⟩ | ⟨d, rfl⟩ := actOnCommand_cases _ _ _ hact
      · cases hv
      · rw [State.display_engine, hostLine_engine, hpaused] at hv
        cases hv

end Sys2Proof.Proofs

namespace Sys2Proof.Machine

/-! ## The start of a step -/

theorem step_of_fetchInstr_ok {s : State} {i : Instr} (he : s.engine = .fetching)
    (hf : fetchInstr s = .ok i) : step s = exec i (s.setEngine .dispatching) := by
  simp only [step, he, hf]

theorem step_of_fetchInstr_error {s : State} {f : Fault} (he : s.engine = .fetching)
    (hf : fetchInstr s = .error f) : step s = .fault f := by
  simp only [step, he, hf]

/-- The first four bytes of a list decode as their little-endian word (30_encoding.md R300, R225). -/
theorem decodeWord_of_decodeBytes {b0 b1 b2 b3 : Byte} {bs rest : List Byte} {i : Instr}
    (h : decodeBytes (b0 :: b1 :: b2 :: b3 :: bs) = .ok (i, rest)) :
    decodeWord (wordOfBytes b0 b1 b2 b3) = .ok i := by
  simp only [decodeBytes] at h
  split at h
  · cases h
    assumption
  · cases h

end Sys2Proof.Machine

namespace Sys2Proof.Proofs

open Sys2Proof.Machine Sys2Proof.Claims

/-- Settles O5: the fetch makes the PC check first, and both the PC and `T` are multiples of 4. -/
theorem badPcIsFatalAtFetch : Obligations.BadPcIsFatalAtFetch := by
  refine ⟨fun s he hpc => step_of_fetchInstr_error he ?_, fun s ⟨hlt, haligned⟩ hwhole => by omega⟩
  have hbad : pcOk s.cfg s.pc = false := by
    rw [Bool.eq_false_iff, Ne, pcOk_iff]
    exact hpc
  exact (fetchInstr_eq_error_iff s _).2 (.inl ⟨hbad, rfl⟩)

/-- Settles O6: the fetch reads the same four bytes the decoder is given. -/
theorem stepRunsTheDecodedInstruction : Obligations.StepRunsTheDecodedInstruction := by
  intro s i rest he hpc hdecode
  exact step_of_fetchInstr_ok he
    ((fetchInstr_eq_ok_iff s i).2 ⟨(pcOk_iff _ _).2 hpc, decodeWord_of_decodeBytes hdecode⟩)

/-- Settles O8: these are the three engine states from which `step` does not start. -/
theorem noStepAfterTheEnd : Obligations.NoStepAfterTheEnd := by
  intro s
  refine ⟨fun v he => ?_, fun he => ?_, fun he => ?_⟩ <;> simp only [step, he]

/-- Settles O56: with `T = 0` no PC passes the PC check (O5). -/
theorem resetHoldsNoProgram : Obligations.ResetHoldsNoProgram :=
  ⟨rfl, badPcIsFatalAtFetch.1 State.reset rfl fun h => Nat.not_lt_zero _ h.1⟩

end Sys2Proof.Proofs
end

section
/-! The loader (70_reset_and_hazards.md R1000 to R1005): the reset state over an image, byte by byte and
register by register, and exactly which containers are accepted. -/

namespace Sys2Proof.Machine

/-! ## The reset state over an image (R106, R160, R1001) -/

theorem resetRegs_getElem (top : Word) (q : Reg) :
    (resetRegs top)[q.val] =
      if q = Config.gp ∨ q = Config.sp ∨ q = Config.fp then top else 0 := by
  simp only [resetRegs, Vector.getElem_set, Vector.getElem_replicate, ← Fin.ext_iff, eq_comm (b := q)]
  split_ifs <;> simp_all

theorem getReg_initial (cfg : RunConfig) (mem : Memory) (q : Reg) :
    (State.initial cfg mem).getReg q =
      if q = Config.gp ∨ q = Config.sp ∨ q = Config.fp then BitVec.ofNat 64 cfg.memSize else 0 := by
  by_cases hq : q = 0
  · have hrole : ¬ (q = Config.gp ∨ q = Config.sp ∨ q = Config.fp) := by
      subst hq
      decide
    rw [if_neg hrole, hq, State.getReg_zero]
  · rw [State.getReg, if_neg hq]
    exact resetRegs_getElem _ q

theorem byte_imageOf (c : Container) (a : Nat) :
    (imageOf c).byte a = (c.text ++ c.data ++ c.rodata).getD a 0 := by
  rw [imageOf, Memory.byte_ofBytes, if_pos (Nat.zero_le a)]
  rfl

theorem byte_imageOf_text (c : Container) {a : Nat} (h : a < c.text.length) :
    some ((imageOf c).byte a) = c.text[a]? := by
  simp [byte_imageOf, List.append_assoc, List.getElem?_append_left h, h]

theorem byte_imageOf_data (c : Container) {a : Nat} (h : a < c.data.length) :
    some ((imageOf c).byte (c.text.length + a)) = c.data[a]? := by
  simp [byte_imageOf, List.append_assoc, List.getElem?_append_right, List.getElem?_append_left h, h]

theorem byte_imageOf_rodata (c : Container) {a : Nat} (h : a < c.rodata.length) :
    some ((imageOf c).byte (c.text.length + c.data.length + a)) = c.rodata[a]? := by
  rw [byte_imageOf, ← List.length_append, List.getD_append_right _ _ _ _ (Nat.le_add_right _ _)]
  simp [h]

theorem byte_imageOf_above (c : Container) {a : Nat}
    (h : c.text.length + c.data.length + c.rodata.length ≤ a) : (imageOf c).byte a = 0 := by
  rw [byte_imageOf, List.getD_eq_default]
  simpa [Nat.add_assoc] using h

/-! ## What the loader accepts (R1004) -/

theorem RunConfig.wf_iff (c : RunConfig) :
    c.wf = true ↔
      c.textSize % 4 = 0 ∧ 2 * (c.textSize + c.dataSize) ≤ c.memSize ∧
      c.textSize + c.dataSize + c.rodataSize ≤ c.memSize ∧ c.memSize % 8 = 0 ∧ c.memSize < 2 ^ 64 := by
  simp [RunConfig.wf, RunConfig.textWhole, RunConfig.headroom, RunConfig.zonesFit, RunConfig.topAligned,
    RunConfig.addressable, and_assoc]

/-- The checks (c) to (f) and R123's bound, for a container's zone sizes under the configured budget. -/
theorem configFor_wf_iff (params : RunConfig) (c : Container) :
    (configFor params c).wf = true ↔
      c.text.length % 4 = 0 ∧ 2 * (c.text.length + c.data.length) ≤ params.memSize ∧
      c.text.length + c.data.length + c.rodata.length ≤ params.memSize ∧
      params.memSize % 8 = 0 ∧ params.memSize < 2 ^ 64 :=
  RunConfig.wf_iff (configFor params c)

/-- Everything the loader can accept: a file that parses, with a layout that passes the checks. -/
theorem loadContainer_eq_ok_iff (params : RunConfig) (bytes : List Byte) (s : State) :
    loadContainer params bytes = .ok s ↔
      ∃ c, parseContainer bytes = .ok c ∧ (configFor params c).wf = true ∧
        s = State.initial (configFor params c) (imageOf c) := by
  simp only [loadContainer, bind, Except.bind]
  cases parseContainer bytes with
  | error e => simp
  | ok c =>
    simp only [← checkLayout_eq_ok_iff]
    cases h : checkLayout (configFor params c) with
    | error e => simp [h]
    | ok => simp [h, @eq_comm _ s]

theorem takeField_of_length {bs : List Byte} (h : 8 ≤ bs.length) :
    takeField bs = .ok (natOfBytes (bs.take 8), bs.drop 8) := by
  simp only [takeField, takeBytes, if_pos h]

/-- R1004 (a) is checked before any other field is looked at (log entry 21). -/
theorem parseContainer_badMagic {bs : List Byte} (h : 8 ≤ bs.length)
    (hmagic : natOfBytes (bs.take 8) ≠ Config.containerMagic.toNat) :
    parseContainer bs = .error .badMagic := by
  simp only [parseContainer, bind, Except.bind, takeField_of_length h, if_neg hmagic]

end Sys2Proof.Machine

namespace Sys2Proof.Proofs

open Sys2Proof.Machine Sys2Proof.Claims

/-- Settles O55: register by register, and zone by zone of the image. -/
theorem resetValuesOverALoadedImage : Obligations.ResetValuesOverALoadedImage := by
  intro params c s
  exact ⟨rfl, rfl, rfl, rfl, rfl, rfl, getReg_initial _ _, rfl, rfl, rfl, rfl,
    fun _ => byte_imageOf_text c, fun _ => byte_imageOf_data c, fun _ => byte_imageOf_rodata c,
    fun _ => byte_imageOf_above c⟩

/-- Settles O59: what the loader can accept, with its layout check read as arithmetic. -/
theorem loaderAcceptsExactlyTheCheckedContainers :
    Obligations.LoaderAcceptsExactlyTheCheckedContainers := by
  refine ⟨fun params bytes s => ?_, fun bytes => parseContainer_badMagic⟩
  simp only [loadContainer_eq_ok_iff, configFor_wf_iff, and_assoc]

end Sys2Proof.Proofs
end

section
/-! What a step leaves of memory (20_memory.md): the run's parameters and the bytes of text and read-only
data along every run, and all of memory under every instruction that is no store, push or call. -/

namespace Sys2Proof.Machine

section
variable {s t : State}

/-! ## One step -/

@[simp] theorem hostLine_mem (s : State) : (hostLine s).2.mem = s.mem := by
  rw [hostLine_frame]

@[simp] theorem hostLine_cfg (s : State) : (hostLine s).2.cfg = s.cfg := by
  rw [hostLine_frame]

theorem actOnCommand_mem_cfg {l : CommandLine} (h : actOnCommand l s = .next t) :
    t.mem = s.mem ∧ t.cfg = s.cfg := by
  obtain ⟨armed, rfl⟩ | ⟨d, rfl⟩ := actOnCommand_cases s l t h
  · exact ⟨rfl, rfl⟩
  · exact ⟨rfl, rfl⟩

/-- A step completes an instruction from the state itself (O7 lets the engine state be), or it is a pause
command, which changes neither memory nor the parameters. -/
theorem step_next_cases (h : step s = .next t) :
    (∃ i, exec i s = .next t) ∨ (t.mem = s.mem ∧ t.cfg = s.cfg) := by
  obtain ⟨-, i, -, -, hexec⟩ | ⟨-, hact⟩ := step_cases s t h
  · rw [Proofs.meaningIgnoresTheEngineState] at hexec
    exact .inl ⟨i, hexec⟩
  · obtain ⟨hmem, hcfg⟩ := actOnCommand_mem_cfg hact
    exact .inr ⟨hmem.trans (hostLine_mem s), hcfg.trans (hostLine_cfg s)⟩

theorem cfg_of_step (h : step s = .next t) : t.cfg = s.cfg := by
  obtain ⟨i, hexec⟩ | ⟨-, hcfg⟩ := step_next_cases h
  · obtain ⟨u, pc, e, hframe, rfl⟩ := exec_next_retirePhase hexec
    exact hframe.cfg
  · exact hcfg

/-- R211: no step changes a byte that may not be written. -/
theorem byte_of_step {a : Nat} (h : step s = .next t) (ha : writableByte s.cfg a = false) :
    t.mem.byte a = s.mem.byte a := by
  obtain ⟨i, hexec⟩ | ⟨hmem, -⟩ := step_next_cases h
  · obtain ⟨u, pc, e, hframe, rfl⟩ := exec_next_retirePhase hexec
    exact hframe.memory_protected a (.inl ha)
  · rw [hmem]

/-! ## Along a run -/

theorem Reaches.cfg_eq (h : Reaches s t) : t.cfg = s.cfg := by
  induction h with
  | refl => rfl
  | step _ hstep ih => exact (cfg_of_step hstep).trans ih

/-- The parameters stay, so a byte that may not be written at the start may never be written. -/
theorem Reaches.byte_eq {a : Nat} (h : Reaches s t) (ha : writableByte s.cfg a = false) :
    t.mem.byte a = s.mem.byte a := by
  induction h with
  | refl => rfl
  | step hreach hstep ih => exact (byte_of_step hstep (hreach.cfg_eq ▸ ha)).trans ih

/-- The bytes of text and of read-only data are bytes that may not be written (R211, R233). -/
theorem writableByte_eq_false_of_text_or_rodata {c : RunConfig} {a : Nat}
    (h : a < c.textSize ∨
      (c.textSize + c.dataSize ≤ a ∧ a < c.textSize + c.dataSize + c.rodataSize)) :
    writableByte c a = false := by
  rw [Bool.eq_false_iff, Ne, writableByte_iff]
  omega

/-! ## Instructions that write no memory -/

/-- Everything the unsigned division can answer: `hi` and `lo` written, then retired (47_muldiv.md R700). -/
theorem execDivu_next {rd rs1 : Reg} (h : execDivu rd rs1 s = .next t) :
    ∃ hi lo, t = (s.setHiLo hi lo).retireNext := by
  simp only [execDivu] at h
  split at h
  · cases h
  · exact ⟨_, _, (Host.Outcome.next.inj h).symm⟩

/-- Everything the signed division can answer, the overflow under `wrap` included (R704). -/
theorem execDiv_next {rd rs1 : Reg} (h : execDiv rd rs1 s = .next t) :
    ∃ hi lo, t = (s.setHiLo hi lo).retireNext := by
  simp only [execDiv] at h
  split at h
  · cases h
  · split at h
    · split at h
      · cases h
      · exact ⟨_, _, (Host.Outcome.next.inj h).symm⟩
    · exact ⟨_, _, (Host.Outcome.next.inj h).symm⟩

theorem mem_of_loadWith {n : Nat} {widen : BitVec (8 * n) → Word} {rd rs1 : Reg} {off : Off11}
    (h : loadWith n widen rd rs1 off s = .next t) : t.mem = s.mem := by
  obtain ⟨-, -, rfl⟩ := (loadWith_eq_next_iff ..).1 h
  rfl

@[simp] theorem hostIn_mem (s : State) : (hostIn s).2.mem = s.mem := by
  rw [hostIn_frame]

/-- Every service of `int` works on registers and the host's side alone (41_system.md R411 to R414). -/
theorem mem_of_execInt (h : execInt s = .next t) : t.mem = s.mem := by
  simp only [execInt] at h
  split at h
  · obtain rfl := Host.Outcome.next.inj h
    rfl
  · split at h
    · obtain rfl := Host.Outcome.next.inj h
      exact hostIn_mem s
    · split at h
      · obtain rfl := Host.Outcome.next.inj h
        rfl
      · obtain rfl := Host.Outcome.next.inj h
        rfl

theorem mem_of_pop {n : Nat} {v : BitVec (8 * n)} (h : pop s n = .ok (v, t)) : t.mem = s.mem := by
  obtain ⟨-, -, -, rfl⟩ := (pop_eq_ok_iff ..).1 h
  rfl

theorem mem_of_popWidth {n : Nat} {rd : Reg} (h : popWidth n rd s = .next t) : t.mem = s.mem := by
  obtain ⟨v, u, hu, rfl⟩ := (popWidth_eq_next_iff ..).1 h
  rw [State.retireNext_mem, State.setReg_mem, mem_of_pop hu]

theorem mem_of_retUnlink (h : retUnlink s = .ok t) : t.mem = s.mem := by
  obtain ⟨v, u, w, x, hu, hx, rfl⟩ := (retUnlink_eq_ok_iff ..).1 h
  rw [State.setReg_mem, mem_of_pop hx, State.setReg_mem, mem_of_pop hu]

theorem mem_of_execRet (h : execRet s = .next t) : t.mem = s.mem := by
  obtain ⟨u, v, hu, hv, rfl⟩ := (execRet_eq_next_iff ..).1 h
  obtain ⟨-, hmem, -⟩ := popRegs_frame _ _ _ hu
  exact (mem_of_retUnlink hv).trans hmem

end

end Sys2Proof.Machine

namespace Sys2Proof.Proofs

open Sys2Proof.Machine Sys2Proof.Claims

/-- Settles O16: by induction over the steps of the run, no byte that may not be written changes, and the
bytes of text and read-only data are such bytes. -/
theorem textAndRodataNeverChange : Obligations.TextAndRodataNeverChange :=
  fun _ _ h _ ha => h.byte_eq (writableByte_eq_false_of_text_or_rodata ha)

/-- Settles O15: the parameters are in the frame of every instruction, and no pause command sets them. -/
theorem runParametersAreFixed : Obligations.RunParametersAreFixed :=
  fun _ _ h => cfg_of_step h

/-- Settles O19: an instruction outside the list of `writesMemory` loads, pops, asks the host, or only sets
registers and retires. -/
theorem onlyStoresWriteMemory : Obligations.OnlyStoresWriteMemory := by
  intro i s t h hwrites
  cases i with
  | sb _ _ _ | sh _ _ _ | sw _ _ _ | sd _ _ _ | push _ | pushw _ | call _ => cases hwrites
  | lb _ _ _ | lbu _ _ _ | lh _ _ _ | lhu _ _ _ | lw _ _ _ | lwu _ _ _ | ld _ _ _ =>
    exact mem_of_loadWith h
  | pop _ | popw _ => exact mem_of_popWidth h
  | ret => exact mem_of_execRet h
  | int => exact mem_of_execInt h
  | div _ _ =>
    obtain ⟨hi, lo, rfl⟩ := execDiv_next h
    rfl
  | divu _ _ =>
    obtain ⟨hi, lo, rfl⟩ := execDivu_next h
    rfl
  | nop | brk | j _ | jr _ | beq _ _ _ | bne _ _ _
  | lui _ _ | mov _ _ | mfhi _ | mflo _ | mul _ _ | mulu _ _
  | slt _ _ _ | sltu _ _ _ | seq _ _ _ | slti _ _ _ | sltiu _ _ _ | seqi _ _ _
  | or _ _ _ | and _ _ _ | xor _ _ _ | nor _ _ _ | ori _ _ _ | andi _ _ _ | xori _ _ _ | nori _ _ _
  | sll _ _ _ | srl _ _ _ | slli _ _ _ | srli _ _ _
  | add _ _ _ | sub _ _ _ | addi _ _ _ | subi _ _ _ =>
    obtain rfl := Host.Outcome.next.inj h
    rfl

end Sys2Proof.Proofs
end

section
/-! Bytes written and read again (20_memory.md R220 to R230): a word placed at the fetch is fetched back, and
a load after a doubleword store reads the stored bytes. -/

namespace Sys2Proof.Machine

open Sys2Proof.Claims

/-! ## A word placed at the fetch (70_reset_and_hazards.md R1000, log entry 2) -/

/-- The four bytes of a word are those of the word zero-extended, which is how it is stored. -/
theorem extractLsb'_setWidth_instrWord (w : InstrWord) {k : Nat} (hk : k < 4) :
    (w.setWidth 64).extractLsb' (8 * k) 8 = w.extractLsb' (8 * k) 8 := by
  refine BitVec.eq_of_getLsbD_eq fun i hi => ?_
  have hbit : 8 * k + i < 64 := by omega
  simp [hi, hbit]

theorem byte_placeFetchWord (s : State) (w : InstrWord) {k : Nat} (hk : k < 4) :
    (placeFetchWord s w).mem.byte (s.pc.toNat + k) = w.extractLsb' (8 * k) 8 := by
  have hin : s.pc.toNat ≤ s.pc.toNat + k ∧ s.pc.toNat + k < s.pc.toNat + 4 := by omega
  simp only [placeFetchWord, Memory.byte_write, if_pos hin, Nat.add_sub_cancel_left]
  exact extractLsb'_setWidth_instrWord w hk

theorem bytesAtPc_placeFetchWord (s : State) (w : InstrWord) :
    bytesAtPc (placeFetchWord s w) = bytesOfWord w := by
  have h0 := byte_placeFetchWord s w (k := 0) (by decide)
  have h1 := byte_placeFetchWord s w (k := 1) (by decide)
  have h2 := byte_placeFetchWord s w (k := 2) (by decide)
  have h3 := byte_placeFetchWord s w (k := 3) (by decide)
  simp only [bytesAtPc, bytesOfWord, List.cons.injEq, and_true]
  exact ⟨h0, h1, h2, h3⟩

theorem pcInText_placeFetchWord {s : State} (w : InstrWord) (h : s.pc.toNat % 4 = 0) :
    PcInText (placeFetchWord s w) :=
  ⟨lt_max_of_lt_right (Nat.lt_add_of_pos_right (by decide)), h⟩

theorem decodeBytes_of_decodeTableWord {nbits w : Nat} {i : Instr}
    (h : decodeTableWord nbits w = some i) :
    ∃ rest, decodeBytes (bytesOfWord (BitVec.ofNat 32 (w % 2 ^ nbits))) = .ok (i, rest) := by
  unfold decodeTableWord at h
  split at h
  · rename_i j rest hdecode
    obtain rfl := Option.some.inj h
    exact ⟨rest, hdecode⟩
  · cases h

/-! ## A load after a store -/

/-- Byte `k` of a value (R222) as arithmetic. -/
theorem setWidth_extractLsb'_byte (v : Word) (k : Nat) :
    (v.extractLsb' (8 * k) 8).setWidth 64 = BitVec.ofNat 64 (v.toNat / 256 ^ k % 256) := by
  have hpow : 2 ^ (8 * k) = 256 ^ k := pow_mul 2 8 k
  refine BitVec.eq_of_toNat_eq ?_
  simp [Nat.shiftRight_eq_div_pow, hpow]

theorem Memory.read_one (m : Memory) (a : Nat) : m.read a 1 = m.byte a := by
  refine BitVec.eq_of_getLsbD_eq fun i hi => ?_
  have h1 : i / 8 = 0 := by omega
  have h2 : i % 8 = i := by omega
  simp only [Memory.getLsbD_read, hi, if_true, h1, h2, Nat.add_zero]

/-- An instruction that only sets `rd` and retires. -/
theorem writesRegister_of_exec {i : Instr} {s : State} {rd : Reg} {v : Word}
    (h : exec i s = .next (s.setReg rd v).retireNext) : WritesRegister i s rd v := by
  refine ⟨_, h, ⟨rfl, rfl, by simp, by simp, rfl, rfl⟩, fun q => ?_, ⟨rfl, rfl⟩, fun _ => rfl,
    ⟨rfl, rfl, rfl, rfl, rfl, rfl⟩⟩
  rw [State.getReg_retireNext, State.getReg_setReg]

/-- A load whose two checks pass writes its register and nothing else (42_load_store.md R451). -/
theorem writesRegister_of_loadWith {i : Instr} {s : State} {n : Nat} {widen : BitVec (8 * n) → Word}
    {rd rs1 : Reg} {off : Off11} (hi : exec i s = loadWith n widen rd rs1 off s)
    (hread : readOk s.cfg (effAddr s rs1 off).toNat n = true)
    (halign : alignOk s.cfg (effAddr s rs1 off).toNat n = true) :
    WritesRegister i s rd (widen (s.mem.read (effAddr s rs1 off).toNat n)) :=
  writesRegister_of_exec (hi.trans ((loadWith_eq_next_iff ..).2 ⟨hread, halign, rfl⟩))

/-- Every byte that may be written may be read: it is above text and below the top (R210, R211). -/
theorem readOk_of_writeOk {c : RunConfig} {a n b m : Nat} (h : writeOk c a n = true) (hm : 0 < m)
    (hlo : a ≤ b) (hhi : b + m ≤ a + n) : readOk c b m = true := by
  obtain ⟨htop, hbytes⟩ := (writeOk_iff _ _ _).1 h
  have hbyte := (writableByte_iff _ _).1 (hbytes (b - a) (by omega))
  exact (readOk_iff _ _ _).2 (by omega)

theorem alignOk_one (c : RunConfig) (a : Nat) : alignOk c a 1 = true :=
  (alignOk_iff _ _ _).2 fun _ => Nat.mod_one a

end Sys2Proof.Machine

namespace Sys2Proof.Proofs

open Sys2Proof.Machine Sys2Proof.Claims

/-- Settles O23: the placed state has its PC in text and the word's bytes there, so O6 gives its step. -/
theorem placedWordIsTheNextInstruction : Obligations.PlacedWordIsTheNextInstruction := by
  intro s nbits w i hpc hdecode
  obtain ⟨rest, hbytes⟩ := decodeBytes_of_decodeTableWord hdecode
  refine stepRunsTheDecodedInstruction _ i rest rfl (pcInText_placeFetchWord _ hpc) ?_
  rw [State.withFetchWord, bytesAtPc_placeFetchWord]
  exact hbytes

/-- Settles O36: a store that completes has passed the write check, which implies the read check of either
load, and what it wrote reads back byte by byte and as a whole. -/
theorem loadAfterStoreReadsTheStoredBytes : Obligations.LoadAfterStoreReadsTheStoredBytes := by
  intro s t rd rs1 off h rd' rs1' off'
  obtain ⟨hwrite, halign, ht⟩ := (storeWidth_eq_next_iff ..).1 h
  have hcfg : t.cfg = s.cfg := by rw [ht]; rfl
  have hmem : t.mem = s.mem.write (effAddr s rs1 off).toNat (s.getReg rd) 8 := by rw [ht]; rfl
  refine ⟨fun k hk haddr => ?_, fun haddr => ?_⟩
  · have hread : readOk t.cfg (effAddr t rs1' off').toNat 1 = true :=
      hcfg ▸ readOk_of_writeOk hwrite Nat.one_pos (by omega) (by omega)
    have hbyte : t.mem.byte (effAddr t rs1' off').toNat = (s.getReg rd).extractLsb' (8 * k) 8 := by
      rw [hmem, haddr, Memory.byte_write, if_pos (by omega), Nat.add_sub_cancel_left]
    have hload := writesRegister_of_loadWith (i := .lbu rd' rs1' off') rfl hread (alignOk_one _ _)
    rw [Memory.read_one, hbyte] at hload
    rwa [← setWidth_extractLsb'_byte]
  · have hread : readOk t.cfg (effAddr t rs1' off').toNat 8 = true := by
      rw [hcfg, haddr]
      exact readOk_of_writeOk hwrite (by decide) le_rfl le_rfl
    have halign' : alignOk t.cfg (effAddr t rs1' off').toNat 8 = true := by
      rwa [hcfg, haddr]
    have hload := writesRegister_of_loadWith (i := .ld rd' rs1' off') rfl hread halign'
    rw [haddr, hmem, Memory.read_write_same] at hload
    simpa using hload

end Sys2Proof.Proofs
end

section
/-! Encoding and decoding (30_encoding.md R301 to R341). Which fields an instruction uses is said once per
format; decoding is then reading the used fields, and encoding is writing them over zeros. -/

namespace Sys2Proof

/-- The formats of R302, with the fields that R303 lets an instruction of the format use: `r1` to `r3` are
format R with one to three registers, and `u` is format I without a source register. -/
inductive Format where
  | n | r1 | r2 | r3 | i | u | m | j

/-- R303. -/
def Instr.format : Instr → Format
  | .nop | .int | .brk | .ret => .n
  | .lb .. | .lbu .. | .lh .. | .lhu .. | .lw .. | .lwu .. | .ld .. => .m
  | .sb .. | .sh .. | .sw .. | .sd .. => .m
  | .lui .. => .u
  | .mov .. | .mul .. | .mulu .. | .div .. | .divu .. => .r2
  | .mfhi .. | .mflo .. | .push .. | .pushw .. | .pop .. | .popw .. | .jr .. => .r1
  | .slt .. | .sltu .. | .seq .. | .or .. | .and .. | .xor .. | .nor .. => .r3
  | .sll .. | .srl .. | .add .. | .sub .. => .r3
  | .slti .. | .sltiu .. | .seqi .. | .ori .. | .andi .. | .xori .. | .nori .. => .i
  | .slli .. | .srli .. | .addi .. | .subi .. | .beq .. | .bne .. => .i
  | .call .. | .j .. => .j

/-- The fields a format uses; the others are set to 0. -/
def Format.keep (f : Fields) : Format → Fields
  | .n => ⟨f.op, 0, 0, 0, 0, 0, 0⟩
  | .r1 => ⟨f.op, f.rd, 0, 0, 0, 0, 0⟩
  | .r2 => ⟨f.op, f.rd, f.rs1, 0, 0, 0, 0⟩
  | .r3 => ⟨f.op, f.rd, f.rs1, f.rs2, 0, 0, 0⟩
  | .i => ⟨f.op, f.rd, f.rs1, 0, f.imm16, 0, 0⟩
  | .u => ⟨f.op, f.rd, 0, 0, f.imm16, 0, 0⟩
  | .m => ⟨f.op, f.rd, f.rs1, 0, 0, f.off11, 0⟩
  | .j => ⟨f.op, 0, 0, 0, 0, 0, f.target24⟩

/-- The word that holds the fields a format uses, and zeros elsewhere. -/
def Format.word (f : Fields) : Format → InstrWord
  | .n => encodeN f.op
  | .r1 => encodeR f.op f.rd 0 0
  | .r2 => encodeR f.op f.rd f.rs1 0
  | .r3 => encodeR f.op f.rd f.rs1 f.rs2
  | .i => encodeI f.op f.rd f.rs1 f.imm16
  | .u => encodeI f.op f.rd 0 f.imm16
  | .m => encodeM f.op f.rd f.rs1 f.off11
  | .j => encodeJ f.op f.target24

/-- The fields of an instruction: its opcode (R320), its operands, and 0 where its format has no use. -/
def Instr.fields (i : Instr) : Fields :=
  match i with
  | .nop | .int | .brk | .ret => ⟨opcodeOf i, 0, 0, 0, 0, 0, 0⟩
  | .lb rd rs1 off | .lbu rd rs1 off | .lh rd rs1 off | .lhu rd rs1 off | .lw rd rs1 off
  | .lwu rd rs1 off | .ld rd rs1 off | .sb rd rs1 off | .sh rd rs1 off | .sw rd rs1 off
  | .sd rd rs1 off => ⟨opcodeOf i, rd, rs1, 0, 0, off, 0⟩
  | .lui rd imm => ⟨opcodeOf i, rd, 0, 0, imm, 0, 0⟩
  | .mov rd rs1 | .mul rd rs1 | .mulu rd rs1 | .div rd rs1 | .divu rd rs1 =>
    ⟨opcodeOf i, rd, rs1, 0, 0, 0, 0⟩
  | .mfhi rd | .mflo rd | .push rd | .pushw rd | .pop rd | .popw rd | .jr rd =>
    ⟨opcodeOf i, rd, 0, 0, 0, 0, 0⟩
  | .slt rd rs1 rs2 | .sltu rd rs1 rs2 | .seq rd rs1 rs2 | .or rd rs1 rs2 | .and rd rs1 rs2
  | .xor rd rs1 rs2 | .nor rd rs1 rs2 | .sll rd rs1 rs2 | .srl rd rs1 rs2 | .add rd rs1 rs2
  | .sub rd rs1 rs2 => ⟨opcodeOf i, rd, rs1, rs2, 0, 0, 0⟩
  | .slti rd rs1 imm | .sltiu rd rs1 imm | .seqi rd rs1 imm | .ori rd rs1 imm | .andi rd rs1 imm
  | .xori rd rs1 imm | .nori rd rs1 imm | .slli rd rs1 imm | .srli rd rs1 imm | .addi rd rs1 imm
  | .subi rd rs1 imm | .beq rd rs1 imm | .bne rd rs1 imm => ⟨opcodeOf i, rd, rs1, 0, imm, 0, 0⟩
  | .call target | .j target => ⟨opcodeOf i, 0, 0, 0, 0, 0, target⟩

/-- Bit `b` of a word belongs to a field the format uses (R301, R302). -/
def Format.usesBit (b : Nat) : Format → Bool
  | .n => b < 6
  | .r1 => b < 11
  | .r2 => b < 16
  | .r3 => b < 21
  | .i => b < 32
  | .u => b < 11 || 16 ≤ b
  | .m => b < 16 || 21 ≤ b
  | .j => b < 6 || 8 ≤ b

/-! ## Decoding by fields -/

theorem Format.keep_op (F : Format) (f : Fields) : (F.keep f).op = f.op := by
  cases F <;> rfl

theorem Instr.fields_op (i : Instr) : i.fields.op = opcodeOf i := by
  cases i <;> rfl

theorem instrOfFields_fields (i : Instr) : instrOfFields i.fields = .ok i := by
  cases i <;> rfl

/-- R303: the fields that the opcode's format does not use take no part in decoding. -/
theorem instrOfFields_keep {f : Fields} {i : Instr} (hop : f.op = opcodeOf i) :
    instrOfFields (i.format.keep f) = instrOfFields f := by
  obtain ⟨op, rd, rs1, rs2, imm, off, target⟩ := f
  subst hop
  cases i <;> rfl

/-- The fields of a decoded instruction are the used fields of what was decoded. -/
theorem keep_of_instrOfFields {f : Fields} {i : Instr} (h : instrOfFields f = .ok i) :
    i.format.keep f = i.fields := by
  unfold instrOfFields at h
  split at h
  case h_55 => cases h
  all_goals
    rename_i hop
    obtain rfl := Except.ok.inj h
    simp only [Instr.format, Format.keep, Instr.fields, Fields.mk.injEq, and_true]
    exact BitVec.eq_of_toNat_eq hop

/-- R320, R303: the decoder gives an instruction exactly for the fields that are its own, whatever the
fields that its format does not use hold. -/
theorem instrOfFields_eq_ok_iff (f : Fields) (i : Instr) :
    instrOfFields f = .ok i ↔ i.format.keep f = i.fields := by
  refine ⟨keep_of_instrOfFields, fun h => ?_⟩
  have hop : f.op = opcodeOf i := by rw [← Format.keep_op i.format, h, Instr.fields_op]
  rw [← instrOfFields_keep hop, h, instrOfFields_fields]

/-! ## Encoding by fields -/

theorem encode_eq_word (i : Instr) : encode i = i.format.word i.fields := by
  cases i <;> rfl

theorem Instr.keep_fields (i : Instr) : i.format.keep i.fields = i.fields := by
  cases i <;> rfl

/-- The encoder writes only the fields the format uses. -/
theorem Format.word_keep (F : Format) (f : Fields) : F.word (F.keep f) = F.word f := by
  cases F <;> rfl

/-- A register field read back from a word that holds the register's bits there. -/
theorem regOf_extractLsb'_of_bits (w : InstrWord) (lo : Nat) (r : Reg)
    (h : ∀ b, b < 5 → w.getLsbD (lo + b) = (regBits r).getLsbD b) : regOf (w.extractLsb' lo 5) = r := by
  rw [extractLsb'_eq_of_bits w lo 5 (regBits r) h, regOf_regBits]

section
variable (op : BitVec 6) (rd rs1 rs2 : Reg) (imm : Imm16) (off : Off11) (target : Target24)

theorem rd_encodeR : (fieldsOf (encodeR op rd rs1 rs2)).rd = rd :=
  regOf_extractLsb'_of_bits _ _ _ fun b hb => by
    rw [getLsbD_encodeR, if_neg (by omega), if_pos (by omega), Nat.add_sub_cancel_left]

theorem rs1_encodeR : (fieldsOf (encodeR op rd rs1 rs2)).rs1 = rs1 :=
  regOf_extractLsb'_of_bits _ _ _ fun b hb => by
    rw [getLsbD_encodeR, if_neg (by omega), if_neg (by omega), if_pos (by omega)]
    congr 1; omega

theorem rs2_encodeR : (fieldsOf (encodeR op rd rs1 rs2)).rs2 = rs2 :=
  regOf_extractLsb'_of_bits _ _ _ fun b hb => by
    rw [getLsbD_encodeR, if_neg (by omega), if_neg (by omega), if_neg (by omega), if_pos (by omega)]
    congr 1; omega

theorem rd_encodeI : (fieldsOf (encodeI op rd rs1 imm)).rd = rd :=
  regOf_extractLsb'_of_bits _ _ _ fun b hb => by
    rw [getLsbD_encodeI, if_neg (by omega), if_pos (by omega), Nat.add_sub_cancel_left]

theorem rs1_encodeI : (fieldsOf (encodeI op rd rs1 imm)).rs1 = rs1 :=
  regOf_extractLsb'_of_bits _ _ _ fun b hb => by
    rw [getLsbD_encodeI, if_neg (by omega), if_neg (by omega), if_pos (by omega)]
    congr 1; omega

theorem imm16_encodeI : (fieldsOf (encodeI op rd rs1 imm)).imm16 = imm :=
  extractLsb'_eq_of_bits _ _ _ _ fun b hb => by
    rw [getLsbD_encodeI, if_neg (by omega), if_neg (by omega), if_neg (by omega)]
    congr 1; omega

theorem rd_encodeM : (fieldsOf (encodeM op rd rs1 off)).rd = rd :=
  regOf_extractLsb'_of_bits _ _ _ fun b hb => by
    rw [getLsbD_encodeM, if_neg (by omega), if_pos (by omega), Nat.add_sub_cancel_left]

theorem rs1_encodeM : (fieldsOf (encodeM op rd rs1 off)).rs1 = rs1 :=
  regOf_extractLsb'_of_bits _ _ _ fun b hb => by
    rw [getLsbD_encodeM, if_neg (by omega), if_neg (by omega), if_pos (by omega)]
    congr 1; omega

theorem off11_encodeM : (fieldsOf (encodeM op rd rs1 off)).off11 = off :=
  extractLsb'_eq_of_bits _ _ _ _ fun b hb => by
    rw [getLsbD_encodeM, if_neg (by omega), if_neg (by omega), if_neg (by omega), if_neg (by omega)]
    congr 1; omega

theorem target24_encodeJ : (fieldsOf (encodeJ op target)).target24 = target :=
  extractLsb'_eq_of_bits _ _ _ _ fun b hb => by
    rw [getLsbD_encodeJ, if_neg (by omega), if_neg (by omega)]
    congr 1; omega

end

/-- Reading the fields a format uses gives back what the encoder wrote there. -/
theorem Format.keep_fieldsOf_word (F : Format) (f : Fields) :
    F.keep (fieldsOf (F.word f)) = F.keep f := by
  cases F with
  | n => simp only [keep, word, op_encodeN]
  | r1 | r2 | r3 => simp only [keep, word, op_encodeR, rd_encodeR, rs1_encodeR, rs2_encodeR]
  | i | u => simp only [keep, word, op_encodeI, rd_encodeI, rs1_encodeI, imm16_encodeI]
  | m => simp only [keep, word, op_encodeM, rd_encodeM, rs1_encodeM, off11_encodeM]
  | j => simp only [keep, word, op_encodeJ, target24_encodeJ]

/-! ## The used bits -/

@[simp] theorem getLsbD_regBits_zero (b : Nat) : (regBits 0).getLsbD b = false := by
  simp [regBits]

/-- Writing the fields read from a word gives that word with the unused bits cleared. -/
theorem Format.getLsbD_word_fieldsOf (F : Format) (w : InstrWord) {b : Nat} (hb : b < 32) :
    (F.word (fieldsOf w)).getLsbD b = (w.getLsbD b && F.usesBit b) := by
  cases F with
  | n => simp only [word, usesBit, fieldsOf, getLsbD_encodeN, BitVec.getLsbD_extractLsb']; grind
  | r1 | r2 | r3 =>
    simp only [word, usesBit, fieldsOf, getLsbD_encodeR, regBits_regOf, getLsbD_regBits_zero,
      BitVec.getLsbD_extractLsb']
    grind
  | i | u =>
    simp only [word, usesBit, fieldsOf, getLsbD_encodeI, regBits_regOf, getLsbD_regBits_zero,
      BitVec.getLsbD_extractLsb']
    grind
  | m =>
    simp only [word, usesBit, fieldsOf, getLsbD_encodeM, regBits_regOf, BitVec.getLsbD_extractLsb']
    grind
  | j => simp only [word, usesBit, fieldsOf, getLsbD_encodeJ, BitVec.getLsbD_extractLsb']; grind

theorem getLsbD_usedMask (i : Instr) {b : Nat} (hb : b < 32) :
    (Claims.usedMask i).getLsbD b = i.format.usesBit b := by
  revert b
  cases i <;> simp only [Claims.usedMask, Instr.format, Format.usesBit] <;> decide

theorem word_fieldsOf (i : Instr) (w : InstrWord) :
    i.format.word (fieldsOf w) = w &&& Claims.usedMask i :=
  BitVec.eq_of_getLsbD_eq fun b hb => by
    rw [Format.getLsbD_word_fieldsOf _ _ hb, BitVec.getLsbD_and, getLsbD_usedMask _ hb]

/-- R341: words that agree on the used bits agree on the used fields. -/
theorem keep_fieldsOf_congr {i : Instr} {w w' : InstrWord}
    (h : w' &&& Claims.usedMask i = w &&& Claims.usedMask i) :
    i.format.keep (fieldsOf w') = i.format.keep (fieldsOf w) := by
  rw [← Format.keep_fieldsOf_word, word_fieldsOf, h, ← word_fieldsOf, Format.keep_fieldsOf_word]

/-! ## Unassigned opcodes -/

/-- R340: every opcode below 0x36 is assigned, and no other. -/
theorem instrOfFields_eq_error_iff (f : Fields) :
    (∃ e, instrOfFields f = .error e) ↔ 0x36 ≤ f.op.toNat := by
  unfold instrOfFields
  split
  case h_55 => exact iff_of_true ⟨_, rfl⟩ (by grind)
  all_goals exact iff_of_false nofun (by omega)

/-! ## The opcode of an instruction -/

/-- R320 with R303: an opcode selects an instruction of the fields its format uses. -/
theorem selects_of_fields {op : Nat} {i : Fields → Instr} (hop : ∀ f, (opcodeOf (i f)).toNat = op)
    (hfields : ∀ f, (i f).fields = { (i f).format.keep f with op := opcodeOf (i f) }) :
    Claims.Selects op i := by
  intro w h
  refine (instrOfFields_eq_ok_iff _ _).2 ?_
  have hw : opcodeOf (i (fieldsOf w)) = ((i (fieldsOf w)).format.keep (fieldsOf w)).op := by
    rw [Format.keep_op]
    exact BitVec.eq_of_toNat_eq ((hop _).trans h.symm)
  rw [hfields, hw]

end Sys2Proof

namespace Sys2Proof.Proofs

open Sys2Proof.Machine Sys2Proof.Claims

/-- Settles O1: the encoder writes exactly the fields the format uses, and these are all the decoder
reads. -/
theorem decodeOfEncodeIsIdentity : Obligations.DecodeOfEncodeIsIdentity := by
  intro i
  refine (instrOfFields_eq_ok_iff _ _).2 ?_
  rw [encode_eq_word, Format.keep_fieldsOf_word, Instr.keep_fields]

/-- Settles O2: the decoded instruction has the used fields of the word, so the encoder writes these back;
and another word with the same used bits has the same used fields. -/
theorem ignoredBitsDoNotMatter : Obligations.IgnoredBitsDoNotMatter := by
  intro w i h
  have hfields : i.format.keep (fieldsOf w) = i.fields := (instrOfFields_eq_ok_iff _ _).1 h
  refine ⟨?_, fun w' hw => ?_⟩
  · rw [encode_eq_word, ← hfields, Format.word_keep, word_fieldsOf]
  · exact (instrOfFields_eq_ok_iff _ _).2 ((keep_fieldsOf_congr hw).trans hfields)

/-- Settles O3: such a word passes the fetch and has no instruction. -/
theorem unassignedOpcodesAreIllegal : Obligations.UnassignedOpcodesAreIllegal := by
  refine ⟨fun w => instrOfFields_eq_error_iff _, fun s he hpc hop => ?_⟩
  exact step_of_fetchInstr_error he ((fetchInstr_eq_error_iff s _).2
    (.inr ⟨(pcOk_iff _ _).2 hpc, (instrOfFields_eq_error_iff _).2 hop, rfl⟩))

/-- Settles O4: sixteen closed words. -/
theorem specWordsDecodeAsListed : Obligations.SpecWordsDecodeAsListed := by
  unfold Obligations.SpecWordsDecodeAsListed
  decide

end Sys2Proof.Proofs
end

section
/-! Operands as numbers (30_encoding.md R311, R312): the signed offset and the scaled target. -/

namespace Sys2Proof.Machine

open Sys2Proof.Claims

/-- R311: the sign-extended offset is the offset's signed value. -/
theorem memOffset_eq_ofInt (off : Off11) : memOffset off = BitVec.ofInt 64 off.toInt := rfl

theorem scaleFactor_eq_scaleOf (s : State) : scaleFactor s.cfg.tgtScale = scaleOf s := by
  cases h : s.cfg.tgtScale <;> simp [scaleFactor, scaleOf, h]

/-- R312. -/
theorem jumpTarget_eq_ofNat (s : State) (target : Target24) :
    jumpTarget s target = BitVec.ofNat 64 (target.toNat * scaleOf s) := by
  rw [jumpTarget, scaleFactor_eq_scaleOf, BitVec.ofNat_mul, BitVec.ofNat_toNat]

end Sys2Proof.Machine

namespace Sys2Proof.Proofs

open Sys2Proof.Machine Sys2Proof.Claims

/-- Settles O33: the sign extension of the offset is its signed value, and `ofInt` respects sums. -/
theorem effectiveAddressIsBasePlusOffset : Obligations.EffectiveAddressIsBasePlusOffset := by
  intro s rs1 off
  refine ⟨?_, BitVec.le_toInt off, Int.le_of_lt_add_one off.toInt_lt⟩
  rw [effAddr, memOffset_eq_ofInt, BitVec.ofInt_add, BitVec.ofInt_natCast, BitVec.ofNat_toNat,
    BitVec.setWidth_eq]

end Sys2Proof.Proofs
end

section
/-! The frame that `call` builds (48_stack_call.md R761, R765): ten pushes into slots that do not overlap,
each of which completes where its slot passes the two checks. -/

namespace Sys2Proof.Machine

open Sys2Proof.Claims

/-! ## The checks of one access, and retiring -/

theorem writeOk_eq_true_iff_writable (s : State) (a n : Nat) :
    writeOk s.cfg a n = true ↔ Writable s a n := by
  simp only [writeOk_iff, writableByte_iff, Writable]
  refine and_congr_right fun _ => ⟨fun h b hlo hhi => ?_, fun h k hk => h (a + k) (by omega) (by omega)⟩
  have hb := h (b - a) (by omega)
  rwa [Nat.add_sub_cancel' hlo] at hb

theorem alignOk_eq_true_iff_aligned (s : State) (a n : Nat) :
    alignOk s.cfg a n = true ↔ Aligned s a n :=
  alignOk_iff _ _ _

theorem retired_retireTo {s u : State} (h : SameBeside s u) (next : Word) :
    Retired s (u.retireTo next) next where
  pc := rfl
  cycle := congrArg (· + 1) h.cycle
  zero_register := by simp
  engine := by simp [h.cfg, h.stepArmed]
  stepArmed := h.stepArmed
  cfg := h.cfg

theorem sameHost_retireTo {s u : State} (h : SameBeside s u) (next : Word) :
    SameHost s (u.retireTo next) :=
  ⟨h.input, h.inputEnded, h.output, h.commands, h.draws, h.displays⟩

theorem sameBeside_of_push {s u : State} {n : Nat} {v : Word} (h : push s n v = .ok u) :
    SameBeside s u := by
  obtain ⟨-, -, rfl⟩ := (push_eq_ok_iff ..).1 h
  exact (SameBeside.setMem s _).trans (SameBeside.setReg _ _ _)

/-! ## The slots (R761) -/

/-- Two different slots do not overlap, even where the frame wraps at the end of the address space. -/
theorem callSlot_disjoint (s : State) {j k : Nat} (hjk : j < k) (hk : k < 10) :
    (callSlot s j).toNat + 8 ≤ (callSlot s k).toNat ∨
      (callSlot s k).toNat + 8 ≤ (callSlot s j).toNat := by
  simp only [callSlot, BitVec.toNat_sub, BitVec.toNat_ofNat]
  omega

/-- The registers that `call` saves, in the order of its pushes. -/
def callOrder : List Reg := Config.ra :: Config.fp :: Config.calleeSaved

theorem callSlotValue_eq (s : State) (k : Nat) : callSlotValue s k = s.getReg (callOrder.getD k 0) := rfl

/-- The first `n` of the ten pushes of a `call` at `s` have completed, and `u` is the state after them: the
bytes of their slots hold their values, and SP is at the last of them. -/
structure CallPushed (s : State) (n : Nat) (u : State) : Prop where
  beside : SameBeside s u
  sp : u.getReg Config.sp = s.getReg Config.sp - BitVec.ofNat 64 (8 * n)
  slots : ∀ k j, k < n → j < 8 → u.mem.byte ((callSlot s k).toNat + j) =
    (callSlotValue s k).extractLsb' (8 * j) 8
  outside : ∀ a, (∀ k, k < n → a < (callSlot s k).toNat ∨ (callSlot s k).toNat + 8 ≤ a) →
    u.mem.byte a = s.mem.byte a

theorem CallPushed.start (s : State) : CallPushed s 0 s where
  beside := .refl s
  sp := by simp
  slots _ _ hk := absurd hk (Nat.not_lt_zero _)
  outside _ _ := rfl

theorem CallPushed.pushAddr_eq {s u : State} {n : Nat} (h : CallPushed s n u) :
    pushAddr u 8 = callSlot s n := by
  rw [pushAddr, h.sp, callSlot]
  bv_omega

/-- `call` sets RA and FP between its pushes. -/
theorem CallPushed.setReg {s u : State} {n : Nat} (h : CallPushed s n u) {r : Reg} (v : Word)
    (hr : r ≠ Config.sp) : CallPushed s n (u.setReg r v) where
  beside := h.beside.trans (.setReg u r v)
  sp := (State.getReg_setReg_other _ _ _ _ hr.symm).trans h.sp
  slots := h.slots
  outside := h.outside

/-- The next push completes where its slot passes both checks. -/
theorem CallPushed.exists_push {s u : State} {n : Nat} (h : CallPushed s n u) (hn : n < 10)
    (hwrite : Writable s (callSlot s n).toNat 8) (halign : Aligned s (callSlot s n).toNat 8) :
    ∃ t, push u 8 (callSlotValue s n) = .ok t ∧ CallPushed s (n + 1) t := by
  have haddr := h.pushAddr_eq
  have hpush : push u 8 (callSlotValue s n) = .ok
      ((u.setMem (u.mem.write (callSlot s n).toNat (callSlotValue s n) 8)).setReg Config.sp
        (callSlot s n)) := by
    rw [push_eq_ok_iff, haddr, h.beside.cfg, writeOk_eq_true_iff_writable, alignOk_eq_true_iff_aligned]
    exact ⟨hwrite, halign, rfl⟩
  refine ⟨_, hpush, h.beside.trans (sameBeside_of_push hpush), ?_, fun k j hk hj => ?_, fun a ha => ?_⟩
  · exact State.getReg_setReg_same _ _ _ (by decide)
  · rw [State.setReg_mem, State.setMem_mem]
    obtain hk | rfl : k < n ∨ k = n := by omega
    · have hdisjoint := callSlot_disjoint s hk hn
      rw [Memory.byte_write_outside _ _ (by omega), h.slots k j hk hj]
    · rw [Memory.byte_write, if_pos (by omega), Nat.add_sub_cancel_left]
  · rw [State.setReg_mem, State.setMem_mem, Memory.byte_write_outside _ _ (ha n (Nat.lt_succ_self n)),
      h.outside a fun k hk => ha k (Nat.lt_succ_of_lt hk)]

section
variable {s : State}
  (hslots : ∀ k, k < 10 → Writable s (callSlot s k).toNat 8 ∧ Aligned s (callSlot s k).toNat 8)
include hslots

/-- The last pushes complete one after the other, as long as the registers pushed still hold what the frame
is to hold. -/
theorem CallPushed.exists_pushRegs {u : State} {n : Nat} {rs : List Reg} (h : CallPushed s n u)
    (hrs : callOrder.drop n = rs) (hsp : Config.sp ∉ rs) (hregs : ∀ r ∈ rs, u.getReg r = s.getReg r) :
    ∃ t, pushRegs u rs = .ok t ∧ CallPushed s (n + rs.length) t := by
  induction rs generalizing n u with
  | nil => exact ⟨u, rfl, h⟩
  | cons r rs ih =>
    have hget : callOrder[n]? = some r := by rw [← List.head?_drop, hrs, List.head?_cons]
    have hn : n < 10 := (List.getElem?_eq_some_iff.1 hget).1
    have hr : callSlotValue s n = u.getReg r := by
      rw [hregs r List.mem_cons_self, callSlotValue_eq, List.getD_eq_getElem?_getD, hget,
        Option.getD_some]
    obtain ⟨hwrite, halign⟩ := hslots n hn
    obtain ⟨t, hpush, ht⟩ := h.exists_push hn hwrite halign
    rw [hr] at hpush
    have hrs' : callOrder.drop (n + 1) = rs := by rw [← List.tail_drop, hrs, List.tail_cons]
    obtain ⟨v, hv, hframe⟩ := ih ht hrs' (List.not_mem_of_not_mem_cons hsp) fun q hq =>
      (getReg_of_push hpush (ne_of_mem_of_not_mem hq (List.not_mem_of_not_mem_cons hsp))).trans
        (hregs q (List.mem_cons_of_mem _ hq))
    refine ⟨v, (pushRegs_cons ..).2 ⟨t, hpush, hv⟩, ?_⟩
    rwa [List.length_cons, Nat.add_comm rs.length, ← Nat.add_assoc]

/-- The first half of `call` completes where its two slots pass their checks. -/
theorem exists_callLink :
    ∃ u, callLink s = .ok u ∧ CallPushed s 2 u ∧ u.getReg Config.ra = s.pc ∧
      u.getReg Config.fp = s.getReg Config.sp - 16 := by
  obtain ⟨hwrite0, halign0⟩ := hslots 0 (by decide)
  obtain ⟨hwrite1, halign1⟩ := hslots 1 (by decide)
  obtain ⟨u, hu, hframe⟩ := (CallPushed.start s).exists_push (by decide) hwrite0 halign0
  obtain ⟨v, hv, hframe⟩ := hframe.exists_push (by decide) hwrite1 halign1
  have hfp : callSlotValue s 1 = u.getReg Config.fp := (getReg_of_push hu (by decide)).symm
  rw [hfp] at hv
  have hsp : (v.setReg Config.ra v.pc).getReg Config.sp = s.getReg Config.sp - 16 :=
    (hframe.setReg v.pc (r := Config.ra) (by decide)).sp
  refine ⟨_, (callLink_eq_ok_iff ..).2 ⟨u, v, hu, hv, rfl⟩,
    (hframe.setReg _ (by decide)).setReg _ (by decide), ?_, ?_⟩
  · rw [State.getReg_setReg_other _ _ _ _ (by decide), State.getReg_setReg_same _ _ _ (by decide)]
    exact hframe.beside.pc
  · rw [State.getReg_setReg_same _ _ _ (by decide), hsp]

end

end Sys2Proof.Machine

namespace Sys2Proof.Proofs

open Sys2Proof.Machine Sys2Proof.Claims

/-- Settles O48: the ten pushes complete in order, none of them overwriting an earlier slot; RA and FP are
set after they have been pushed, and the callee-saved registers are pushed as they were. -/
theorem callBuildsTheFrame : Obligations.CallBuildsTheFrame := by
  refine ⟨selects_of_fields (fun _ => rfl) fun _ => rfl, fun s target hslots => ?_⟩
  obtain ⟨u, hlink, hlinked, hra, hfp⟩ := exists_callLink hslots
  obtain ⟨v, hpush, hframe⟩ := hlinked.exists_pushRegs hslots (rs := Config.calleeSaved) rfl (by decide)
    fun r hr => getReg_of_callLink hlink (ne_of_mem_of_not_mem hr (by decide))
      (ne_of_mem_of_not_mem hr (by decide)) (ne_of_mem_of_not_mem hr (by decide))
  obtain ⟨-, hregs, -, -⟩ := pushRegs_frame _ _ _ hpush
  have hexec : exec (.call target) s = .next (v.retireTo (jumpTarget s target)) :=
    (execCall_eq_next_iff ..).2 ⟨u, v, hlink, hpush, rfl⟩
  refine ⟨_, hexec, jumpTarget_eq_ofNat s target ▸ retired_retireTo hframe.beside _, fun q => ?_,
    ⟨hframe.beside.hi, hframe.beside.lo⟩, sameHost_retireTo hframe.beside _, hframe.slots,
    hframe.outside⟩
  split_ifs with hsp' hfp' hra'
  · rw [State.getReg_retireTo, hsp', hframe.sp]
    rfl
  · rw [State.getReg_retireTo, hregs q hsp', hfp', hfp]
  · rw [State.getReg_retireTo, hregs q hsp', hra', hra]
  · exact getReg_of_execCall hexec hsp' hfp' hra'

end Sys2Proof.Proofs
end

section
/-! System instructions (41_system.md R400 to R420): `nop`, the services of `int` other than EXIT, `brk` and
the pause it makes. -/

namespace Sys2Proof.Machine

open Sys2Proof.Claims

variable {s t : State}

/-! ## Instructions that retire plainly (10_state.md R150) -/

/-- Whatever such an instruction does before it retires, retiring finds the cycle counter, `step_armed` and
the parameters as they were. -/
theorem RetiresPlainly.retired {i : Instr} (hplain : RetiresPlainly i s) (h : exec i s = .next t) :
    Retired s t t.pc := by
  obtain ⟨rfl, -⟩ | ⟨rfl, hsel, -⟩ | ⟨-, u, pc, hframe, rfl⟩ := exec_next_cases h
  · exact absurd rfl hplain.not_brk
  · exact absurd hsel (hplain.not_exit rfl)
  · exact {
      pc := rfl
      cycle := congrArg (· + 1) hframe.cycle
      zero_register := by simp
      engine := by simp [hframe.cfg, hframe.stepArmed]
      stepArmed := hframe.stepArmed
      cfg := hframe.cfg }

/-- An instruction that does nothing but retire changes nothing but the successor. -/
theorem onlyJumps_of_exec {i : Instr} {next : Word} (h : exec i s = .next (s.retireTo next)) :
    OnlyJumps i s next :=
  ⟨_, h, retired_retireTo (.refl s) next, State.getReg_retireTo s next, ⟨rfl, rfl⟩, fun _ => rfl,
    sameHost_retireTo (.refl s) next⟩

theorem exec_nop (s : State) : exec .nop s = .next s.retireNext := rfl

/-! ## `int` by its selector (41_system.md R410 to R414) -/

theorem retiresPlainly_int (hsel : s.getReg Config.sel ≠ 0) : RetiresPlainly .int s :=
  ⟨nofun, fun _ => hsel⟩

theorem exec_int_getchar (hsel : s.getReg Config.sel = 1) :
    exec .int s =
      .next (({ s with input := (hostIn s).2.input, inputEnded := (hostIn s).2.inputEnded
                       draws := (hostIn s).2.draws } : State).setReg Config.arg
        (answerWord (hostIn s).1)).retireNext := by
  rw [← hostIn_frame]
  simp [exec, execInt, hsel, Config.sysExit, Config.sysGetchar, syscallGetchar]

theorem exec_int_putchar (hsel : s.getReg Config.sel = 2) :
    exec .int s = .next (s.hostOut ((s.getReg Config.arg).extractLsb' 0 8)).retireNext := by
  simp [exec, execInt, hsel, Config.sysExit, Config.sysGetchar, Config.sysPutchar, syscallPutchar]

theorem exec_int_other (hsel : 2 < (s.getReg Config.sel).toNat) :
    exec .int s = .next s.retireNext := by
  have hexit : (s.getReg Config.sel).toNat ≠ Config.sysExit := (Nat.zero_lt_of_lt hsel).ne'
  have hgetchar : (s.getReg Config.sel).toNat ≠ Config.sysGetchar := (Nat.lt_of_succ_lt hsel).ne'
  have hputchar : (s.getReg Config.sel).toNat ≠ Config.sysPutchar := hsel.ne'
  simp only [exec, execInt, if_neg hexit, if_neg hgetchar, if_neg hputchar]

/-- R412: a byte is zero-extended, and the end of input is the default `EOF_VALUE`. -/
theorem answerWord_eq (answer : Option Byte) :
    answerWord answer =
      match answer with
      | some b => BitVec.ofNat 64 b.toNat
      | none => BitVec.ofNat 64 (2 ^ 64 - 1) := by
  cases answer with
  | some b => exact (BitVec.ofNat_toNat 64 b).symm
  | none => rfl

/-! ## `brk` and the pause (R420, 60_exceptions.md R961, R962) -/

/-- Without `DEBUG` there is no pause, so both ways to retire go on fetching. -/
theorem retireBrk_eq_retireNext (hdebug : s.cfg.debug = false) : s.retireBrk = s.retireNext := by
  simp only [State.retireBrk, State.retireNext, State.retireTo, hdebug, Bool.false_and]

/-- A pause command works on the host's side, the engine state and `step_armed` alone. -/
theorem sameArchitecture_of_pause (hpaused : s.engine = .debugPaused) (h : step s = .next t) :
    SameArchitecture s t := by
  obtain ⟨hfetching, -⟩ | ⟨-, hact⟩ := step_cases s t h
  · cases hpaused.symm.trans hfetching
  · rw [hostLine_frame] at hact
    obtain ⟨armed, rfl⟩ | ⟨d, rfl⟩ := actOnCommand_cases _ _ _ hact
    · exact ⟨fun _ => rfl, rfl, ⟨rfl, rfl⟩, rfl, rfl, rfl, rfl⟩
    · exact ⟨fun _ => rfl, rfl, ⟨rfl, rfl⟩, rfl, rfl, rfl, rfl⟩

end Sys2Proof.Machine

namespace Sys2Proof.Proofs

open Sys2Proof.Machine Sys2Proof.Claims

/-- Settles O24: `nop` only retires. -/
theorem nopOnlyAdvances : Obligations.NopOnlyAdvances :=
  ⟨selects_of_fields (fun _ => rfl) fun _ => rfl, fun s => onlyJumps_of_exec (exec_nop s)⟩

/-- Settles O26: asking the host changes only the record of its answers, whichever the answer is, and ARG is
the only register set. -/
theorem intGetcharReceivesTheHostsAnswer : Obligations.IntGetcharReceivesTheHostsAnswer := by
  intro s hsel
  have hexec := exec_int_getchar hsel
  have hplain : RetiresPlainly .int s := retiresPlainly_int (by simp [hsel])
  refine ⟨_, hexec, hplain.retired hexec, fun q => ?_, ⟨rfl, rfl⟩, fun _ => rfl, rfl, rfl, rfl, rfl, rfl,
    rfl⟩
  rw [State.getReg_retireNext, State.getReg_setReg, answerWord_eq]
  rfl

/-- Settles O28: the output stream is all that changes before `int` retires. -/
theorem intPutcharAppendsTheLowByte : Obligations.IntPutcharAppendsTheLowByte := by
  intro s hsel
  have hexec := exec_int_putchar hsel
  have hplain : RetiresPlainly .int s := retiresPlainly_int (by simp [hsel])
  exact ⟨_, hexec, hplain.retired hexec, State.getReg_retireNext _, ⟨rfl, rfl⟩, fun _ => rfl, rfl, rfl,
    rfl, rfl, rfl, rfl⟩

/-- Settles O29: such a selector is none of the three codes, and `int` only retires. -/
theorem intWithAnotherSelectorOnlyAdvances : Obligations.IntWithAnotherSelectorOnlyAdvances :=
  ⟨selects_of_fields (fun _ => rfl) fun _ => rfl, fun _ hsel => onlyJumps_of_exec (exec_int_other hsel)⟩

/-- Settles O30: `brk` only retires, in its own way, which without `DEBUG` is that of `nop`. -/
theorem breakpointPausesUnderDebug : Obligations.BreakpointPausesUnderDebug := by
  refine ⟨selects_of_fields (fun _ => rfl) fun _ => rfl, fun s => ?_, fun s hdebug => ?_,
    fun s t hpaused h => sameArchitecture_of_pause hpaused h⟩
  · exact ⟨_, exec_brk s, rfl, rfl, State.clearX0_zero _, rfl, rfl, rfl, State.getReg_retireBrk s,
      ⟨rfl, rfl⟩, fun _ => rfl, ⟨rfl, rfl, rfl, rfl, rfl, rfl⟩⟩
  · rw [exec_brk, exec_nop, retireBrk_eq_retireNext hdebug]

end Sys2Proof.Proofs
end

section
/-! Loads and stores (42_load_store.md R450 to R473): each is one checked access and then retires, so its
whole rule follows once for every load and once for every store. -/

namespace Sys2Proof.Machine

open Sys2Proof.Claims

/-! ## A little-endian read as bytes (20_memory.md R222) -/

theorem Memory.read_succ (m : Memory) (a n : Nat) :
    m.read a (n + 1) = m.read (a + 1) n ++ m.byte a := rfl

theorem Memory.read_two (m : Memory) (a : Nat) : m.read a 2 = half m a := by
  rw [Memory.read_succ, Memory.read_one]
  rfl

theorem Memory.read_four (m : Memory) (a : Nat) : m.read a 4 = quad m a := by
  rw [Memory.read_succ, Memory.read_succ, Memory.read_two]
  rfl

theorem Memory.read_eight (m : Memory) (a : Nat) : m.read a 8 = dword m a := by
  rw [Memory.read_succ, Memory.read_succ, Memory.read_succ, Memory.read_succ, Memory.read_four]
  rfl

/-! ## The faults of one access, in order (R214) -/

theorem readOk_eq_true_iff_readable (s : State) (a n : Nat) :
    readOk s.cfg a n = true ↔ Readable s a n :=
  readOk_iff _ _ _

section
variable {s : State} {addr : Word} {n : Nat}

theorem alignOk_eq_false_of_not_aligned {a : Nat} (h : ¬ Aligned s a n) : alignOk s.cfg a n = false :=
  Bool.eq_false_iff.2 (mt (alignOk_eq_true_iff_aligned s a n).1 h)

theorem memRead_of_not_readable (h : ¬ Readable s addr.toNat n) :
    memRead s addr n = .error (.exception .badRead addr s.pc) :=
  (memRead_eq_error_iff ..).2
    (.inl ⟨Bool.eq_false_iff.2 (mt (readOk_eq_true_iff_readable s _ n).1 h), rfl⟩)

theorem memRead_of_not_aligned (hread : Readable s addr.toNat n) (halign : ¬ Aligned s addr.toNat n) :
    memRead s addr n = .error (.exception .misaligned addr s.pc) :=
  (memRead_eq_error_iff ..).2 (.inr
    ⟨(readOk_eq_true_iff_readable s _ n).2 hread, alignOk_eq_false_of_not_aligned halign, rfl⟩)

theorem memWrite_of_not_writable (v : Word) (h : ¬ Writable s addr.toNat n) :
    memWrite s addr n v = .error (.exception .badWrite addr s.pc) :=
  (memWrite_eq_error_iff ..).2
    (.inl ⟨Bool.eq_false_iff.2 (mt (writeOk_eq_true_iff_writable s _ n).1 h), rfl⟩)

theorem memWrite_of_not_aligned (v : Word) (hwrite : Writable s addr.toNat n)
    (halign : ¬ Aligned s addr.toNat n) :
    memWrite s addr n v = .error (.exception .misaligned addr s.pc) :=
  (memWrite_eq_error_iff ..).2 (.inr
    ⟨(writeOk_eq_true_iff_writable s _ n).2 hwrite, alignOk_eq_false_of_not_aligned halign, rfl⟩)

end

/-! ## The rule of a load and of a store (R451, R452) -/

section
variable {op n : Nat} {i : Reg → Reg → Off11 → Instr}

/-- Every instruction whose meaning is `loadWith` obeys the rule of a load, for the value that `widen` makes
of the bytes read. -/
theorem loadLaw_of_loadWith {widen : BitVec (8 * n) → Word} {value : Memory → Nat → Word}
    (hselects : Selects op fun f => i f.rd f.rs1 f.off11)
    (hexec : ∀ rd rs1 off s, exec (i rd rs1 off) s = loadWith n widen rd rs1 off s)
    (hvalue : ∀ m a, widen (m.read a n) = value m a) : LoadLaw op n i value := by
  refine ⟨hselects, fun s rd rs1 off => ⟨fun hread halign => ?_, fun hread => ?_,
    fun hread halign => ?_⟩⟩
  · rw [← hvalue]
    exact writesRegister_of_loadWith (hexec ..) ((readOk_eq_true_iff_readable ..).2 hread)
      ((alignOk_eq_true_iff_aligned ..).2 halign)
  · exact (hexec ..).trans ((loadWith_eq_fault_iff ..).2 (memRead_of_not_readable hread))
  · exact (hexec ..).trans ((loadWith_eq_fault_iff ..).2 (memRead_of_not_aligned hread halign))

/-- Every instruction whose meaning is `storeWidth` obeys the rule of a store. -/
theorem storeLaw_of_storeWidth (hselects : Selects op fun f => i f.rd f.rs1 f.off11)
    (hexec : ∀ rd rs1 off s, exec (i rd rs1 off) s = storeWidth n rd rs1 off s) : StoreLaw op n i := by
  refine ⟨hselects, fun s rd rs1 off => ⟨fun hwrite halign => ?_, fun hwrite => ?_,
    fun hwrite halign => ?_⟩⟩
  · have hstore := (hexec rd rs1 off s).trans ((storeWidth_eq_next_iff ..).2
      ⟨(writeOk_eq_true_iff_writable ..).2 hwrite, (alignOk_eq_true_iff_aligned ..).2 halign, rfl⟩)
    have hbeside := SameBeside.setMem s (s.mem.write (effAddr s rs1 off).toNat (s.getReg rd) n)
    exact ⟨_, hstore, retired_retireTo hbeside _, State.getReg_retireNext _, ⟨rfl, rfl⟩,
      fun b => Memory.byte_write _ _ _ b _, sameHost_retireTo hbeside _⟩
  · exact (hexec ..).trans ((storeWidth_eq_fault_iff ..).2 (memWrite_of_not_writable _ hwrite))
  · exact (hexec ..).trans ((storeWidth_eq_fault_iff ..).2 (memWrite_of_not_aligned _ hwrite halign))

end

end Sys2Proof.Machine

namespace Sys2Proof.Proofs

open Sys2Proof.Machine Sys2Proof.Claims

/-- Settles O34: each load is `loadWith` at its width, and what it reads is its bytes in little-endian order,
extended. -/
theorem loadsReadAndExtend : Obligations.LoadsReadAndExtend := by
  refine ⟨?lb, ?lbu, ?lh, ?lhu, ?lw, ?lwu, ?ld⟩ <;>
    refine loadLaw_of_loadWith (selects_of_fields (fun _ => rfl) fun _ => rfl) (fun _ _ _ _ => rfl)
      fun m a => ?_
  case lb => exact congrArg (BitVec.signExtend 64) (m.read_one a)
  case lbu => exact congrArg (BitVec.setWidth 64) (m.read_one a)
  case lh => exact congrArg (BitVec.signExtend 64) (m.read_two a)
  case lhu => exact congrArg (BitVec.setWidth 64) (m.read_two a)
  case lw => exact congrArg (BitVec.signExtend 64) (m.read_four a)
  case lwu => exact congrArg (BitVec.setWidth 64) (m.read_four a)
  case ld => exact (BitVec.setWidth_eq _).trans (m.read_eight a)

/-- Settles O35: each store is `storeWidth` at its width. -/
theorem storesWriteTheLowBytes : Obligations.StoresWriteTheLowBytes := by
  refine ⟨?sb, ?sh, ?sw, ?sd⟩ <;>
    exact storeLaw_of_storeWidth (selects_of_fields (fun _ => rfl) fun _ => rfl) fun _ _ _ _ => rfl

end Sys2Proof.Proofs
end

section
/-! Moves (43_moves.md R500 to R503): each only writes its source to `rd` and retires, so only the value of
`lui` needs an argument of its own. -/

namespace Sys2Proof.Machine

/-- R500: moving the zero-extended immediate up 16 bits multiplies it by 2^16. -/
theorem luiImm_eq_ofNat (imm : Imm16) : luiImm imm = BitVec.ofNat 64 (imm.toNat * 2 ^ 16) := by
  refine BitVec.eq_of_toNat_eq ?_
  simp [luiImm, Nat.shiftLeft_eq]

theorem exec_lui (rd : Reg) (imm : Imm16) (s : State) :
    exec (.lui rd imm) s = .next (s.setReg rd (luiImm imm)).retireNext := rfl

theorem exec_mov (rd rs1 : Reg) (s : State) :
    exec (.mov rd rs1) s = .next (s.setReg rd (s.getReg rs1)).retireNext := rfl

theorem exec_mfhi (rd : Reg) (s : State) :
    exec (.mfhi rd) s = .next (s.setReg rd s.hi).retireNext := rfl

theorem exec_mflo (rd : Reg) (s : State) :
    exec (.mflo rd) s = .next (s.setReg rd s.lo).retireNext := rfl

end Sys2Proof.Machine

namespace Sys2Proof.Proofs

open Sys2Proof.Machine Sys2Proof.Claims

/-- Settles O37: each move sets `rd` to its source and retires; the source of `lui` is its immediate times
2^16. -/
theorem movesWriteTheirSource : Obligations.MovesWriteTheirSource := by
  refine ⟨⟨?selects_lui, fun s rd imm => ?lui⟩, ⟨?selects_mov, fun s rd rs1 => ?mov⟩,
    ⟨?selects_mfhi, fun s rd => ?mfhi⟩, ⟨?selects_mflo, fun s rd => ?mflo⟩⟩
  case lui => exact luiImm_eq_ofNat imm ▸ writesRegister_of_exec (exec_lui rd imm s)
  case mov => exact writesRegister_of_exec (exec_mov rd rs1 s)
  case mfhi => exact writesRegister_of_exec (exec_mfhi rd s)
  case mflo => exact writesRegister_of_exec (exec_mflo rd s)
  all_goals exact selects_of_fields (fun _ => rfl) fun _ => rfl

end Sys2Proof.Proofs
end

section
/-! Comparisons (44_compare.md R550 to R565): each computes one word from its operands, writes it to `rd` and
retires; the word is the 1-bit result of a relation, and the immediate operand is never negative. -/

namespace Sys2Proof.Machine

open Sys2Proof.Claims

/-! ## The rule of an instruction that only computes a register -/

/-- Every three-register instruction whose meaning is one `writeReg` obeys the rule of such an instruction. -/
theorem registerLaw_of_writeReg {op : Nat} {i : Reg → Reg → Reg → Instr} {f value : Word → Word → Word}
    (hselects : Selects op fun k => i k.rd k.rs1 k.rs2)
    (hvalue : ∀ a b, f a b = value a b)
    (hexec : ∀ rd rs1 rs2 s, exec (i rd rs1 rs2) s = writeReg s rd (f (s.getReg rs1) (s.getReg rs2))) :
    RegisterLaw op i value :=
  ⟨hselects, fun s rd rs1 rs2 => hvalue _ _ ▸ writesRegister_of_exec (hexec rd rs1 rs2 s)⟩

/-- Every immediate instruction whose meaning is one `writeReg` obeys the rule of such an instruction. -/
theorem immediateLaw_of_writeReg {op : Nat} {i : Reg → Reg → Imm16 → Instr} {f value : Word → Imm16 → Word}
    (hselects : Selects op fun k => i k.rd k.rs1 k.imm16)
    (hvalue : ∀ a imm, f a imm = value a imm)
    (hexec : ∀ rd rs1 imm s, exec (i rd rs1 imm) s = writeReg s rd (f (s.getReg rs1) imm)) :
    ImmediateLaw op i value :=
  ⟨hselects, fun s rd rs1 imm => hvalue _ _ ▸ writesRegister_of_exec (hexec rd rs1 imm s)⟩

/-! ## The immediate of a comparison (30_encoding.md R311) -/

theorem toNat_uimm (imm : Imm16) : (uimm imm).toNat = imm.toNat :=
  BitVec.toNat_setWidth_of_le (by decide)

theorem toInt_uimm (imm : Imm16) : (uimm imm).toInt = imm.toNat := by
  have hlt : imm.toNat < 2 ^ 16 := imm.isLt
  rw [BitVec.toInt_eq_toNat_of_lt (by rw [toNat_uimm]; omega), toNat_uimm]

theorem eq_uimm_iff (a : Word) (imm : Imm16) : a = uimm imm ↔ a.toNat = imm.toNat := by
  rw [← BitVec.toNat_inj, toNat_uimm]

/-! ## The relations as words (R550) -/

theorem relationWord_decide (p : Prop) [Decidable p] : relationWord (decide p) = if p then 1 else 0 := by
  by_cases h : p
  · simp only [h, decide_true, if_true]; rfl
  · simp only [h, decide_false, if_false]; rfl

theorem relationWord_lessSigned (a b : Word) :
    relationWord (lessSigned a b) = if a.toInt < b.toInt then 1 else 0 :=
  relationWord_decide _

theorem relationWord_lessUnsigned (a b : Word) :
    relationWord (lessUnsigned a b) = if a.toNat < b.toNat then 1 else 0 :=
  relationWord_decide _

theorem relationWord_equalWords (a b : Word) :
    relationWord (equalWords a b) = if a = b then 1 else 0 :=
  relationWord_decide _

theorem relationWord_lessSigned_uimm (a : Word) (imm : Imm16) :
    relationWord (lessSigned a (uimm imm)) = if a.toInt < (imm.toNat : Int) then 1 else 0 := by
  rw [relationWord_lessSigned, toInt_uimm]

theorem relationWord_lessUnsigned_uimm (a : Word) (imm : Imm16) :
    relationWord (lessUnsigned a (uimm imm)) = if a.toNat < imm.toNat then 1 else 0 := by
  rw [relationWord_lessUnsigned, toNat_uimm]

theorem relationWord_equalWords_uimm (a : Word) (imm : Imm16) :
    relationWord (equalWords a (uimm imm)) = if a.toNat = imm.toNat then 1 else 0 := by
  simp only [relationWord_equalWords, eq_uimm_iff]

end Sys2Proof.Machine

namespace Sys2Proof.Proofs

open Sys2Proof.Machine Sys2Proof.Claims

/-- Settles O38: each comparison writes the word of its relation; for an immediate the relation is that with
its zero-extension, whose value is the immediate's, also as a signed word. -/
theorem comparisonsWriteOneOrZero : Obligations.ComparisonsWriteOneOrZero := by
  refine ⟨registerLaw_of_writeReg ?slt relationWord_lessSigned fun _ _ _ _ => rfl,
    registerLaw_of_writeReg ?sltu relationWord_lessUnsigned fun _ _ _ _ => rfl,
    registerLaw_of_writeReg ?seq relationWord_equalWords fun _ _ _ _ => rfl,
    immediateLaw_of_writeReg ?slti relationWord_lessSigned_uimm fun _ _ _ _ => rfl,
    immediateLaw_of_writeReg ?sltiu relationWord_lessUnsigned_uimm fun _ _ _ _ => rfl,
    immediateLaw_of_writeReg ?seqi relationWord_equalWords_uimm fun _ _ _ _ => rfl⟩
  all_goals exact selects_of_fields (fun _ => rfl) fun _ => rfl

end Sys2Proof.Proofs
end

section
/-! Bitwise operations and shifts (45_logic_shift.md R590 to R623): each computes one word from its operands,
writes it to `rd` and retires; what is left to say is which number that word is. -/

namespace Sys2Proof.Machine

/-! ## Bitwise (R590 to R607) -/

/-- R590: the zero-extended immediate is the word of the immediate's own value. -/
theorem uimm_eq_ofNat (imm : Imm16) : uimm imm = BitVec.ofNat 64 imm.toNat :=
  (BitVec.ofNat_toNat 64 imm).symm

/-- R605: the immediate has no bit above bit 15, so only the low 16 bits of the register matter. -/
theorem and_uimm_eq_ofNat (a : Word) (imm : Imm16) :
    a &&& uimm imm = BitVec.ofNat 64 ((a.toNat % 2 ^ 16) &&& imm.toNat) := by
  have hlow : (a.toNat % 2 ^ 16) &&& imm.toNat = a.toNat &&& imm.toNat :=
    calc (a.toNat % 2 ^ 16) &&& imm.toNat
      _ = (a.toNat % 2 ^ 16) &&& (imm.toNat % 2 ^ 16) := by rw [Nat.mod_eq_of_lt imm.isLt]
      _ = (a.toNat &&& imm.toNat) % 2 ^ 16 := (Nat.and_mod_two_pow ..).symm
      _ = a.toNat &&& imm.toNat := Nat.mod_eq_of_lt (Nat.and_lt_two_pow _ imm.isLt)
  rw [hlow, BitVec.ofNat_and, BitVec.ofNat_toNat, BitVec.setWidth_eq, uimm_eq_ofNat]

/-- R607: `nori` through the complements of its operands. -/
theorem not_or_uimm_eq (a : Word) (imm : Imm16) :
    ~~~(a ||| uimm imm) = ~~~a &&& ~~~BitVec.ofNat 64 imm.toNat := by
  rw [BitVec.not_or, uimm_eq_ofNat]

/-! ## Shifts (R610 to R623): the count operand is a register or an immediate, so of any width -/

/-- R610: a left shift multiplies, and the bits shifted out are those lost modulo 2^64. -/
theorem shiftLeft_shiftCount {n : Nat} (a : Word) (count : BitVec n) :
    a <<< shiftCount count = BitVec.ofNat 64 (a.toNat * 2 ^ (count.toNat % 64)) := by
  refine BitVec.eq_of_toNat_eq ?_
  rw [BitVec.toNat_shiftLeft, Nat.shiftLeft_eq, BitVec.toNat_ofNat]
  rfl

/-- R610: a logical right shift divides, whatever the sign bit. -/
theorem shiftRight_shiftCount {n : Nat} (a : Word) (count : BitVec n) :
    a >>> shiftCount count = BitVec.ofNat 64 (a.toNat / 2 ^ (count.toNat % 64)) := by
  refine BitVec.eq_of_toNat_eq ?_
  have hlt : a.toNat / 2 ^ (count.toNat % 64) < 2 ^ 64 := (Nat.div_le_self ..).trans_lt a.isLt
  rw [BitVec.toNat_ushiftRight, Nat.shiftRight_eq_div_pow, BitVec.toNat_ofNat, Nat.mod_eq_of_lt hlt]
  rfl

end Sys2Proof.Machine

namespace Sys2Proof.Proofs

open Sys2Proof.Machine Sys2Proof.Claims

/-- Settles O39: `or`, `and` and `xor` write the word as it is stated; `nor` is De Morgan's law, and the
immediate forms are the same operations on the word of the immediate's value. -/
theorem bitwiseInstructionsCombineAllBits : Obligations.BitwiseInstructionsCombineAllBits := by
  refine ⟨registerLaw_of_writeReg ?or (fun _ _ => rfl) fun _ _ _ _ => rfl,
    registerLaw_of_writeReg ?and (fun _ _ => rfl) fun _ _ _ _ => rfl,
    registerLaw_of_writeReg ?xor (fun _ _ => rfl) fun _ _ _ _ => rfl,
    registerLaw_of_writeReg ?nor (fun _ _ => BitVec.not_or) fun _ _ _ _ => rfl,
    immediateLaw_of_writeReg ?ori (fun a imm => congrArg (a ||| ·) (uimm_eq_ofNat imm)) fun _ _ _ _ => rfl,
    immediateLaw_of_writeReg ?andi and_uimm_eq_ofNat fun _ _ _ _ => rfl,
    immediateLaw_of_writeReg ?xori (fun a imm => congrArg (a ^^^ ·) (uimm_eq_ofNat imm)) fun _ _ _ _ => rfl,
    immediateLaw_of_writeReg ?nori not_or_uimm_eq fun _ _ _ _ => rfl⟩
  all_goals exact selects_of_fields (fun _ => rfl) fun _ => rfl

/-- Settles O40: a register count and an immediate count go through the same two facts about a logical shift
by a count modulo 64. -/
theorem shiftsAreLogicalModuloSixtyFour : Obligations.ShiftsAreLogicalModuloSixtyFour := by
  refine ⟨registerLaw_of_writeReg ?sll shiftLeft_shiftCount fun _ _ _ _ => rfl,
    registerLaw_of_writeReg ?srl shiftRight_shiftCount fun _ _ _ _ => rfl,
    immediateLaw_of_writeReg ?slli shiftLeft_shiftCount fun _ _ _ _ => rfl,
    immediateLaw_of_writeReg ?srli shiftRight_shiftCount fun _ _ _ _ => rfl⟩
  all_goals exact selects_of_fields (fun _ => rfl) fun _ => rfl

end Sys2Proof.Proofs
end

section
/-! Add and subtract (46_arith.md R650 to R663): each computes one word from its operands, writes it to `rd`
and retires. `BitVec.ofInt 64` takes the exact integer modulo 2^64, and carries sums and differences of
integers to those of words; an operand may be read as signed or unsigned, since both stand for one word. -/

namespace Sys2Proof.Machine

theorem ofInt_sub {n : Nat} (x y : Int) : BitVec.ofInt n (x - y) = BitVec.ofInt n x - BitVec.ofInt n y := by
  rw [Int.sub_eq_add_neg, BitVec.ofInt_add, BitVec.ofInt_neg, BitVec.sub_eq_add_neg]

theorem ofInt_toNat {n : Nat} (a : BitVec n) : BitVec.ofInt n a.toNat = a := by
  rw [BitVec.ofInt_natCast, BitVec.ofNat_toNat, BitVec.setWidth_eq]

/-- R651: the sign-extended immediate is the word of the immediate's signed value. -/
theorem simm_eq_ofInt (imm : Imm16) : simm imm = BitVec.ofInt 64 imm.toInt := rfl

/-- R661, R650: the difference of two words is their exact unsigned difference, which may be negative,
modulo 2^64. -/
theorem sub_eq_ofInt (a b : Word) : a - b = BitVec.ofInt 64 ((a.toNat : Int) - b.toNat) := by
  rw [ofInt_sub, ofInt_toNat, ofInt_toNat]

/-- R662: the exact sum with the signed immediate, modulo 2^64. -/
theorem add_simm_eq_ofInt (a : Word) (imm : Imm16) : a + simm imm = BitVec.ofInt 64 (a.toInt + imm.toInt) := by
  rw [BitVec.ofInt_add, BitVec.ofInt_toInt, simm_eq_ofInt]

/-- R663: the exact difference with the signed immediate, modulo 2^64. -/
theorem sub_simm_eq_ofInt (a : Word) (imm : Imm16) : a - simm imm = BitVec.ofInt 64 (a.toInt - imm.toInt) := by
  rw [ofInt_sub, BitVec.ofInt_toInt, simm_eq_ofInt]

end Sys2Proof.Machine

namespace Sys2Proof.Proofs

open Sys2Proof.Machine Sys2Proof.Claims

/-- Settles O41: each instruction writes one sum or difference of words, which is the exact one modulo 2^64;
the immediate forms add and subtract the word of the immediate's signed value. -/
theorem addAndSubtractWrap : Obligations.AddAndSubtractWrap := by
  refine ⟨registerLaw_of_writeReg ?add BitVec.add_def fun _ _ _ _ => rfl,
    registerLaw_of_writeReg ?sub sub_eq_ofInt fun _ _ _ _ => rfl,
    immediateLaw_of_writeReg ?addi add_simm_eq_ofInt fun _ _ _ _ => rfl,
    immediateLaw_of_writeReg ?subi sub_simm_eq_ofInt fun _ _ _ _ => rfl⟩
  all_goals exact selects_of_fields (fun _ => rfl) fun _ => rfl

end Sys2Proof.Proofs
end

section
/-! Multiply and divide (47_muldiv.md R700 to R721): each writes `hi` and `lo` and retires. What is left to say
is integer arithmetic: a product is its two halves, its signed and its unsigned reading differ by a correction
of the upper half, and the division of R721 is the truncating division of integers. -/

namespace Sys2Proof.Machine

open Sys2Proof.Claims

/-! ## Instructions that write `hi` and `lo` alone (R700) -/

/-- An instruction that only sets `hi` and `lo` and retires completes and changes nothing else; what else is
claimed of the state it reaches is left to show. -/
theorem exists_next_of_setHiLo {i : Instr} {s : State} {hi lo : Word} {P : State → Prop}
    (h : exec i s = .next (s.setHiLo hi lo).retireNext) (hP : P (s.setHiLo hi lo).retireNext) :
    ∃ t, exec i s = .next t ∧ Retired s t (s.pc + 4) ∧ SameRegisters s t ∧ SameMemory s t ∧
      SameHost s t ∧ P t :=
  ⟨_, h, ⟨rfl, rfl, by simp, by simp, rfl, rfl⟩, State.getReg_retireNext _, fun _ => rfl,
    ⟨rfl, rfl, rfl, rfl, rfl, rfl⟩, hP⟩

theorem exec_mulu (rd rs1 : Reg) (s : State) :
    exec (.mulu rd rs1) s =
      .next (writeProduct s ((s.getReg rd).toNat * (s.getReg rs1).toNat : Nat)).retireNext := rfl

theorem exec_mul (rd rs1 : Reg) (s : State) :
    exec (.mul rd rs1) s =
      .next (writeProduct s ((s.getReg rd).toInt * (s.getReg rs1).toInt)).retireNext := rfl

/-! ## The halves of a product (R701) -/

theorem toNat_ofInt_eq_emod (p : Int) : ((BitVec.ofInt 64 p).toNat : Int) = p % 2 ^ 64 := by
  rw [BitVec.toNat_ofInt]
  exact Int.toNat_of_nonneg (Int.emod_nonneg p (by decide))

/-- R710: the product of two 64-bit naturals is below 2^128, so its upper half is a 64-bit natural. -/
theorem toNat_halves_mul (a b : Word) :
    (BitVec.ofInt 64 (((a.toNat * b.toNat : Nat) : Int) / 2 ^ 64)).toNat * 2 ^ 64
      + (BitVec.ofInt 64 ((a.toNat * b.toNat : Nat) : Int)).toNat = a.toNat * b.toNat := by
  have hlt : a.toNat * b.toNat < 2 ^ 64 * 2 ^ 64 := Nat.mul_lt_mul'' a.isLt b.isLt
  have hlo := toNat_ofInt_eq_emod ((a.toNat * b.toNat : Nat) : Int)
  have hhi := toNat_ofInt_eq_emod (((a.toNat * b.toNat : Nat) : Int) / 2 ^ 64)
  omega

/-- R711: the product of two 64-bit integers is at most 2^126 in magnitude, so its upper half, rounded down,
is a 64-bit integer. -/
theorem toInt_halves_mul (a b : Word) :
    (BitVec.ofInt 64 (a.toInt * b.toInt / 2 ^ 64)).toInt * 2 ^ 64
      + (BitVec.ofInt 64 (a.toInt * b.toInt)).toNat = a.toInt * b.toInt := by
  have hmin : -2 ^ 126 ≤ a.toInt * b.toInt := BitVec.le_toInt_mul_toInt
  have hmax : a.toInt * b.toInt ≤ 2 ^ 126 := BitVec.toInt_mul_toInt_le
  rw [toNat_ofInt_eq_emod, BitVec.toInt_ofInt_eq_self (by decide) (by omega) (by omega)]
  exact Int.ediv_mul_add_emod ..

/-! ## The two's-complement correction (R701) -/

/-- The signed reading of a word is its unsigned one, less 2^64 when it is negative. -/
theorem toInt_eq_toNat_sub_ite (a : Word) :
    a.toInt = a.toNat - 2 ^ 64 * (if a.toInt < 0 then 1 else 0) := by
  have hlt := a.isLt
  have hcond := BitVec.toInt_eq_toNat_cond a
  split <;> split at hcond <;> omega

/-- The two products differ by a multiple of 2^64: the other operand once per negative operand. The
correction for `b` is made where `a` is read as signed already, so that no term in 2^128 is left over. -/
theorem toInt_mul_toInt_eq_sub (a b : Word) :
    a.toInt * b.toInt = ((a.toNat * b.toNat : Nat) : Int)
      - 2 ^ 64 * ((if a.toInt < 0 then (b.toNat : Int) else 0) + if b.toInt < 0 then a.toInt else 0) := by
  have ha := toInt_eq_toNat_sub_ite a
  have hb := toInt_eq_toNat_sub_ite b
  push_cast
  split_ifs at ha hb ⊢ <;> linear_combination (b.toNat : Int) * ha + a.toInt * hb

/-- Modulo 2^64 the correction leaves the lower half as it is. -/
theorem ofInt_toInt_mul_toInt (a b : Word) :
    BitVec.ofInt 64 (a.toInt * b.toInt) = BitVec.ofInt 64 ((a.toNat * b.toNat : Nat) : Int) := by
  rw [Int.natCast_mul, BitVec.ofInt_mul, BitVec.ofInt_mul, BitVec.ofInt_toInt, BitVec.ofInt_toInt,
    ofInt_toNat, ofInt_toNat]

/-- From the upper half the correction subtracts words, for which signed and unsigned reading are one. -/
theorem ofInt_toInt_mul_toInt_ediv (a b : Word) :
    BitVec.ofInt 64 (a.toInt * b.toInt / 2 ^ 64) =
      BitVec.ofInt 64 (((a.toNat * b.toNat : Nat) : Int) / 2 ^ 64)
        - (if a.toInt < 0 then b else 0) - if b.toInt < 0 then a else 0 := by
  have hb : BitVec.ofInt 64 (if a.toInt < 0 then (b.toNat : Int) else 0) = if a.toInt < 0 then b else 0 := by
    rw [apply_ite (BitVec.ofInt 64), ofInt_toNat]
    rfl
  have ha : BitVec.ofInt 64 (if b.toInt < 0 then a.toInt else 0) = if b.toInt < 0 then a else 0 := by
    rw [apply_ite (BitVec.ofInt 64), BitVec.ofInt_toInt]
    rfl
  rw [toInt_mul_toInt_eq_sub, Int.sub_mul_ediv_left _ _ (by decide), ← Int.sub_sub, ofInt_sub, ofInt_sub, ha,
    hb]

/-! ## Unsigned division (R703, R720) -/

section
variable {s : State} {rd rs1 : Reg}

theorem exec_divu_of_eq_zero (hzero : s.getReg rs1 = 0) :
    exec (.divu rd rs1) s = .fault (raise .divideByZero s.pc s) :=
  if_pos hzero

theorem exec_divu_of_ne_zero (hzero : s.getReg rs1 ≠ 0) :
    exec (.divu rd rs1) s =
      .next (s.setHiLo (BitVec.ofNat 64 ((s.getReg rd).toNat % (s.getReg rs1).toNat))
        (BitVec.ofNat 64 ((s.getReg rd).toNat / (s.getReg rs1).toNat))).retireNext :=
  if_neg hzero

end

/-- Both results are at most the dividend, so they fit in a word. -/
theorem toNat_divu_spec (a : Word) {b : Word} (hb : b ≠ 0) :
    a.toNat = (BitVec.ofNat 64 (a.toNat / b.toNat)).toNat * b.toNat
        + (BitVec.ofNat 64 (a.toNat % b.toNat)).toNat ∧
      (BitVec.ofNat 64 (a.toNat % b.toNat)).toNat < b.toNat := by
  rw [← BitVec.umod_def, ← BitVec.udiv_def, BitVec.toNat_udiv, BitVec.toNat_umod]
  exact ⟨(Nat.div_add_mod' ..).symm, Nat.mod_lt _ (Nat.pos_of_ne_zero (BitVec.toNat_ne.1 hb))⟩

/-! ## Signed division (R702 to R704, R721) -/

/-- R702: the quotient through sign and magnitude is the truncating division of integers. -/
theorem signedQuotient_eq_tdiv (a b : Int) : signedQuotient a b = a.tdiv b := by
  rw [signedQuotient, ← Int.sign_mul_natAbs (a.tdiv b), Int.sign_tdiv, Int.natAbs_tdiv]
  split
  next hlt => simp [Nat.div_eq_of_lt hlt]
  next => rfl

theorem signedRemainder_eq_tmod (a b : Int) : signedRemainder a b = a.tmod b := by
  rw [signedRemainder, signedQuotient_eq_tdiv, Int.tmod_def, Int.mul_comm]

/-- The words that R721 writes are the library's truncating division of words. -/
theorem ofInt_signedQuotient (a b : Word) :
    BitVec.ofInt 64 (signedQuotient a.toInt b.toInt) = a.sdiv b := by
  refine BitVec.eq_of_toInt_eq ?_
  rw [signedQuotient_eq_tdiv, BitVec.toInt_ofInt, BitVec.toInt_sdiv]

theorem ofInt_signedRemainder (a b : Word) :
    BitVec.ofInt 64 (signedRemainder a.toInt b.toInt) = a.srem b := by
  rw [signedRemainder_eq_tmod, ← BitVec.toInt_srem, BitVec.ofInt_toInt]

theorem divOverflows_iff (a b : Word) : divOverflows a b = true ↔ a.toInt = -2 ^ 63 ∧ b.toInt = -1 := by
  simp [divOverflows]

section
variable {s : State} {rd rs1 : Reg}

theorem exec_div_of_eq_zero (hzero : s.getReg rs1 = 0) :
    exec (.div rd rs1) s = .fault (raise .divideByZero s.pc s) :=
  if_pos hzero

theorem exec_div_of_ne_zero (hzero : s.getReg rs1 ≠ 0)
    (hfits : ¬ ((s.getReg rd).toInt = -2 ^ 63 ∧ (s.getReg rs1).toInt = -1)) :
    exec (.div rd rs1) s =
      .next (s.setHiLo ((s.getReg rd).srem (s.getReg rs1)) ((s.getReg rd).sdiv (s.getReg rs1))).retireNext := by
  rw [← ofInt_signedRemainder, ← ofInt_signedQuotient]
  exact (if_neg hzero).trans (if_neg (mt (divOverflows_iff ..).1 hfits))

/-- R704: the divisor -1 passes the zero check. -/
theorem ne_zero_of_toInt_eq_neg_one {b : Word} (hb : b.toInt = -1) : b ≠ 0 := by
  rintro rfl
  exact absurd hb (by decide)

theorem exec_div_of_overflow_fault (ha : (s.getReg rd).toInt = -2 ^ 63) (hb : (s.getReg rs1).toInt = -1)
    (hpolicy : s.cfg.divOvfPolicy = .fault) :
    exec (.div rd rs1) s = .fault (raise .divideOverflow s.pc s) := by
  simp only [exec, execDiv, if_neg (ne_zero_of_toInt_eq_neg_one hb),
    if_pos ((divOverflows_iff ..).2 ⟨ha, hb⟩), hpolicy]

theorem exec_div_of_overflow_wrap (ha : (s.getReg rd).toInt = -2 ^ 63) (hb : (s.getReg rs1).toInt = -1)
    (hpolicy : s.cfg.divOvfPolicy = .wrap) :
    exec (.div rd rs1) s = .next (s.setHiLo 0 (BitVec.ofNat 64 (2 ^ 63))).retireNext := by
  simp only [exec, execDiv, if_neg (ne_zero_of_toInt_eq_neg_one hb),
    if_pos ((divOverflows_iff ..).2 ⟨ha, hb⟩), hpolicy]

end

/-- R704: every other quotient fits in a word, so it is exact. -/
theorem toInt_sdiv_of_fits {a b : Word} (hfits : ¬ (a.toInt = -2 ^ 63 ∧ b.toInt = -1)) :
    (a.sdiv b).toInt = a.toInt.tdiv b.toInt := by
  refine BitVec.toInt_sdiv_of_ne_or_ne a b (not_and_or.1 fun ⟨ha, hb⟩ => hfits ?_)
  rw [ha, hb]
  decide

/-- R721: the division identity, with a remainder smaller in magnitude than the divisor. -/
theorem toInt_sdiv_spec {a b : Word} (hb : b ≠ 0) (hfits : ¬ (a.toInt = -2 ^ 63 ∧ b.toInt = -1)) :
    a.toInt = (a.sdiv b).toInt * b.toInt + (a.srem b).toInt ∧
      (a.srem b).toInt.natAbs < b.toInt.natAbs := by
  have hpos : 0 < b.toInt.natAbs := Int.natAbs_pos.2 (BitVec.toInt_ne.2 hb)
  rw [toInt_sdiv_of_fits hfits, BitVec.toInt_srem, Int.natAbs_tmod]
  exact ⟨(Int.tdiv_mul_add_tmod ..).symm, Nat.mod_lt _ hpos⟩

/-- R702: a remainder other than 0 has the sign of the dividend. -/
theorem srem_eq_zero_or_toInt_neg_iff (a b : Word) :
    a.srem b = 0 ∨ ((a.srem b).toInt < 0 ↔ a.toInt < 0) := by
  have hsign := Int.sign_tmod a.toInt b.toInt
  rw [← BitVec.toInt_srem] at hsign
  split at hsign
  next => exact .inl (BitVec.eq_of_toInt_eq (Int.sign_eq_zero_iff_zero.1 hsign))
  next => exact .inr (by rw [← Int.sign_eq_neg_one_iff_neg, hsign, Int.sign_eq_neg_one_iff_neg])

end Sys2Proof.Machine

namespace Sys2Proof.Proofs

open Sys2Proof.Machine Sys2Proof.Claims

/-- Settles O42: each multiply writes the two halves of its product, and either product is the sum of its
halves. -/
theorem multipliesGiveTheExactProduct : Obligations.MultipliesGiveTheExactProduct := by
  refine ⟨⟨?mulu, fun s rd rs1 => exists_next_of_setHiLo (exec_mulu rd rs1 s) (toNat_halves_mul ..)⟩,
    ⟨?mul, fun s rd rs1 => exists_next_of_setHiLo (exec_mul rd rs1 s) (toInt_halves_mul ..)⟩⟩
  all_goals exact selects_of_fields (fun _ => rfl) fun _ => rfl

/-- Settles O43: the two products differ by a multiple of 2^64, which the lower half does not see and the
upper half takes as the correction. -/
theorem signedProductIsTheCorrectedUnsigned : Obligations.SignedProductIsTheCorrectedUnsigned := by
  intro s t u rd rs1 hmul hmulu
  obtain rfl := Host.Outcome.next.inj ((exec_mul rd rs1 s).symm.trans hmul)
  obtain rfl := Host.Outcome.next.inj ((exec_mulu rd rs1 s).symm.trans hmulu)
  exact ⟨ofInt_toInt_mul_toInt .., ofInt_toInt_mul_toInt_ediv ..⟩

/-- Settles O44: past the zero check `divu` writes quotient and remainder of naturals. -/
theorem unsignedDivideGivesQuotientAndRemainder : Obligations.UnsignedDivideGivesQuotientAndRemainder := by
  refine ⟨selects_of_fields (fun _ => rfl) fun _ => rfl, fun s rd rs1 =>
    ⟨fun hzero => ?_, exec_divu_of_eq_zero⟩⟩
  exact exists_next_of_setHiLo (exec_divu_of_ne_zero hzero) (toNat_divu_spec _ hzero)

/-- Settles O45: past both checks `div` writes quotient and remainder of the truncating division; -2^63 by -1
passes the zero check and ends as the policy says. -/
theorem signedDivideRoundsTowardZero : Obligations.SignedDivideRoundsTowardZero := by
  refine ⟨selects_of_fields (fun _ => rfl) fun _ => rfl, fun s rd rs1 =>
    ⟨fun hzero hfits => ?_, exec_div_of_eq_zero, fun ha hb => ⟨fun hpolicy => ?_, fun hpolicy => ?_⟩⟩⟩
  · obtain ⟨hidentity, hsmaller⟩ := toInt_sdiv_spec hzero hfits
    exact exists_next_of_setHiLo (exec_div_of_ne_zero hzero hfits)
      ⟨hidentity, hsmaller, srem_eq_zero_or_toInt_neg_iff ..⟩
  · exact exec_div_of_overflow_fault ha hb hpolicy
  · exact exists_next_of_setHiLo (exec_div_of_overflow_wrap ha hb hpolicy) ⟨rfl, rfl⟩

end Sys2Proof.Proofs
end

section
/-! One push and one pop (48_stack_call.md R750 to R754): each is one checked access, moves SP and retires, so
its whole rule follows once for both widths. -/

namespace Sys2Proof.Machine

open Sys2Proof.Claims

section
variable {s : State} {n : Nat}

theorem push_of_writable (v : Word) (hwrite : Writable s (pushAddr s n).toNat n)
    (halign : Aligned s (pushAddr s n).toNat n) :
    push s n v = .ok ((s.setMem (s.mem.write (pushAddr s n).toNat v n)).setReg Config.sp (pushAddr s n)) :=
  (push_eq_ok_iff ..).2
    ⟨(writeOk_eq_true_iff_writable ..).2 hwrite, (alignOk_eq_true_iff_aligned ..).2 halign, rfl⟩

theorem pop_of_readable (hread : Readable s (s.getReg Config.sp).toNat n)
    (halign : Aligned s (s.getReg Config.sp).toNat n) :
    pop s n = .ok (s.mem.read (s.getReg Config.sp).toNat n,
      s.setReg Config.sp (s.getReg Config.sp + BitVec.ofNat 64 n)) :=
  (pop_eq_ok_iff ..).2
    ⟨(readOk_eq_true_iff_readable ..).2 hread, (alignOk_eq_true_iff_aligned ..).2 halign, rfl, rfl⟩

theorem sameBeside_of_pop {t : State} {v : BitVec (8 * n)} (h : pop s n = .ok (v, t)) : SameBeside s t := by
  obtain ⟨-, -, -, rfl⟩ := (pop_eq_ok_iff ..).1 h
  exact .setReg _ _ _

/-- Everything a push instruction can raise: what its write raises. -/
theorem pushWidth_eq_fault_iff (rd : Reg) (f : Fault) :
    pushWidth n rd s = .fault f ↔ memWrite s (pushAddr s n) n (s.getReg rd) = .error f := by
  rw [← push_eq_error_iff]
  cases h : push s n (s.getReg rd) <;> simp [pushWidth, h]

/-- Everything a pop instruction can raise: what its read raises. -/
theorem popWidth_eq_fault_iff (rd : Reg) (f : Fault) :
    popWidth n rd s = .fault f ↔ memRead s (s.getReg Config.sp) n = .error f := by
  rw [← pop_eq_error_iff]
  cases h : pop s n <;> simp [popWidth, h]

end

section
variable {op n : Nat} {i : Reg → Instr}

/-- Every instruction whose meaning is `pushWidth` obeys the rule of a push. -/
theorem pushLaw_of_pushWidth (hselects : Selects op fun f => i f.rd)
    (hexec : ∀ rd s, exec (i rd) s = pushWidth n rd s) : PushLaw op n i := by
  refine ⟨hselects, fun s rd => ⟨fun hwrite halign => ?_, fun hwrite => ?_, fun hwrite halign => ?_⟩⟩
  · have hpush := push_of_writable (s.getReg rd) hwrite halign
    have hbeside := sameBeside_of_push hpush
    refine ⟨_, (hexec rd s).trans ((pushWidth_eq_next_iff ..).2 ⟨_, hpush, rfl⟩),
      retired_retireTo hbeside _, fun q => ?_, ⟨rfl, rfl⟩, fun b => Memory.byte_write _ _ _ b _,
      sameHost_retireTo hbeside _⟩
    rw [State.getReg_retireNext, State.getReg_setReg, State.getReg_setMem]
    rfl
  · exact (hexec ..).trans ((pushWidth_eq_fault_iff ..).2 (memWrite_of_not_writable _ hwrite))
  · exact (hexec ..).trans ((pushWidth_eq_fault_iff ..).2 (memWrite_of_not_aligned _ hwrite halign))

/-- Every instruction whose meaning is `popWidth` obeys the rule of a pop, for the value that sign extension
makes of the bytes read. -/
theorem popLaw_of_popWidth {value : Memory → Nat → Word} (hselects : Selects op fun f => i f.rd)
    (hexec : ∀ rd s, exec (i rd) s = popWidth n rd s)
    (hvalue : ∀ m a, (Memory.read m a n).signExtend 64 = value m a) : PopLaw op n i value := by
  refine ⟨hselects, fun s rd => ⟨fun hread halign => ?_, fun hread => ?_, fun hread halign => ?_⟩⟩
  · have hpop := pop_of_readable hread halign
    have hbeside := (sameBeside_of_pop hpop).trans
      (.setReg _ rd ((s.mem.read (s.getReg Config.sp).toNat n).signExtend 64))
    refine ⟨_, (hexec rd s).trans ((popWidth_eq_next_iff ..).2 ⟨_, _, hpop, rfl⟩),
      retired_retireTo hbeside _, fun q => ?_, ⟨rfl, rfl⟩, fun _ => rfl, sameHost_retireTo hbeside _⟩
    have hsp : q = Config.sp ∧ q ≠ 0 ↔ q = Config.sp := and_iff_left_of_imp (by rintro rfl; decide)
    simp only [State.getReg_retireNext, State.getReg_setReg, hvalue, hsp]
  · exact (hexec ..).trans ((popWidth_eq_fault_iff ..).2 (memRead_of_not_readable hread))
  · exact (hexec ..).trans ((popWidth_eq_fault_iff ..).2 (memRead_of_not_aligned hread halign))

end

end Sys2Proof.Machine

namespace Sys2Proof.Proofs

open Sys2Proof.Machine Sys2Proof.Claims

/-- Settles O46: both pushes are `pushWidth`, which reads the register before SP moves. -/
theorem pushesWriteBelowSpAndMoveIt : Obligations.PushesWriteBelowSpAndMoveIt := by
  refine ⟨?push, ?pushw⟩ <;>
    exact pushLaw_of_pushWidth (selects_of_fields (fun _ => rfl) fun _ => rfl) fun _ _ => rfl

/-- Settles O47: both pops are `popWidth`; the eight bytes of `pop` fill the register, and the four of `popw`
are sign-extended. -/
theorem popsReadAtSpAndMoveIt : Obligations.PopsReadAtSpAndMoveIt := by
  refine ⟨?pop, ?popw⟩ <;>
    refine popLaw_of_popWidth (selects_of_fields (fun _ => rfl) fun _ => rfl) (fun _ _ => rfl) fun m a => ?_
  case pop => exact (BitVec.signExtend_eq _).trans (m.read_eight a)
  case popw => exact congrArg (BitVec.signExtend 64) (m.read_four a)

end Sys2Proof.Proofs
end

section
/-! The faults of `call`, all of `ret`, and the two together (48_stack_call.md R765 to R767, 60_exceptions.md
R903): `ret` is ten pops, in the reverse order of the pushes of `call`. -/

namespace Sys2Proof.Machine

open Sys2Proof.Claims

/-! ## The first failing slot of `call` (R765, R903) -/

/-- What a write raises depends on the parameters and the PC alone, not on the value or the memory. -/
theorem memWrite_error_of_sameBeside {s u : State} {addr : Word} {n : Nat} {v w : Word} {f : Fault}
    (h : SameBeside s u) (hfail : memWrite s addr n v = .error f) : memWrite u addr n w = .error f := by
  rw [memWrite_eq_error_iff] at hfail ⊢
  rwa [h.cfg, h.pc]

/-- The next push raises what a write to its slot raises. -/
theorem CallPushed.push_error {s u : State} {n : Nat} {v w : Word} {f : Fault} (h : CallPushed s n u)
    (hfail : memWrite s (callSlot s n) 8 v = .error f) : push u 8 w = .error f := by
  rw [push_eq_error_iff, h.pushAddr_eq]
  exact memWrite_error_of_sameBeside h.beside hfail

/-- What the next of the ten pushes saves is the next register of the order. -/
theorem callSlotValue_of_drop {n : Nat} {r : Reg} {rs : List Reg} (s : State)
    (h : callOrder.drop n = r :: rs) : n < 10 ∧ callSlotValue s n = s.getReg r := by
  have hget : callOrder[n]? = some r := by rw [← List.head?_drop, h, List.head?_cons]
  refine ⟨(List.getElem?_eq_some_iff.1 hget).1, ?_⟩
  rw [callSlotValue_eq, List.getD_eq_getElem?_getD, hget, Option.getD_some]

section
variable {s : State} {k : Nat} {v : Word} {f : Fault} (hk : k < 10)
  (hbefore : ∀ j, j < k → Writable s (callSlot s j).toNat 8 ∧ Aligned s (callSlot s j).toNat 8)
  (hfail : memWrite s (callSlot s k) 8 v = .error f)
include hk hbefore hfail

/-- Where slot `k` is still to come, the last pushes end with its fault. -/
theorem CallPushed.pushRegs_error {u : State} {n : Nat} {rs : List Reg} (h : CallPushed s n u) (hnk : n ≤ k)
    (hrs : callOrder.drop n = rs) (hsp : Config.sp ∉ rs) (hregs : ∀ r ∈ rs, u.getReg r = s.getReg r) :
    pushRegs u rs = .error f := by
  induction rs generalizing n u with
  | nil => exact absurd (List.drop_eq_nil_iff.1 hrs) (Nat.not_le.2 (hnk.trans_lt hk))
  | cons r rs ih =>
    obtain ⟨hn, hr⟩ := callSlotValue_of_drop s hrs
    rw [pushRegs_cons_error]
    obtain rfl | hlt := hnk.eq_or_lt
    · exact .inl (h.push_error hfail)
    · obtain ⟨hwrite, halign⟩ := hbefore n hlt
      obtain ⟨t, hpush, ht⟩ := h.exists_push hn hwrite halign
      rw [hr, ← hregs r List.mem_cons_self] at hpush
      have hrs' : callOrder.drop (n + 1) = rs := by rw [← List.tail_drop, hrs, List.tail_cons]
      exact .inr ⟨t, hpush, ih ht hlt hrs' (List.not_mem_of_not_mem_cons hsp) fun q hq =>
        (getReg_of_push hpush (ne_of_mem_of_not_mem hq (List.not_mem_of_not_mem_cons hsp))).trans
          (hregs q (List.mem_cons_of_mem _ hq))⟩

/-- The first two slots are written by the first half of `call`, the others by the pushes of the
callee-saved registers. -/
theorem exec_call_of_first_failing (target : Target24) : exec (.call target) s = .fault f := by
  have hstart := CallPushed.start s
  refine (execCall_eq_fault_iff ..).2 ?_
  rw [callLink_eq_error_iff]
  match k with
  | 0 => exact .inl (.inl (hstart.push_error hfail))
  | k + 1 =>
    obtain ⟨hwrite, halign⟩ := hbefore 0 (Nat.succ_pos k)
    obtain ⟨u, hu, hframe⟩ := hstart.exists_push (by decide) hwrite halign
    match k with
    | 0 => exact .inl (.inr ⟨u, hu, hframe.push_error hfail⟩)
    | k + 1 =>
      obtain ⟨hwrite, halign⟩ := hbefore 1 (Nat.succ_lt_succ (Nat.succ_pos k))
      obtain ⟨w, hw, hframe⟩ := hframe.exists_push (by decide) hwrite halign
      have hfp : callSlotValue s 1 = u.getReg Config.fp := (getReg_of_push hu (by decide)).symm
      rw [hfp] at hw
      have hlink := (callLink_eq_ok_iff ..).2 ⟨u, w, hu, hw, rfl⟩
      have hlinked := (hframe.setReg w.pc (r := Config.ra) (by decide)).setReg
        ((w.setReg Config.ra w.pc).getReg Config.sp) (r := Config.fp) (by decide)
      exact .inr ⟨_, hlink, hlinked.pushRegs_error hk hbefore hfail (Nat.le_add_left 2 k) rfl (by decide)
        fun r hr => getReg_of_callLink hlink (ne_of_mem_of_not_mem hr (by decide))
          (ne_of_mem_of_not_mem hr (by decide)) (ne_of_mem_of_not_mem hr (by decide))⟩

end

/-! ## Ten pops (R766) -/

theorem retSlot_zero (s : State) : retSlot s 0 = s.getReg Config.sp := BitVec.add_zero _

/-- After one pop, whatever the register it goes to, the slots to read are the next ones. -/
theorem retSlot_of_pop {s t : State} {v : BitVec (8 * 8)} (h : pop s 8 = .ok (v, t)) {r : Reg} (w : Word)
    (hr : r ≠ Config.sp) (k : Nat) : retSlot (t.setReg r w) k = retSlot s (k + 1) := by
  obtain ⟨-, -, -, rfl⟩ := (pop_eq_ok_iff ..).1 h
  rw [retSlot, State.getReg_setReg_other _ _ _ _ hr.symm, State.getReg_setReg_same _ _ _ (by decide), retSlot,
    BitVec.add_assoc, ← BitVec.ofNat_add, Nat.mul_succ, Nat.add_comm]

theorem popRegs_append (s : State) (rs rs' : List Reg) :
    popRegs s (rs ++ rs') = popRegs s rs >>= fun t => popRegs t rs' := by
  induction rs generalizing s with
  | nil => rfl
  | cons r rs ih =>
    simp only [List.cons_append, popRegs]
    cases pop s 8 with
    | ok p => exact ih _
    | error f => rfl

theorem popRegs_fp_ra (s : State) : popRegs s [Config.fp, Config.ra] = retUnlink s := by
  simp only [popRegs, retUnlink]
  cases pop s 8 with
  | error f => rfl
  | ok p => cases h : pop (p.2.setReg Config.fp p.1) 8 <;> simp only [h]

/-- The ten pops of `ret` are those of the callee-saved registers and then those of its second half. -/
theorem popRegs_retOrder (s : State) :
    popRegs s retOrder = popRegs s Config.calleeSaved.reverse >>= retUnlink := by
  rw [retOrder, popRegs_append]
  simp only [popRegs_fp_ra]

/-- The target is the RA that `ret` started with, which the pops of the callee-saved registers leave alone. -/
theorem exec_ret_of_popRegs_ok {s t : State} (h : popRegs s retOrder = .ok t) :
    exec .ret s = .next (t.retireTo (s.getReg Config.ra + 4)) := by
  rw [popRegs_retOrder] at h
  cases hu : popRegs s Config.calleeSaved.reverse with
  | error f =>
    rw [hu] at h
    cases h
  | ok u =>
    rw [hu] at h
    obtain ⟨-, -, hregs⟩ := popRegs_frame _ _ _ hu
    rw [← hregs Config.ra (by decide) (by decide)]
    exact (execRet_eq_next_iff ..).2 ⟨u, t, hu, h, rfl⟩

theorem exec_ret_of_popRegs_error {s : State} {f : Fault} (h : popRegs s retOrder = .error f) :
    exec .ret s = .fault f := by
  rw [popRegs_retOrder] at h
  refine (execRet_eq_fault_iff ..).2 ?_
  cases hu : popRegs s Config.calleeSaved.reverse with
  | error e =>
    rw [hu] at h
    exact .inl h
  | ok u =>
    rw [hu] at h
    exact .inr ⟨u, rfl, h⟩

/-- Where their slots pass the checks, the pops of different registers load them from the slots in order, and
move SP past the slots. -/
theorem exists_popRegs {s : State} {rs : List Reg} (hsp : Config.sp ∉ rs) (hzero : 0 ∉ rs)
    (hdistinct : rs.Nodup)
    (hslots : ∀ k, k < rs.length → Readable s (retSlot s k).toNat 8 ∧ Aligned s (retSlot s k).toNat 8) :
    ∃ t, popRegs s rs = .ok t ∧ t.getReg Config.sp = retSlot s rs.length ∧
      ∀ k, k < rs.length → t.getReg (rs.getD k 0) = dword s.mem (retSlot s k).toNat := by
  induction rs generalizing s with
  | nil => exact ⟨s, rfl, (retSlot_zero s).symm, fun k hk => absurd hk (Nat.not_lt_zero k)⟩
  | cons r rs ih =>
    obtain ⟨hr, hdistinct⟩ := List.nodup_cons.1 hdistinct
    obtain ⟨hrsp, hsp⟩ := List.ne_and_not_mem_of_not_mem_cons hsp
    obtain ⟨hrzero, hzero⟩ := List.ne_and_not_mem_of_not_mem_cons hzero
    obtain ⟨hread, halign⟩ := hslots 0 (Nat.succ_pos _)
    rw [retSlot_zero] at hread halign
    have hpop := pop_of_readable hread halign
    have hslot := retSlot_of_pop hpop (r := r) (s.mem.read (s.getReg Config.sp).toNat 8) hrsp.symm
    obtain ⟨t, ht, htsp, hloaded⟩ := ih hsp hzero hdistinct fun k hk => by
      rw [hslot]
      exact hslots (k + 1) (Nat.succ_lt_succ hk)
    obtain ⟨-, -, hregs⟩ := popRegs_frame _ _ _ ht
    refine ⟨t, (popRegs_cons ..).2 ⟨_, _, hpop, ht⟩, htsp.trans (hslot _), fun k hk => ?_⟩
    cases k with
    | zero =>
      rw [List.getD_cons_zero, hregs r hrsp.symm hr, State.getReg_setReg_same _ _ _ hrzero.symm, retSlot_zero]
      exact Memory.read_eight _ _
    | succ k =>
      rw [List.getD_cons_succ, hloaded k (Nat.lt_of_succ_lt_succ hk), hslot]
      rfl

/-- The pops of a list end with the fault of the first slot that fails its checks. -/
theorem popRegs_error {s : State} {rs : List Reg} {k : Nat} {f : Fault} (hsp : Config.sp ∉ rs)
    (hk : k < rs.length)
    (hbefore : ∀ j, j < k → Readable s (retSlot s j).toNat 8 ∧ Aligned s (retSlot s j).toNat 8)
    (hfail : memRead s (retSlot s k) 8 = .error f) : popRegs s rs = .error f := by
  induction rs generalizing s k with
  | nil => exact absurd hk (Nat.not_lt_zero k)
  | cons r rs ih =>
    obtain ⟨hrsp, hsp⟩ := List.ne_and_not_mem_of_not_mem_cons hsp
    rw [popRegs_cons_error]
    cases k with
    | zero =>
      rw [retSlot_zero] at hfail
      exact .inl ((pop_eq_error_iff ..).2 hfail)
    | succ k =>
      obtain ⟨hread, halign⟩ := hbefore 0 (Nat.succ_pos k)
      rw [retSlot_zero] at hread halign
      have hpop := pop_of_readable hread halign
      have hslot := retSlot_of_pop hpop (r := r) (s.mem.read (s.getReg Config.sp).toNat 8) hrsp.symm
      refine .inr ⟨_, _, hpop, ih hsp (Nat.lt_of_succ_lt_succ hk) (fun j hj => ?_) ?_⟩
      · rw [hslot]
        exact hbefore (j + 1) (Nat.succ_lt_succ hj)
      · rw [hslot]
        exact hfail

/-! ## `call` and then `ret` (R767) -/

/-- A `call` that completes found its ten slots good: a first failing one would have been reported. -/
theorem callSlots_of_exec_next {s t : State} {target : Target24} (h : exec (.call target) s = .next t) :
    ∀ k, k < 10 → Writable s (callSlot s k).toNat 8 ∧ Aligned s (callSlot s k).toNat 8 := by
  intro k
  induction k using Nat.strong_induction_on with
  | _ k ih =>
    intro hk
    have hbefore := fun j hj => ih j hj (Nat.lt_trans hj hk)
    have hno_fault : ∀ f, exec (.call target) s ≠ .fault f := fun f hf => by simp [hf] at h
    have hwrite : Writable s (callSlot s k).toNat 8 := by
      by_contra hwrite
      exact hno_fault _ (exec_call_of_first_failing hk hbefore (memWrite_of_not_writable 0 hwrite) target)
    refine ⟨hwrite, ?_⟩
    by_contra halign
    exact hno_fault _ (exec_call_of_first_failing hk hbefore (memWrite_of_not_aligned 0 hwrite halign) target)

/-- Ten doublewords below where it was, SP is at the lowest slot of the frame, and `ret` reads it upwards. -/
theorem retSlot_eq_callSlot {s u : State} (hsp : u.getReg Config.sp = s.getReg Config.sp - 80) {k : Nat}
    (hk : k < 10) : retSlot u k = callSlot s (9 - k) := by
  rw [retSlot, callSlot, hsp]
  bv_omega

/-- The last register pushed is the first popped. -/
theorem callOrder_getD : ∀ k, k < 10 → callOrder.getD (9 - k) 0 = retOrder.getD k 0 := by
  decide

/-- The registers that R767 speaks of are SP and the ten saved ones. -/
theorem mem_frame_registers_iff (q : Reg) :
    q ∈ Config.sp :: Config.fp :: Config.ra :: Config.calleeSaved ↔ q = Config.sp ∨ q ∈ retOrder := by
  simp only [retOrder, List.mem_cons, List.mem_append, List.mem_reverse, List.not_mem_nil, or_false]
  tauto

theorem dword_of_bytes {m : Memory} {a : Nat} {v : Word}
    (h : ∀ j, j < 8 → m.byte (a + j) = v.extractLsb' (8 * j) 8) : dword m a = v := by
  have hwritten : m.read a 8 = (m.write a v 8).read a 8 := Memory.read_congr _ _ _ _ fun j hj => by
    rw [h j hj, Memory.byte_write, if_pos (by omega), Nat.add_sub_cancel_left]
  rw [← Memory.read_eight, hwritten, Memory.read_write_same]
  exact BitVec.setWidth_eq v

end Sys2Proof.Machine

namespace Sys2Proof.Proofs

open Sys2Proof.Machine Sys2Proof.Claims

/-- Settles O49: the pushes before slot `k` complete, and its own raises what a write there raises. -/
theorem callReportsTheFirstFailingSlot : Obligations.CallReportsTheFirstFailingSlot := by
  intro s target k hk hbefore
  refine ⟨fun hwrite => ?_, fun hwrite halign => ?_⟩
  · exact exec_call_of_first_failing hk hbefore (memWrite_of_not_writable 0 hwrite) target
  · exact exec_call_of_first_failing hk hbefore (memWrite_of_not_aligned 0 hwrite halign) target

/-- Settles O50: `ret` is ten pops into different registers, and keeps the RA it started with for the
target. -/
theorem retUnwindsTheFrame : Obligations.RetUnwindsTheFrame := by
  refine ⟨selects_of_fields (fun _ => rfl) fun _ => rfl, fun s hslots => ?_⟩
  obtain ⟨t, hpops, hsp, hloaded⟩ :=
    exists_popRegs (rs := retOrder) (by decide) (by decide) (by decide) hslots
  obtain ⟨hbeside, hmem, hregs⟩ := popRegs_frame _ _ _ hpops
  exact ⟨_, exec_ret_of_popRegs_ok hpops, retired_retireTo hbeside _,
    fun k hk => (State.getReg_retireTo ..).trans (hloaded k hk), (State.getReg_retireTo ..).trans hsp,
    fun q hsp hq => (State.getReg_retireTo ..).trans (hregs q hsp hq), ⟨hbeside.hi, hbeside.lo⟩,
    fun a => congrArg (Memory.byte · a) hmem, sameHost_retireTo hbeside _⟩

/-- Settles O51: the pops before slot `k` complete, and its own raises what a read there raises. -/
theorem retReportsTheFirstFailingSlot : Obligations.RetReportsTheFirstFailingSlot := by
  intro s k hk hbefore
  refine ⟨fun hread => ?_, fun hread halign => ?_⟩ <;>
    refine exec_ret_of_popRegs_error (popRegs_error (by decide) hk hbefore ?_)
  · exact memRead_of_not_readable hread
  · exact memRead_of_not_aligned hread halign

/-- Settles O52: the slots that `call` wrote (O48) are those that `ret` reads (O50), in the reverse order on
both sides, and what may be written may be read. -/
theorem callThenRetRestoresTheCaller : Obligations.CallThenRetRestoresTheCaller := by
  intro s t u target hcall hcfg hsp hra hmem
  have hslots := callSlots_of_exec_next hcall
  obtain ⟨t', hcall', hretired, hregs, -, -, hframe, -⟩ := callBuildsTheFrame.2 s target hslots
  obtain rfl := Host.Outcome.next.inj (hcall.symm.trans hcall')
  have hcfg : u.cfg = s.cfg := hcfg.trans hretired.cfg
  have hsp : u.getReg Config.sp = s.getReg Config.sp - 80 := hsp.trans (hregs Config.sp)
  have hra : u.getReg Config.ra = s.pc := hra.trans (hregs Config.ra)
  have hframe : ∀ k j, k < 10 → j < 8 →
      u.mem.byte ((callSlot s k).toNat + j) = (callSlotValue s k).extractLsb' (8 * j) 8 :=
    fun k j hk hj => (hmem k j hk hj).trans (hframe k j hk hj)
  have hreads : ∀ k, k < 10 → Readable u (retSlot u k).toNat 8 ∧ Aligned u (retSlot u k).toNat 8 := by
    intro k hk
    obtain ⟨hwrite, halign⟩ := hslots (9 - k) (by omega)
    have hread := readOk_of_writeOk ((writeOk_eq_true_iff_writable ..).2 hwrite) (by decide) le_rfl le_rfl
    rw [← hcfg] at hread
    rw [Aligned, ← hcfg] at halign
    rw [retSlot_eq_callSlot hsp hk]
    exact ⟨(readOk_eq_true_iff_readable ..).1 hread, halign⟩
  obtain ⟨v, hret, hretired, hloaded, hvsp, hothers, -, -, -⟩ := retUnwindsTheFrame.2 u hreads
  have hvmem : v.mem = u.mem := mem_of_execRet hret
  have hrestored : ∀ q ∈ retOrder, v.getReg q = s.getReg q := by
    intro q hq
    obtain ⟨k, hk, rfl⟩ := List.mem_iff_getElem.1 hq
    rw [← List.getD_eq_getElem _ 0 hk, hloaded k hk, retSlot_eq_callSlot hsp hk,
      dword_of_bytes (hframe (9 - k) · (by omega)), callSlotValue_eq, callOrder_getD k hk]
  refine ⟨v, hret, ?_, fun q hq => ?_, fun q hq => ?_, hvmem, fun k j hk hj => ?_⟩
  · rw [hretired.pc, hra]
  · obtain rfl | hq := (mem_frame_registers_iff q).1 hq
    · rw [hvsp, hsp]
      exact BitVec.sub_add_cancel _ _
    · exact hrestored q hq
  · obtain ⟨hqsp, hq⟩ := not_or.1 (mt (mem_frame_registers_iff q).2 hq)
    exact hothers q hqsp hq
  · rw [hvmem, hframe k j hk hj]

end Sys2Proof.Proofs
end

section
/-! Jumps and branches (49_jump_branch.md R800 to R821): each only retires, with a successor of its own, which
the fetch of the next step checks. -/

namespace Sys2Proof.Machine

open Sys2Proof.Claims

theorem branchTarget_eq_ofNat (s : State) (imm : Imm16) :
    branchTarget s imm = BitVec.ofNat 64 (imm.toNat * scaleOf s) := by
  rw [branchTarget, scaleFactor_eq_scaleOf, BitVec.ofNat_mul, BitVec.ofNat_toNat]

theorem equalWords_iff (a b : Word) : equalWords a b = true ↔ a = b := beq_iff_eq

theorem exec_j (s : State) (target : Target24) :
    exec (.j target) s = .next (s.retireTo (BitVec.ofNat 64 (target.toNat * scaleOf s))) := by
  rw [← jumpTarget_eq_ofNat]
  rfl

theorem exec_jr (s : State) (rd : Reg) : exec (.jr rd) s = .next (s.retireTo (s.getReg rd)) := rfl

theorem exec_beq (s : State) (rd rs1 : Reg) (imm : Imm16) :
    exec (.beq rd rs1 imm) s = .next (s.retireTo
      (if s.getReg rd = s.getReg rs1 then BitVec.ofNat 64 (imm.toNat * scaleOf s) else s.pc + 4)) := by
  simp only [exec, execBeq, equalWords_iff, branchTarget_eq_ofNat, State.nextPc]

theorem exec_bne (s : State) (rd rs1 : Reg) (imm : Imm16) :
    exec (.bne rd rs1 imm) s = .next (s.retireTo
      (if s.getReg rd ≠ s.getReg rs1 then BitVec.ofNat 64 (imm.toNat * scaleOf s) else s.pc + 4)) := by
  simp only [exec, execBne, equalWords_iff, branchTarget_eq_ofNat, State.nextPc, ite_not]

end Sys2Proof.Machine

namespace Sys2Proof.Proofs

open Sys2Proof.Machine Sys2Proof.Claims

/-- Settles O53: each only retires, with its scaled target or `pc + 4` as the successor. -/
theorem jumpsAndBranchesSetTheNextPc : Obligations.JumpsAndBranchesSetTheNextPc := by
  refine ⟨⟨?j, fun s target => onlyJumps_of_exec (exec_j s target)⟩,
    ⟨?beq, fun s rd rs1 imm => onlyJumps_of_exec (exec_beq s rd rs1 imm)⟩,
    ⟨?bne, fun s rd rs1 imm => onlyJumps_of_exec (exec_bne s rd rs1 imm)⟩⟩
  all_goals exact selects_of_fields (fun _ => rfl) fun _ => rfl

/-- Settles O54: `jr` retires with the register's value as the PC, and a fetch there makes the PC check of
O5. -/
theorem jumpRegisterIsCheckedAtTheNextFetch : Obligations.JumpRegisterIsCheckedAtTheNextFetch := by
  refine ⟨selects_of_fields (fun _ => rfl) fun _ => rfl, fun s rd =>
    ⟨onlyJumps_of_exec (exec_jr s rd), fun t ht he hbad => ?_⟩⟩
  obtain rfl := Host.Outcome.next.inj ((exec_jr s rd).symm.trans ht)
  refine badPcIsFatalAtFetch.1 _ he fun ⟨hbelow, haligned⟩ => ?_
  rw [State.retireTo_pc] at hbelow haligned
  exact hbad.elim (Nat.not_le.2 hbelow) (absurd haligned)

end Sys2Proof.Proofs
end

section
/-! What an instruction can raise (60_exceptions.md R901, R905), and the trace (R960). An access, or a row of
accesses, either passes its checks or raises the fault of the first check that fails; so which faults an
instruction raises follows from its rule. -/

namespace Sys2Proof.Machine

open Sys2Proof.Claims

/-- The instruction completes, or raises an exception that R901's table gives it, with its own PC. -/
def CompletesOrRaises (i : Instr) (s : State) : Prop :=
  (∃ t, exec i s = .next t) ∨ ∃ e addr, Raises i s e addr ∧ mayRaise i e = true

theorem forall_lt_or_exists_first_not (P : Nat → Prop) (n : Nat) :
    (∀ k, k < n → P k) ∨ ∃ k, k < n ∧ (∀ j, j < k → P j) ∧ ¬ P k := by
  by_cases h : ∃ k, k < n ∧ ¬ P k
  · classical
    obtain ⟨hlt, hnot⟩ := Nat.find_spec h
    refine .inr ⟨Nat.find h, hlt, fun j hj => ?_, hnot⟩
    by_contra hPj
    exact Nat.find_min h hj ⟨hj.trans hlt, hPj⟩
  · push Not at h
    exact .inl h

section
variable {i : Instr} {s : State} {e : Exception} {R : State → Prop}
  (he : mayRaise i e = true) (hmisaligned : mayRaise i .misaligned = true)
include he hmisaligned

/-- The rule of one access, whose permission check `P` comes before its alignment check `Q` (R214). -/
theorem completesOrRaises_of_access {P Q : Prop} {addr : Word}
    (hrule : (P → Q → ∃ t, exec i s = .next t ∧ R t) ∧ (¬ P → Raises i s e addr) ∧
      (P → ¬ Q → Raises i s .misaligned addr)) : CompletesOrRaises i s := by
  obtain ⟨hok, hperm, halign⟩ := hrule
  by_cases hP : P
  · by_cases hQ : Q
    · obtain ⟨t, ht, -⟩ := hok hP hQ
      exact .inl ⟨t, ht⟩
    · exact .inr ⟨_, _, halign hP hQ, hmisaligned⟩
  · exact .inr ⟨_, _, hperm hP, he⟩

/-- The rules of a row of accesses, of which the first to fail is reported (R903). -/
theorem completesOrRaises_of_slots {P Q : Nat → Prop} {n : Nat} {slot : Nat → Word}
    (hok : (∀ k, k < n → P k ∧ Q k) → ∃ t, exec i s = .next t ∧ R t)
    (hfirst : ∀ k, k < n → (∀ j, j < k → P j ∧ Q j) →
      (¬ P k → Raises i s e (slot k)) ∧ (P k → ¬ Q k → Raises i s .misaligned (slot k))) :
    CompletesOrRaises i s := by
  obtain hall | ⟨k, hk, hbefore, hnot⟩ := forall_lt_or_exists_first_not (fun k => P k ∧ Q k) n
  · obtain ⟨t, ht, -⟩ := hok hall
    exact .inl ⟨t, ht⟩
  · exact completesOrRaises_of_access he hmisaligned (R := R)
      ⟨fun hP hQ => absurd ⟨hP, hQ⟩ hnot, hfirst k hk hbefore⟩

end

/-- Every selector has its service, and none of them fails (41_system.md R410 to R414). -/
theorem exists_exec_int_next (s : State) : ∃ t, exec .int s = .next t := by
  simp only [exec, execInt]
  split_ifs
  · exact ⟨_, rfl⟩
  · exact ⟨_, rfl⟩
  · exact ⟨_, rfl⟩
  · exact ⟨_, rfl⟩

theorem completesOrRaises_divu (s : State) (rd rs1 : Reg) : CompletesOrRaises (.divu rd rs1) s := by
  by_cases hzero : s.getReg rs1 = 0
  · exact .inr ⟨_, _, exec_divu_of_eq_zero hzero, rfl⟩
  · exact .inl ⟨_, exec_divu_of_ne_zero hzero⟩

theorem completesOrRaises_div (s : State) (rd rs1 : Reg) : CompletesOrRaises (.div rd rs1) s := by
  by_cases hzero : s.getReg rs1 = 0
  · exact .inr ⟨_, _, exec_div_of_eq_zero hzero, rfl⟩
  · by_cases hfits : (s.getReg rd).toInt = -2 ^ 63 ∧ (s.getReg rs1).toInt = -1
    · obtain ⟨ha, hb⟩ := hfits
      cases hpolicy : s.cfg.divOvfPolicy with
      | fault => exact .inr ⟨_, _, exec_div_of_overflow_fault ha hb hpolicy, rfl⟩
      | wrap => exact .inl ⟨_, exec_div_of_overflow_wrap ha hb hpolicy⟩
    · exact .inl ⟨_, exec_div_of_ne_zero hzero hfits⟩

end Sys2Proof.Machine

namespace Sys2Proof.Proofs

open Sys2Proof.Machine Sys2Proof.Claims

/-- Each instruction through its own rule; those at the end have no check that could fail. -/
theorem completesOrRaises (i : Instr) (s : State) : CompletesOrRaises i s := by
  obtain ⟨hlb, hlbu, hlh, hlhu, hlw, hlwu, hld⟩ := loadsReadAndExtend
  obtain ⟨hsb, hsh, hsw, hsd⟩ := storesWriteTheLowBytes
  obtain ⟨hpush, hpushw⟩ := pushesWriteBelowSpAndMoveIt
  obtain ⟨hpop, hpopw⟩ := popsReadAtSpAndMoveIt
  cases i with
  | lb rd rs1 off => exact completesOrRaises_of_access rfl rfl (hlb.2 s rd rs1 off)
  | lbu rd rs1 off => exact completesOrRaises_of_access rfl rfl (hlbu.2 s rd rs1 off)
  | lh rd rs1 off => exact completesOrRaises_of_access rfl rfl (hlh.2 s rd rs1 off)
  | lhu rd rs1 off => exact completesOrRaises_of_access rfl rfl (hlhu.2 s rd rs1 off)
  | lw rd rs1 off => exact completesOrRaises_of_access rfl rfl (hlw.2 s rd rs1 off)
  | lwu rd rs1 off => exact completesOrRaises_of_access rfl rfl (hlwu.2 s rd rs1 off)
  | ld rd rs1 off => exact completesOrRaises_of_access rfl rfl (hld.2 s rd rs1 off)
  | sb rd rs1 off => exact completesOrRaises_of_access rfl rfl (hsb.2 s rd rs1 off)
  | sh rd rs1 off => exact completesOrRaises_of_access rfl rfl (hsh.2 s rd rs1 off)
  | sw rd rs1 off => exact completesOrRaises_of_access rfl rfl (hsw.2 s rd rs1 off)
  | sd rd rs1 off => exact completesOrRaises_of_access rfl rfl (hsd.2 s rd rs1 off)
  | push rd => exact completesOrRaises_of_access rfl rfl (hpush.2 s rd)
  | pushw rd => exact completesOrRaises_of_access rfl rfl (hpushw.2 s rd)
  | pop rd => exact completesOrRaises_of_access rfl rfl (hpop.2 s rd)
  | popw rd => exact completesOrRaises_of_access rfl rfl (hpopw.2 s rd)
  | call target =>
    exact completesOrRaises_of_slots rfl rfl (callBuildsTheFrame.2 s target)
      (callReportsTheFirstFailingSlot s target)
  | ret =>
    exact completesOrRaises_of_slots rfl rfl (retUnwindsTheFrame.2 s) (retReportsTheFirstFailingSlot s)
  | div rd rs1 => exact completesOrRaises_div s rd rs1
  | divu rd rs1 => exact completesOrRaises_divu s rd rs1
  | int => exact .inl (exists_exec_int_next s)
  | nop | brk | j _ | jr _ | beq _ _ _ | bne _ _ _
  | lui _ _ | mov _ _ | mfhi _ | mflo _ | mul _ _ | mulu _ _
  | slt _ _ _ | sltu _ _ _ | seq _ _ _ | slti _ _ _ | sltiu _ _ _ | seqi _ _ _
  | or _ _ _ | and _ _ _ | xor _ _ _ | nor _ _ _ | ori _ _ _ | andi _ _ _ | xori _ _ _ | nori _ _ _
  | sll _ _ _ | srl _ _ _ | slli _ _ _ | srli _ _ _
  | add _ _ _ | sub _ _ _ | addi _ _ _ | subi _ _ _ => exact .inl ⟨_, rfl⟩

/-- Settles O11: the loads, stores, pushes and pops (O34, O35, O46, O47), `call` and `ret` (O48 to O51) and the
divisions each complete or fail a check of theirs, and no other instruction can fail. -/
theorem instructionsRaiseOnlyWhatTheTableGives : Obligations.InstructionsRaiseOnlyWhatTheTableGives :=
  ⟨completesOrRaises, rfl, rfl, rfl, rfl, rfl, rfl, rfl⟩

/-- Settles O22: Execute changes neither the PC nor the trace nor `DEBUG`, and the retire phase reports the
PC. -/
theorem traceReportsEachRetiredInstruction : Obligations.TraceReportsEachRetiredInstruction := by
  intro i s t h
  obtain ⟨u, pc, e, hframe, rfl⟩ := exec_next_retirePhase h
  rw [State.setEngine_trace, State.retirePhase_trace, hframe.cfg, hframe.trace, hframe.pc]

end Sys2Proof.Proofs
end

section
/-! The debug pause (60_exceptions.md R961 to R964) and the record of the host's side
(70_reset_and_hazards.md R1021): where a command line comes from, and what each one does. -/

namespace Sys2Proof.Machine

open Sys2Proof.Claims

/-! ## Where a command line comes from (R961) -/

theorem step_of_paused {s : State} (he : s.engine = .debugPaused) :
    step s = actOnCommand (hostLine s).1 (hostLine s).2 := by
  simp only [step, he]
  rfl

theorem hostLine_listed {s : State} {line : CommandLine} {rest : List CommandLine}
    (hc : s.commands = line :: rest) : hostLine s = (line, { s with commands := rest }) := by
  simp only [hostLine, hc]

theorem hostLine_free {s : State} (hc : s.commands = []) :
    hostLine s = (Config.hostLine s.draws, { s with draws := s.draws + 1 }) := by
  simp only [hostLine, hc]

theorem step_of_listed_line {s : State} {line : CommandLine} {rest : List CommandLine}
    (he : s.engine = .debugPaused) (hc : s.commands = line :: rest) :
    step s = actOnCommand line { s with commands := rest } := by
  rw [step_of_paused he, hostLine_listed hc]

theorem step_of_free_line {s : State} (he : s.engine = .debugPaused) (hc : s.commands = []) :
    step s = actOnCommand (Config.hostLine s.draws) { s with draws := s.draws + 1 } := by
  rw [step_of_paused he, hostLine_free hc]

/-! ## What each command line does (R962, R964) -/

section
variable (s : State)

theorem actOnCommand_continue {line : CommandLine} (h : line = [] ∨ line = ['c']) :
    actOnCommand line s = .next { s with stepArmed := false, engine := .fetching } := by
  obtain rfl | rfl := h <;> rfl

theorem actOnCommand_s : actOnCommand ['s'] s = .next { s with stepArmed := true, engine := .fetching } := rfl

theorem actOnCommand_q : actOnCommand ['q'] s = .fault .quit := rfl

theorem actOnCommand_rd : actOnCommand ['r', 'd'] s = .next (s.display (registersDisplay s)) := rfl

theorem actOnCommand_op : actOnCommand ['o', 'p'] s = .next (s.display (opcodeDisplay s)) := rfl

theorem actOnCommand_si : actOnCommand ['s', 'i'] s = .next (s.display (stackDisplay s)) := rfl

theorem actOnCommand_unknown {line : CommandLine}
    (h : line ∉ [[], ['c'], ['s'], ['q'], ['r', 'd'], ['o', 'p'], ['s', 'i']]) :
    actOnCommand line s = .next (s.display (.error line)) := by
  simp only [List.mem_cons, List.not_mem_nil, or_false, not_or] at h
  have hparse : parseCommand line = .unknown := by simp [parseCommand, h]
  simp only [actOnCommand, hparse]

end

/-! ## What the displays show (R963) -/

theorem opcodeDisplay_of_pcInText {s : State} (h : PcInText s) :
    opcodeDisplay s = .opcode (some (fieldsOf (fetchWord s)).op) := by
  rw [opcodeDisplay, if_pos ((pcOk_iff ..).2 h)]
  rfl

theorem stackDisplay_of_gp_lt_sp {s : State}
    (h : (s.getReg Config.gp).toNat < (s.getReg Config.sp).toNat) : stackDisplay s = .stack [] := by
  have hnone : ((s.getReg Config.gp).toNat - (s.getReg Config.sp).toNat + 7) / 8 = 0 := by omega
  rw [stackDisplay, hnone]
  rfl

@[simp] theorem stackWords_length (s : State) (a k : Nat) : (stackWords s a k).length = k := by
  induction k generalizing a with
  | zero => rfl
  | succ k ih => rw [stackWords, List.length_cons, ih]

/-- A doubleword that lies inside the image is shown with its address and its value. -/
theorem getElem?_stackWords {s : State} {a k i : Nat} (hi : i < k) (hinside : a + 8 * i + 8 ≤ s.cfg.memSize) :
    (stackWords s a k)[i]? = some (a + 8 * i, some (dword s.mem (a + 8 * i))) := by
  induction k generalizing a i with
  | zero => exact absurd hi (Nat.not_lt_zero i)
  | succ k ih =>
    rw [stackWords]
    cases i with
    | zero => rw [List.getElem?_cons_zero, if_pos hinside, Memory.read_eight]; rfl
    | succ i =>
      have haddr : a + 8 + 8 * i = a + 8 * (i + 1) := by omega
      rw [List.getElem?_cons_succ, ih (Nat.lt_of_succ_lt_succ hi) (haddr ▸ hinside), haddr]

end Sys2Proof.Machine

namespace Sys2Proof.Proofs

open Sys2Proof.Machine Sys2Proof.Claims

/-- Settles O27: a pause asks the host for one line, and both the lines and the answers come from their lists
as long as these last. -/
theorem hostAnswersAndLinesAreTakenInOrder : Obligations.HostAnswersAndLinesAreTakenInOrder := by
  refine fun s => ⟨fun line rest => step_of_listed_line, step_of_free_line, fun b rest he hi => ?_,
    fun rest he hi => ?_, hostIn_ended s, fun he hi => ?_⟩
  · rw [hostIn_listed he hi]
    exact ⟨rfl, rfl, rfl⟩
  · rw [hostIn_listed he hi]
    exact ⟨rfl, rfl⟩
  · rw [hostIn_free he hi]
    exact ⟨rfl, rfl, rfl⟩

/-- Settles O31: the step acts on the first listed line (O27), and each line has its one effect. -/
theorem pauseCommandsActAsListed : Obligations.PauseCommandsActAsListed := by
  intro s line rest he hc
  rw [step_of_listed_line he hc]
  refine ⟨actOnCommand_continue _, ?s, ?q, ?rd, ?op, ?si, actOnCommand_unknown _⟩
  case s =>
    rintro rfl
    exact actOnCommand_s _
  case q =>
    rintro rfl
    exact actOnCommand_q _
  case rd =>
    rintro rfl
    exact ⟨Vector.ofFn fun q : Reg => s.getReg q, fun q => Vector.getElem_ofFn _, actOnCommand_rd _⟩
  case op =>
    rintro rfl hpc
    rw [actOnCommand_op, opcodeDisplay_of_pcInText (s := { s with commands := rest }) hpc]
    rfl
  case si =>
    rintro rfl hlt
    rw [actOnCommand_si, stackDisplay_of_gp_lt_sp (s := { s with commands := rest }) hlt]
    rfl

/-- Settles O32: the display is a list of doublewords from SP up, and those below GP lie inside the image. -/
theorem stackDisplayShowsTheDoublewords : Obligations.StackDisplayShowsTheDoublewords := by
  intro s rest he hc hgp
  refine ⟨_, (step_of_listed_line he hc).trans (actOnCommand_si _), stackWords_length .., fun k hk => ?_⟩
  have hshown : k < ((s.getReg Config.gp).toNat - (s.getReg Config.sp).toNat + 7) / 8 := by omega
  exact getElem?_stackWords hshown (hk.trans hgp)

end Sys2Proof.Proofs
end

section
/-! The container's layout (70_reset_and_hazards.md R1003, R1004) and the state the loader makes of one. The
loader is a row of readers; a reader that takes its bytes whole and refuses them cut short makes, with the
next one, another such reader. -/

namespace Sys2Proof.Machine

/-! ## Readers -/

/-- The reader takes exactly `bytes` off the front, with a result made of what follows them, and refuses every
shorter front of them as truncated. -/
structure Reads {α : Type} (reader : List Byte → Except LoadError α) (bytes : List Byte)
    (out : List Byte → α) : Prop where
  whole : ∀ rest, reader (bytes ++ rest) = .ok (out rest)
  cut : ∀ k, k < bytes.length → reader (bytes.take k) = .error .truncated

section
variable {α β : Type}

theorem Reads.pure (out : List Byte → α) : Reads (fun rest => .ok (out rest)) [] out where
  whole _ := rfl
  cut k hk := absurd hk (Nat.not_lt_zero k)

theorem Reads.ite {p : Prop} [Decidable p] {reader other : List Byte → Except LoadError α}
    {bytes : List Byte} {out : List Byte → α} (hp : p) (h : Reads reader bytes out) :
    Reads (fun bs => if p then reader bs else other bs) bytes out := by
  simpa only [if_pos hp] using h

/-- A reader and the one after it, which may depend on the value read. A front that ends in the bytes of the
second has the bytes of the first whole. -/
theorem Reads.bind {reader : List Byte → Except LoadError (α × List Byte)} {v : α}
    {bytes bytes' : List Byte} {next : α × List Byte → Except LoadError β} {out : List Byte → β}
    (hfirst : Reads reader bytes (v, ·)) (hnext : Reads (fun rest => next (v, rest)) bytes' out) :
    Reads (fun bs => reader bs >>= next) (bytes ++ bytes') out where
  whole rest := by
    rw [List.append_assoc, hfirst.whole]
    exact hnext.whole rest
  cut k hk := by
    obtain hlt | ⟨d, rfl⟩ := (Nat.lt_or_ge k bytes.length).imp_right Nat.exists_eq_add_of_le
    · rw [List.take_append_of_le_length hlt.le, hfirst.cut k hlt]
      rfl
    · rw [List.length_append] at hk
      rw [List.take_length_add_append, hfirst.whole]
      exact hnext.cut d (Nat.lt_of_add_lt_add_left hk)

end

theorem reads_takeBytes (bytes : List Byte) : Reads (takeBytes bytes.length) bytes (bytes, ·) where
  whole := takeBytes_append bytes
  cut k hk := takeBytes_short _ _ (by rwa [List.length_take, Nat.min_eq_left hk.le])

theorem reads_takeField {n : Nat} (h : n < 2 ^ 64) : Reads takeField (fieldBytes n) (n, ·) where
  whole := takeField_append n h
  cut k hk := by
    have hcut := (reads_takeBytes (fieldBytes n)).cut k hk
    rw [fieldBytes_length] at hcut
    rw [takeField, hcut]

/-! ## The layout (R1003) -/

theorem reads_takeRecord {r : FunctionRecord} (h : r.name.length < 2 ^ 64) :
    Reads takeRecord (recordBytes r) (r, ·) := by
  obtain ⟨address, name⟩ := r
  have hread : Reads takeRecord (fieldBytes address.toNat ++ (fieldBytes name.length ++ (name ++ [])))
      (⟨BitVec.ofNat 64 address.toNat, name⟩, ·) :=
    (reads_takeField address.isLt).bind ((reads_takeField h).bind ((reads_takeBytes name).bind (.pure _)))
  rwa [BitVec.ofNat_toNat, BitVec.setWidth_eq, List.append_nil, ← List.append_assoc] at hread

theorem reads_takeRecords {rs : List FunctionRecord} (h : ∀ r ∈ rs, r.name.length < 2 ^ 64) :
    Reads (takeRecords rs.length) (rs.flatMap recordBytes) (rs, ·) := by
  induction rs with
  | nil => exact .pure _
  | cons r rs ih =>
    obtain ⟨hr, hrs⟩ := List.forall_mem_cons.1 h
    rw [List.flatMap_cons, ← List.append_nil (rs.flatMap recordBytes)]
    exact (reads_takeRecord hr).bind ((ih hrs).bind (.pure _))

theorem Container.fits_iff (c : Container) :
    c.fits = true ↔ c.records.length < 2 ^ 64 ∧ (∀ r ∈ c.records, r.name.length < 2 ^ 64) ∧
      c.text.length < 2 ^ 64 ∧ c.data.length < 2 ^ 64 ∧ c.rodata.length < 2 ^ 64 := by
  simp [Container.fits, and_assoc]

/-- The magic is right, so the reader goes on to the four lengths and then to what they announce. -/
theorem reads_parseContainer {c : Container} (h : c.fits = true) :
    Reads parseContainer (containerBytes c) fun _ => c := by
  obtain ⟨hrecords, hnames, htext, hdata, hrodata⟩ := c.fits_iff.1 h
  have hbytes : containerBytes c = fieldBytes Config.containerMagic.toNat ++ (fieldBytes c.records.length ++
      (fieldBytes c.text.length ++ (fieldBytes c.data.length ++ (fieldBytes c.rodata.length ++
      (c.records.flatMap recordBytes ++ (c.text ++ (c.data ++ (c.rodata ++ [])))))))) := by
    simp only [containerBytes, List.append_assoc, List.append_nil]
  rw [hbytes]
  refine (reads_takeField Config.containerMagic.isLt).bind (.ite rfl ?_)
  exact (reads_takeField hrecords).bind ((reads_takeField htext).bind ((reads_takeField hdata).bind
    ((reads_takeField hrodata).bind ((reads_takeRecords hnames).bind ((reads_takeBytes c.text).bind
      ((reads_takeBytes c.data).bind ((reads_takeBytes c.rodata).bind (.pure _))))))))

/-! ## The state the loader makes (R1000, R1001) -/

/-- The reset state over the image of a container whose layout passes the checks. -/
theorem invariant_initial {params : RunConfig} {c : Container} (h : (configFor params c).wf = true) :
    Invariant (State.initial (configFor params c) (imageOf c)) where
  zero_register := resetRegs_getElem _ 0
  engine_between := ⟨nofun, nofun⟩
  pause_debug := nofun
  armed_debug := nofun
  memory_canonical := Memory.wf_ofBytes _ _
  memory_inside a ha := by
    obtain ⟨-, -, hfits, -, -⟩ := (configFor_wf_iff ..).1 h
    exact byte_imageOf_above c (hfits.trans ha)
  layout := h

end Sys2Proof.Machine

namespace Sys2Proof.Proofs

open Sys2Proof.Machine Sys2Proof.Claims

/-- Settles O14: the loader makes reset states over checked layouts (O59). -/
theorem loadedStatesMeetTheInvariant : Obligations.LoadedStatesMeetTheInvariant := by
  intro params bytes s h
  obtain ⟨c, -, hlayout, rfl⟩ := (loadContainer_eq_ok_iff ..).1 h
  exact invariant_initial hlayout

/-- Settles O57: the parser reads exactly the container's bytes. -/
theorem containerBytesParseBack : Obligations.ContainerBytesParseBack :=
  fun _ extra h => (reads_parseContainer h).whole extra

/-- Settles O58: every reader of the parser refuses its bytes when they are cut short. -/
theorem truncatedContainersAreRefused : Obligations.TruncatedContainersAreRefused :=
  fun _ k h => (reads_parseContainer h).cut k

end Sys2Proof.Proofs
end
